-- ==== Sys2Proof/Word.lean ====
section
/-! DEFINITION. The word types: 32-bit words (R8 XLEN, R11), bytes, and 5-bit register numbers (R30, R101). -/

namespace Sys2Proof

/-- A 32-bit word: a register's contents, a program counter, an address (R11, R30, R36). -/
abbrev Word := BitVec 32

/-- One byte of memory (R73). -/
abbrev Byte := BitVec 8

/-- A register number, the 5-bit field of an instruction (R101). -/
abbrev Reg := BitVec 5

end Sys2Proof
end

