-- ==== Sys2Proof/Syntax.lean ====
section
/-! DEFINITION. The instructions, one constructor per row of spec/opcode_table.json, and the values of the decoded
control fields that travel with an instruction through the pipeline (R130 to R139). -/

namespace Sys2Proof

/-- The instructions. Immediates are the encoded fields before extension: `imm` of LUI and AUIPC is bits 31..12 of the
U-immediate (R106), the 12-bit `imm` of the I and S formats is sign-extended where it is used (R103, R104), and an
`offset` is the byte offset of a branch (R105) or JAL (R107), whose bit 0 is 0 in every encoding. The operand order is
the assembler's (R145). -/
inductive Instr where
  /-- LUI (R163). -/
  | lui (rd : Reg) (imm : BitVec 20)
  /-- AUIPC (R164). -/
  | auipc (rd : Reg) (imm : BitVec 20)
  /-- JAL (R207). -/
  | jal (rd : Reg) (offset : BitVec 21)
  /-- JALR (R208). -/
  | jalr (rd rs1 : Reg) (imm : BitVec 12)
  /-- BEQ (R209). -/
  | beq (rs1 rs2 : Reg) (offset : BitVec 13)
  /-- BNE (R210). -/
  | bne (rs1 rs2 : Reg) (offset : BitVec 13)
  /-- BLT (R211). -/
  | blt (rs1 rs2 : Reg) (offset : BitVec 13)
  /-- BGE (R212). -/
  | bge (rs1 rs2 : Reg) (offset : BitVec 13)
  /-- BLTU (R213). -/
  | bltu (rs1 rs2 : Reg) (offset : BitVec 13)
  /-- BGEU (R214). -/
  | bgeu (rs1 rs2 : Reg) (offset : BitVec 13)
  /-- LB (R259). -/
  | lb (rd rs1 : Reg) (imm : BitVec 12)
  /-- LH (R260). -/
  | lh (rd rs1 : Reg) (imm : BitVec 12)
  /-- LW (R261). -/
  | lw (rd rs1 : Reg) (imm : BitVec 12)
  /-- LBU (R262). -/
  | lbu (rd rs1 : Reg) (imm : BitVec 12)
  /-- LHU (R263). -/
  | lhu (rd rs1 : Reg) (imm : BitVec 12)
  /-- SB (R265). -/
  | sb (rs2 rs1 : Reg) (imm : BitVec 12)
  /-- SH (R266). -/
  | sh (rs2 rs1 : Reg) (imm : BitVec 12)
  /-- SW (R267). -/
  | sw (rs2 rs1 : Reg) (imm : BitVec 12)
  /-- ADDI (R165). -/
  | addi (rd rs1 : Reg) (imm : BitVec 12)
  /-- SLTI (R166). -/
  | slti (rd rs1 : Reg) (imm : BitVec 12)
  /-- SLTIU (R167). -/
  | sltiu (rd rs1 : Reg) (imm : BitVec 12)
  /-- XORI (R168). -/
  | xori (rd rs1 : Reg) (imm : BitVec 12)
  /-- ORI (R169). -/
  | ori (rd rs1 : Reg) (imm : BitVec 12)
  /-- ANDI (R170). -/
  | andi (rd rs1 : Reg) (imm : BitVec 12)
  /-- SLLI (R171). -/
  | slli (rd rs1 : Reg) (shamt : BitVec 5)
  /-- SRLI (R172). -/
  | srli (rd rs1 : Reg) (shamt : BitVec 5)
  /-- SRAI (R173). -/
  | srai (rd rs1 : Reg) (shamt : BitVec 5)
  /-- ADD (R174). -/
  | add (rd rs1 rs2 : Reg)
  /-- SUB (R175). -/
  | sub (rd rs1 rs2 : Reg)
  /-- SLL (R176). -/
  | sll (rd rs1 rs2 : Reg)
  /-- SLT (R177). -/
  | slt (rd rs1 rs2 : Reg)
  /-- SLTU (R178). -/
  | sltu (rd rs1 rs2 : Reg)
  /-- XOR (R179). -/
  | xor (rd rs1 rs2 : Reg)
  /-- SRL (R180). -/
  | srl (rd rs1 rs2 : Reg)
  /-- SRA (R181). -/
  | sra (rd rs1 rs2 : Reg)
  /-- OR (R182). -/
  | or (rd rs1 rs2 : Reg)
  /-- AND (R183). -/
  | and (rd rs1 rs2 : Reg)
  /-- MUL (R282). -/
  | mul (rd rs1 rs2 : Reg)
  /-- MULH (R283). -/
  | mulh (rd rs1 rs2 : Reg)
  /-- MULHSU (R284). -/
  | mulhsu (rd rs1 rs2 : Reg)
  /-- MULHU (R285). -/
  | mulhu (rd rs1 rs2 : Reg)
  /-- DIV (R302). -/
  | div (rd rs1 rs2 : Reg)
  /-- DIVU (R303). -/
  | divu (rd rs1 rs2 : Reg)
  /-- REM (R304). -/
  | rem (rd rs1 rs2 : Reg)
  /-- REMU (R305). -/
  | remu (rd rs1 rs2 : Reg)
  /-- ECALL, the halt word 0x00000073 (R330). -/
  | ecall
  /-- EBREAK, the halt word 0x00100073 (R331). -/
  | ebreak
  /-- HALT_SB, the reserved halt word 0xFE000FA3 (R332). -/
  | haltSb
  /-- NOP, the exact word 0x00000013 (R334). -/
  | nop
  /-- ZERO_WORD, the exact word 0x00000000 (R335, R110). -/
  | zeroWord
deriving DecidableEq, Repr

/-- `alu_op` (R131). The first value is the inert one (R139). -/
inductive AluOp where
  | none | add | sub | sll | slt | sltu | xor | srl | sra | or | and
  | mul | mulh | mulhsu | mulhu | div | divu | rem | remu
deriving DecidableEq, Repr

/-- `op1_sel` (R132). -/
inductive Op1Sel where
  | zero | rs1 | pc
deriving DecidableEq, Repr

/-- `op2_sel` (R132). -/
inductive Op2Sel where
  | zero | rs2 | imm | four
deriving DecidableEq, Repr

/-- `branch_kind` (R135). -/
inductive BranchKind where
  | none | eq | ne | lt | ge | ltu | geu | jal | jalr
deriving DecidableEq, Repr

/-- `mem_op` (R136). -/
inductive MemOp where
  | none | load | store
deriving DecidableEq, Repr

/-- `mem_width` (R136): 1, 2 or 4 bytes. -/
inductive MemWidth where
  | b | h | w
deriving DecidableEq, Repr

/-- `mem_sign` (R136): sign-extend or zero-extend. -/
inductive MemSign where
  | s | u
deriving DecidableEq, Repr

/-- The format tag that selects the immediate (R102, R113 column `imm`). -/
inductive Format where
  | r | i | s | b | u | j
deriving DecidableEq, Repr

/-- The ControlPacket of R130. -/
structure ControlPacket where
  aluOp : AluOp
  op1Sel : Op1Sel
  op2Sel : Op2Sel
  branchKind : BranchKind
  /-- Not decoded: the next PC that IF predicted for the word (R138). -/
  predictedNextPc : Word
  memOp : MemOp
  memWidth : MemWidth
  memSign : MemSign
  destReg : Reg
  haltFlag : Bool
deriving DecidableEq, Repr

/-- What the decoder emits for one word: the ControlPacket, the selected immediate, the two source fields and their
used flags (R112, R134, R394). -/
structure DecodedControl where
  ctrl : ControlPacket
  imm : Word
  rs1 : Reg
  rs2 : Reg
  used1 : Bool
  used2 : Bool
deriving DecidableEq, Repr

end Sys2Proof
end

