-- ==== Sys2Proof/Decode.lean ====
section
/-! DEFINITION. The decoder and the encoder (30_encoding.md). A word is sliced into the fields of R101 and matched against
the control table of R113, once for both levels: a row gives the instruction the sequential level runs and the
ControlPacket the pipeline carries. Every word decodes (R117): a word that no row matches is named `noRow`. -/

namespace Sys2Proof

/-! ### Fields (R101) and immediates (R103 to R107) -/

def opcodeOf (w : Word) : BitVec 7 := w.extractLsb' 0 7
def rdOf (w : Word) : Reg := w.extractLsb' 7 5
def funct3Of (w : Word) : BitVec 3 := w.extractLsb' 12 3
def rs1Of (w : Word) : Reg := w.extractLsb' 15 5
def rs2Of (w : Word) : Reg := w.extractLsb' 20 5
def funct7Of (w : Word) : BitVec 7 := w.extractLsb' 25 7
def bit30Of (w : Word) : Bool := w.getLsbD 30
def bit25Of (w : Word) : Bool := w.getLsbD 25

/-- Bits 31..20, the I-immediate before extension (R103). -/
def immIOf (w : Word) : BitVec 12 := w.extractLsb' 20 12

/-- The S-immediate before extension (R104). -/
def immSOf (w : Word) : BitVec 12 := w.extractLsb' 25 7 ++ w.extractLsb' 7 5

/-- The B-immediate before extension, a byte offset whose bit 0 is 0 (R105). -/
def immBOf (w : Word) : BitVec 13 :=
  w.extractLsb' 31 1 ++ w.extractLsb' 7 1 ++ w.extractLsb' 25 6 ++ w.extractLsb' 8 4 ++ 0#1

/-- Bits 31..12, the upper bits of the U-immediate (R106). -/
def immUOf (w : Word) : BitVec 20 := w.extractLsb' 12 20

/-- The J-immediate before extension, a byte offset whose bit 0 is 0 (R107). -/
def immJOf (w : Word) : BitVec 21 :=
  w.extractLsb' 31 1 ++ w.extractLsb' 12 8 ++ w.extractLsb' 20 1 ++ w.extractLsb' 21 10 ++ 0#1

/-- `immI` and `immS` (R103, R104): the 12-bit field sign-extended to 32 bits. -/
def sext12 (imm : BitVec 12) : Word := imm.signExtend 32

/-- `immB` (R105). -/
def sext13 (offset : BitVec 13) : Word := offset.signExtend 32

/-- `immJ` (R107). -/
def sext21 (offset : BitVec 21) : Word := offset.signExtend 32

/-- `immU` (R106): the 20-bit field above twelve zero bits. -/
def upper20 (imm : BitVec 20) : Word := imm ++ 0#12

/-- The immediate a format tag selects (R103 to R107, R112). The R format has none: 0. DESIGN CHOICE, log entry 8 (safe: no
R-format row reads it). -/
def immOf (f : Format) (w : Word) : Word :=
  match f with
  | .r => 0
  | .i => sext12 (immIOf w)
  | .s => sext12 (immSOf w)
  | .b => sext13 (immBOf w)
  | .u => upper20 (immUOf w)
  | .j => sext21 (immJOf w)

/-! ### The control table (R113) -/

/-- The all-zero control point (R139). -/
def ControlPacket.inert : ControlPacket :=
  { aluOp := .none, op1Sel := .zero, op2Sel := .zero, branchKind := .none, predictedNextPc := 0,
    memOp := .none, memWidth := .b, memSign := .s, destReg := 0, haltFlag := false }

/-- A row of the control table (the table gives no `mem_width` and `mem_sign` where `mem_op` is NONE, and no `mem_sign` for a
store: B and S, which nothing reads; DESIGN CHOICE, log entry 8): its key (opcode, and the funct3, bit 30 and bit 25 it compares, R113), the funct7 of its
canonical encodings where they fix one (R115, `canonical_mask`), the instruction it stands for, and its control columns. -/
structure Row where
  opcode : BitVec 7
  funct3 : Option (BitVec 3)
  bit30 : Option Bool
  bit25 : Option Bool
  canonical7 : Option (BitVec 7)
  build : Word → Instr
  format : Format
  op1 : Op1Sel
  op2 : Op2Sel
  alu : AluOp
  br : BranchKind
  mem : MemOp
  width : MemWidth
  sign : MemSign
  writesRd : Bool
  used1 : Bool
  used2 : Bool

/-- A key column that is not compared matches everything (R109). -/
def keyMatches {α : Type} [DecidableEq α] (key : Option α) (v : α) : Bool :=
  match key with
  | none => true
  | some k => k == v

/-- Row matching (R109, R113). -/
def Row.hits (r : Row) (w : Word) : Bool :=
  r.opcode == opcodeOf w && keyMatches r.funct3 (funct3Of w) && keyMatches r.bit30 (bit30Of w) &&
    keyMatches r.bit25 (bit25Of w)

/-- LUI and AUIPC: U format, no key but the opcode, no source (R163, R164). -/
def Row.upper (opcode : BitVec 7) (mk : Reg → BitVec 20 → Instr) (op1 : Op1Sel) : Row :=
  { opcode := opcode, funct3 := none, bit30 := none, bit25 := none, canonical7 := none
    build := fun w => mk (rdOf w) (immUOf w)
    format := .u, op1 := op1, op2 := .imm, alu := .add, br := .none, mem := .none, width := .b, sign := .s
    writesRd := true, used1 := false, used2 := false }

/-- JAL (R207): the ALU computes the link `pc + 4` (R200). -/
def Row.jal : Row :=
  { opcode := 0b1101111, funct3 := none, bit30 := none, bit25 := none, canonical7 := none
    build := fun w => .jal (rdOf w) (immJOf w)
    format := .j, op1 := .pc, op2 := .four, alu := .add, br := .jal, mem := .none, width := .b, sign := .s
    writesRd := true, used1 := false, used2 := false }

/-- JALR (R208). -/
def Row.jalr : Row :=
  { opcode := 0b1100111, funct3 := some 0b000, bit30 := none, bit25 := none, canonical7 := none
    build := fun w => .jalr (rdOf w) (rs1Of w) (immIOf w)
    format := .i, op1 := .pc, op2 := .four, alu := .add, br := .jalr, mem := .none, width := .b, sign := .s
    writesRd := true, used1 := true, used2 := false }

/-- A conditional branch (R209 to R214). -/
def Row.branch (funct3 : BitVec 3) (mk : Reg → Reg → BitVec 13 → Instr) (kind : BranchKind) : Row :=
  { opcode := 0b1100011, funct3 := some funct3, bit30 := none, bit25 := none, canonical7 := none
    build := fun w => mk (rs1Of w) (rs2Of w) (immBOf w)
    format := .b, op1 := .rs1, op2 := .rs2, alu := .add, br := kind, mem := .none, width := .b, sign := .s
    writesRd := false, used1 := true, used2 := true }

/-- A load (R259 to R263). -/
def Row.load (funct3 : BitVec 3) (mk : Reg → Reg → BitVec 12 → Instr) (width : MemWidth) (sign : MemSign) : Row :=
  { opcode := 0b0000011, funct3 := some funct3, bit30 := none, bit25 := none, canonical7 := none
    build := fun w => mk (rdOf w) (rs1Of w) (immIOf w)
    format := .i, op1 := .rs1, op2 := .imm, alu := .add, br := .none, mem := .load, width := width, sign := sign
    writesRd := true, used1 := true, used2 := false }

/-- A store (R265 to R267). -/
def Row.store (funct3 : BitVec 3) (mk : Reg → Reg → BitVec 12 → Instr) (width : MemWidth) : Row :=
  { opcode := 0b0100011, funct3 := some funct3, bit30 := none, bit25 := none, canonical7 := none
    build := fun w => mk (rs2Of w) (rs1Of w) (immSOf w)
    format := .s, op1 := .rs1, op2 := .imm, alu := .add, br := .none, mem := .store, width := width, sign := .s
    writesRd := false, used1 := true, used2 := true }

/-- An OP-IMM instruction that is no shift (R165 to R170). -/
def Row.opImm (funct3 : BitVec 3) (mk : Reg → Reg → BitVec 12 → Instr) (alu : AluOp) : Row :=
  { opcode := 0b0010011, funct3 := some funct3, bit30 := none, bit25 := none, canonical7 := none
    build := fun w => mk (rdOf w) (rs1Of w) (immIOf w)
    format := .i, op1 := .rs1, op2 := .imm, alu := alu, br := .none, mem := .none, width := .b, sign := .s
    writesRd := true, used1 := true, used2 := false }

/-- An OP-IMM shift (R108, R171 to R173): the amount is bits 24..20. -/
def Row.shift (funct3 : BitVec 3) (bit30 : Option Bool) (canonical7 : BitVec 7) (mk : Reg → Reg → BitVec 5 → Instr)
    (alu : AluOp) : Row :=
  { opcode := 0b0010011, funct3 := some funct3, bit30 := bit30, bit25 := none, canonical7 := some canonical7
    build := fun w => mk (rdOf w) (rs1Of w) (rs2Of w)
    format := .i, op1 := .rs1, op2 := .imm, alu := alu, br := .none, mem := .none, width := .b, sign := .s
    writesRd := true, used1 := true, used2 := false }

/-- An OP or M instruction (R174 to R183, R282 to R285, R302 to R305). -/
def Row.op (funct3 : BitVec 3) (bit30 bit25 : Bool) (canonical7 : BitVec 7) (mk : Reg → Reg → Reg → Instr)
    (alu : AluOp) : Row :=
  { opcode := 0b0110011, funct3 := some funct3, bit30 := some bit30, bit25 := some bit25
    canonical7 := some canonical7
    build := fun w => mk (rdOf w) (rs1Of w) (rs2Of w)
    format := .r, op1 := .rs1, op2 := .rs2, alu := alu, br := .none, mem := .none, width := .b, sign := .s
    writesRd := true, used1 := true, used2 := true }

/-- Rows 1 and 2 of R113: LUI and AUIPC. -/
def upperRows : List Row :=
  [Row.upper 0b0110111 .lui .zero,
   Row.upper 0b0010111 .auipc .pc]

/-- Rows 3 and 4 of R113: JAL and JALR. -/
def jumpRows : List Row :=
  [Row.jal,
   Row.jalr]

/-- Rows 5 to 10 of R113. -/
def branchRows : List Row :=
  [Row.branch 0b000 .beq .eq,
   Row.branch 0b001 .bne .ne,
   Row.branch 0b100 .blt .lt,
   Row.branch 0b101 .bge .ge,
   Row.branch 0b110 .bltu .ltu,
   Row.branch 0b111 .bgeu .geu]

/-- Rows 11 to 15 of R113. -/
def loadRows : List Row :=
  [Row.load 0b000 .lb .b .s,
   Row.load 0b001 .lh .h .s,
   Row.load 0b010 .lw .w .s,
   Row.load 0b100 .lbu .b .u,
   Row.load 0b101 .lhu .h .u]

/-- Rows 16 to 18 of R113. -/
def storeRows : List Row :=
  [Row.store 0b000 .sb .b,
   Row.store 0b001 .sh .h,
   Row.store 0b010 .sw .w]

/-- Rows 19 to 24 of R113. -/
def opImmRows : List Row :=
  [Row.opImm 0b000 .addi .add,
   Row.opImm 0b010 .slti .slt,
   Row.opImm 0b011 .sltiu .sltu,
   Row.opImm 0b100 .xori .xor,
   Row.opImm 0b110 .ori .or,
   Row.opImm 0b111 .andi .and]

/-- Rows 25 to 27 of R113. SLLI compares no bit 30. -/
def shiftRows : List Row :=
  [Row.shift 0b001 none 0b0000000 .slli .sll,
   Row.shift 0b101 (some false) 0b0000000 .srli .srl,
   Row.shift 0b101 (some true) 0b0100000 .srai .sra]

/-- Rows 28 to 37 of R113: bit 25 is 0. -/
def opRows : List Row :=
  [Row.op 0b000 false false 0b0000000 .add .add,
   Row.op 0b000 true false 0b0100000 .sub .sub,
   Row.op 0b001 false false 0b0000000 .sll .sll,
   Row.op 0b010 false false 0b0000000 .slt .slt,
   Row.op 0b011 false false 0b0000000 .sltu .sltu,
   Row.op 0b100 false false 0b0000000 .xor .xor,
   Row.op 0b101 false false 0b0000000 .srl .srl,
   Row.op 0b101 true false 0b0100000 .sra .sra,
   Row.op 0b110 false false 0b0000000 .or .or,
   Row.op 0b111 false false 0b0000000 .and .and]

/-- Rows 38 to 45 of R113: bit 25 is 1. -/
def mulDivRows : List Row :=
  [Row.op 0b000 false true 0b0000001 .mul .mul,
   Row.op 0b001 false true 0b0000001 .mulh .mulh,
   Row.op 0b010 false true 0b0000001 .mulhsu .mulhsu,
   Row.op 0b011 false true 0b0000001 .mulhu .mulhu,
   Row.op 0b100 false true 0b0000001 .div .div,
   Row.op 0b101 false true 0b0000001 .divu .divu,
   Row.op 0b110 false true 0b0000001 .rem .rem,
   Row.op 0b111 false true 0b0000001 .remu .remu]

/-- The control table of R113, its 45 rows in order. -/
def controlTable : List Row :=
  upperRows ++ jumpRows ++ branchRows ++ loadRows ++ storeRows ++ opImmRows ++ shiftRows ++ opRows ++ mulDivRows

/-- The row a word matches. No word matches two (R114), so the OR of R109 over the matching rows is this row, or the
all-zero point where there is none. -/
def rowOf (w : Word) : Option Row :=
  controlTable.find? (fun r => r.hits w)

/-! ### The decoder -/

/-- ECALL (R111, R330). -/
def haltEcall : Word := 0x00000073

/-- EBREAK (R111, R331). -/
def haltEbreak : Word := 0x00100073

/-- The reserved halt word (R111, R332). -/
def haltReserved : Word := 0xFE000FA3

/-- The canonical NOP, ADDI x0, x0, 0 (R110, R334). -/
def nopWord : Word := 0x00000013

/-- Halt detection: exactly three words (R111). -/
def isHaltWord (w : Word) : Bool :=
  w == haltEcall || w == haltEbreak || w == haltReserved

/-- What a word decodes to at the sequential level (R117). -/
inductive Decoded where
  | instr (i : Instr)
  /-- No row matches: the all-zero control point, which executes as a no-op (R139, R337). -/
  | noRow (w : Word)
deriving DecidableEq, Repr

/-- The decoder (R109 to R117). The exact words come first: the zero word (R110), the canonical NOP (R334), the three halt
words, which take precedence over the SB row that 0xFE000FA3 also matches (R111). -/
def decode (w : Word) : Decoded :=
  if w = 0x00000000 then .instr .zeroWord
  else if w = nopWord then .instr .nop
  else if w = haltEcall then .instr .ecall
  else if w = haltEbreak then .instr .ebreak
  else if w = haltReserved then .instr .haltSb
  else match rowOf w with
    | some r => .instr (r.build w)
    | none => .noRow w

/-- Whether a word is a canonical encoding of the row it matches (R115). A word with no row and an exact word alias
nothing. -/
def isCanonical (w : Word) : Bool :=
  isHaltWord w ||
    match rowOf w with
    | some r => keyMatches r.canonical7 (funct7Of w)
    | none => true

/-- The control of a row for a word that matches it (R113, R133, R134). `predicted_next_pc` is not decoded (R138). -/
def Row.control (r : Row) (w : Word) : DecodedControl :=
  { ctrl :=
      { aluOp := r.alu, op1Sel := r.op1, op2Sel := r.op2, branchKind := r.br, predictedNextPc := 0
        memOp := r.mem, memWidth := r.width, memSign := r.sign
        destReg := if r.writesRd then rdOf w else 0, haltFlag := false }
    imm := immOf r.format w, rs1 := rs1Of w, rs2 := rs2Of w, used1 := r.used1, used2 := r.used2 }

/-- The all-zero control point with both used flags 0 (R139). No format selects its immediate: 0, which nothing reads (DESIGN
CHOICE, log entry 8). -/
def DecodedControl.inert (w : Word) : DecodedControl :=
  { ctrl := ControlPacket.inert, imm := 0, rs1 := rs1Of w, rs2 := rs2Of w, used1 := false, used2 := false }

/-- The halt control point (R111), with the immediate of the inert one (log entry 8). The ALU fields are those of the all-zero
control point: for ECALL and EBREAK because no row matches (R109), for 0xFE000FA3 by DESIGN CHOICE (log entry 8), since R111
and D3 list none for it. -/
def DecodedControl.halt (w : Word) : DecodedControl :=
  { DecodedControl.inert w with ctrl := { ControlPacket.inert with haltFlag := true } }

/-- Before matching, the decoder replaces the zero word with the canonical NOP (R110). -/
def replaceZero (w : Word) : Word :=
  if w = 0x00000000 then nopWord else w

/-- The decoder of the pipeline: what ID emits for a word (R109 to R112, R394). -/
def decodeControl (word : Word) : DecodedControl :=
  let w := replaceZero word
  if isHaltWord w then DecodedControl.halt w
  else match rowOf w with
    | some r => r.control w
    | none => DecodedControl.inert w

/-! ### The encoder (R102) -/

def encR (funct7 : BitVec 7) (rs2 rs1 : Reg) (funct3 : BitVec 3) (rd : Reg) (opcode : BitVec 7) : Word :=
  funct7 ++ rs2 ++ rs1 ++ funct3 ++ rd ++ opcode

def encI (imm : BitVec 12) (rs1 : Reg) (funct3 : BitVec 3) (rd : Reg) (opcode : BitVec 7) : Word :=
  imm ++ rs1 ++ funct3 ++ rd ++ opcode

def encS (imm : BitVec 12) (rs2 rs1 : Reg) (funct3 : BitVec 3) (opcode : BitVec 7) : Word :=
  imm.extractLsb' 5 7 ++ rs2 ++ rs1 ++ funct3 ++ imm.extractLsb' 0 5 ++ opcode

def encB (offset : BitVec 13) (rs2 rs1 : Reg) (funct3 : BitVec 3) (opcode : BitVec 7) : Word :=
  offset.extractLsb' 12 1 ++ offset.extractLsb' 5 6 ++ rs2 ++ rs1 ++ funct3 ++ offset.extractLsb' 1 4 ++
    offset.extractLsb' 11 1 ++ opcode

def encU (imm : BitVec 20) (rd : Reg) (opcode : BitVec 7) : Word :=
  imm ++ rd ++ opcode

def encJ (offset : BitVec 21) (rd : Reg) (opcode : BitVec 7) : Word :=
  offset.extractLsb' 20 1 ++ offset.extractLsb' 1 10 ++ offset.extractLsb' 11 1 ++ offset.extractLsb' 12 8 ++ rd ++
    opcode

/-- The word of an instruction (R102 to R113). -/
def encode : Instr → Word
  | .lui rd imm => encU imm rd 0b0110111
  | .auipc rd imm => encU imm rd 0b0010111
  | .jal rd offset => encJ offset rd 0b1101111
  | .jalr rd rs1 imm => encI imm rs1 0b000 rd 0b1100111
  | .beq rs1 rs2 offset => encB offset rs2 rs1 0b000 0b1100011
  | .bne rs1 rs2 offset => encB offset rs2 rs1 0b001 0b1100011
  | .blt rs1 rs2 offset => encB offset rs2 rs1 0b100 0b1100011
  | .bge rs1 rs2 offset => encB offset rs2 rs1 0b101 0b1100011
  | .bltu rs1 rs2 offset => encB offset rs2 rs1 0b110 0b1100011
  | .bgeu rs1 rs2 offset => encB offset rs2 rs1 0b111 0b1100011
  | .lb rd rs1 imm => encI imm rs1 0b000 rd 0b0000011
  | .lh rd rs1 imm => encI imm rs1 0b001 rd 0b0000011
  | .lw rd rs1 imm => encI imm rs1 0b010 rd 0b0000011
  | .lbu rd rs1 imm => encI imm rs1 0b100 rd 0b0000011
  | .lhu rd rs1 imm => encI imm rs1 0b101 rd 0b0000011
  | .sb rs2 rs1 imm => encS imm rs2 rs1 0b000 0b0100011
  | .sh rs2 rs1 imm => encS imm rs2 rs1 0b001 0b0100011
  | .sw rs2 rs1 imm => encS imm rs2 rs1 0b010 0b0100011
  | .addi rd rs1 imm => encI imm rs1 0b000 rd 0b0010011
  | .slti rd rs1 imm => encI imm rs1 0b010 rd 0b0010011
  | .sltiu rd rs1 imm => encI imm rs1 0b011 rd 0b0010011
  | .xori rd rs1 imm => encI imm rs1 0b100 rd 0b0010011
  | .ori rd rs1 imm => encI imm rs1 0b110 rd 0b0010011
  | .andi rd rs1 imm => encI imm rs1 0b111 rd 0b0010011
  | .slli rd rs1 shamt => encR 0b0000000 shamt rs1 0b001 rd 0b0010011
  | .srli rd rs1 shamt => encR 0b0000000 shamt rs1 0b101 rd 0b0010011
  | .srai rd rs1 shamt => encR 0b0100000 shamt rs1 0b101 rd 0b0010011
  | .add rd rs1 rs2 => encR 0b0000000 rs2 rs1 0b000 rd 0b0110011
  | .sub rd rs1 rs2 => encR 0b0100000 rs2 rs1 0b000 rd 0b0110011
  | .sll rd rs1 rs2 => encR 0b0000000 rs2 rs1 0b001 rd 0b0110011
  | .slt rd rs1 rs2 => encR 0b0000000 rs2 rs1 0b010 rd 0b0110011
  | .sltu rd rs1 rs2 => encR 0b0000000 rs2 rs1 0b011 rd 0b0110011
  | .xor rd rs1 rs2 => encR 0b0000000 rs2 rs1 0b100 rd 0b0110011
  | .srl rd rs1 rs2 => encR 0b0000000 rs2 rs1 0b101 rd 0b0110011
  | .sra rd rs1 rs2 => encR 0b0100000 rs2 rs1 0b101 rd 0b0110011
  | .or rd rs1 rs2 => encR 0b0000000 rs2 rs1 0b110 rd 0b0110011
  | .and rd rs1 rs2 => encR 0b0000000 rs2 rs1 0b111 rd 0b0110011
  | .mul rd rs1 rs2 => encR 0b0000001 rs2 rs1 0b000 rd 0b0110011
  | .mulh rd rs1 rs2 => encR 0b0000001 rs2 rs1 0b001 rd 0b0110011
  | .mulhsu rd rs1 rs2 => encR 0b0000001 rs2 rs1 0b010 rd 0b0110011
  | .mulhu rd rs1 rs2 => encR 0b0000001 rs2 rs1 0b011 rd 0b0110011
  | .div rd rs1 rs2 => encR 0b0000001 rs2 rs1 0b100 rd 0b0110011
  | .divu rd rs1 rs2 => encR 0b0000001 rs2 rs1 0b101 rd 0b0110011
  | .rem rd rs1 rs2 => encR 0b0000001 rs2 rs1 0b110 rd 0b0110011
  | .remu rd rs1 rs2 => encR 0b0000001 rs2 rs1 0b111 rd 0b0110011
  | .ecall => haltEcall
  | .ebreak => haltEbreak
  | .haltSb => haltReserved
  | .nop => nopWord
  | .zeroWord => 0x00000000

/-! ### Bytes -/

/-- An instruction's four bytes, the first at the lowest address (R73). -/
def bytesOfWord (w : Word) : List Byte :=
  [w.extractLsb' 0 8, w.extractLsb' 8 8, w.extractLsb' 16 8, w.extractLsb' 24 8]

/-- The word of four bytes, the first the least significant (R73). -/
def wordOfBytes (b0 b1 b2 b3 : Byte) : Word :=
  b3 ++ b2 ++ b1 ++ b0

/-- Decoding a list of bytes: an instruction is four bytes (R100), and what follows them is left over. Fewer than four bytes
hold no instruction. -/
def decodeBytes : List Byte → Option (Decoded × List Byte)
  | b0 :: b1 :: b2 :: b3 :: rest => some (decode (wordOfBytes b0 b1 b2 b3), rest)
  | _ => none

/-- The instruction the decoder reads from a word of the opcode table's numbering, whose bits from `nbits` on are 0. -/
def decodeTableWord (nbits w : Nat) : Option Instr :=
  match decodeBytes (bytesOfWord (BitVec.ofNat 32 (w % 2 ^ nbits))) with
  | some (.instr i, _) => some i
  | _ => none

end Sys2Proof
end

