-- ==== Sys2Proof/Config.lean ====
section
/-! DEFINITION. The parameters of R8 that an implementation fixes, as plain data held in the state (so that a statement
about every state holds for every value of them, R9), and the values the spec leaves unspecified, as opaque constants. -/

namespace Sys2Proof

/-- `PREDICTOR` (R8, R226 to R229). -/
inductive PredictorKind where
  | twoBit | tournament | tournamentGshare
deriving DecidableEq, Repr

/-- `DIV_IMPL` (R8, R307). -/
inductive DivImpl where
  | restoring | srt16
deriving DecidableEq, Repr

/-- `RF_INIT` (R8, R35): whether x1..x31 hold no value or 0 at reset. -/
inductive RfInit where
  | undefined | zero
deriving DecidableEq, Repr

/-- The parameters of R8 that the machine reads while it runs. A size that R8 calls a power of two is given by its
logarithm. -/
structure Config where
  /-- `IMEM_DEPTH = 2 ^ imemBits` words (R8, R77). -/
  imemBits : Nat
  /-- `DMEM_DEPTH = 2 ^ dmemBits` words (R8, R77). -/
  dmemBits : Nat
  /-- `BTB_ENTRIES = 2 ^ btbBits` (R8, R220). -/
  btbBits : Nat
  /-- `CTR_ENTRIES = 2 ^ ctrBits` (R8, R226). -/
  ctrBits : Nat
  /-- `GHR_BITS` (R8, R227). -/
  ghrBits : Nat
  /-- `PREDICTOR` (R8). -/
  predictor : PredictorKind
  /-- `DIV_IMPL` (R8, R307). -/
  divImpl : DivImpl
  /-- `STRICT_DECODE` (R8, R115). -/
  strictDecode : Bool
deriving DecidableEq, Repr

/-- The defaults of R8. The two memory depths are OPEN there. Instruction memory: 2^29 words, the most with which no PC
reaches the top of the address space without a fault (R40). Data memory: 2^30 words, every 32-bit byte address.
DESIGN CHOICE, log entry 1. -/
def Config.default : Config :=
  { imemBits := 29, dmemBits := 30, btbBits := 6, ctrBits := 6, ghrBits := 6,
    predictor := .twoBit, divImpl := .restoring, strictDecode := false }

/-- `IMEM_DEPTH` in words. -/
def Config.imemDepth (c : Config) : Nat := 2 ^ c.imemBits

/-- `DMEM_DEPTH` in words. -/
def Config.dmemDepth (c : Config) : Nat := 2 ^ c.dmemBits

/-- `RESET_PC` (R8, R45). -/
def Config.resetPc : Word := 0

/-- `DIV_ITER` (R8, R307). -/
def DivImpl.iterations : DivImpl → Nat
  | .restoring => 32
  | .srt16 => 8

/-- What a data-memory byte holds at the end of a run when an instruction younger than the last one may have stored to it
(R88, 93_implementation_defined.md row 11 "any value"). FREE VALUE, log entry 6. -/
opaque Config.freeByte : Nat → BitVec 8

/-- What the halt log prints for a register that holds no value (R356, 93_implementation_defined.md row 12 "any value").
FREE VALUE, log entry 7. -/
opaque Config.freeWord : Nat → BitVec 32

end Sys2Proof
end

