-- ==== Sys2Proof/Machine/Table.lean ====
section
/-! DEFINITION. Sparse tables keyed by natural numbers in one canonical form: keys strictly rising, no entry equal to what
an unlisted key reads as. Memory is a table of bytes (R70, R73), the BTB and the predictor's counters are tables too. -/

namespace Sys2Proof.Machine

/-- A sparse table. -/
abbrev Table (α : Type) := List (Nat × α)

/-- The entry at key `a`; an unlisted key reads as `d`. -/
def Table.get {α : Type} (d : α) : Table α → Nat → α
  | [], _ => d
  | (k, v) :: rest, a => if k = a then v else Table.get d rest a

/-- The table without key `a`. -/
def Table.erase {α : Type} : Table α → Nat → Table α
  | [], _ => []
  | (k, v) :: rest, a => if k = a then Table.erase rest a else (k, v) :: Table.erase rest a

/-- The table with an entry for `a` put in front of the first larger key. -/
def Table.insert {α : Type} : Table α → Nat → α → Table α
  | [], a, x => [(a, x)]
  | (k, v) :: rest, a, x => if a < k then (a, x) :: (k, v) :: rest else (k, v) :: Table.insert rest a x

/-- Writing an entry. Writing what an unlisted key reads as removes the entry, so that equal tables are equal data. -/
def Table.set {α : Type} [DecidableEq α] (d : α) (t : Table α) (a : Nat) (x : α) : Table α :=
  if x = d then t.erase a else (t.erase a).insert a x

/-- Every key is at least `lo`, keys rise strictly, and no entry is the default. -/
def Table.wfFrom {α : Type} [DecidableEq α] (d : α) : Nat → Table α → Bool
  | _, [] => true
  | lo, (k, v) :: rest => decide (lo ≤ k) && decide (v ≠ d) && Table.wfFrom d (k + 1) rest

/-- The canonical form. -/
def Table.wf {α : Type} [DecidableEq α] (d : α) (t : Table α) : Bool :=
  Table.wfFrom d 0 t

/-- Every listed key is below `n`. -/
def Table.below {α : Type} (n : Nat) (t : Table α) : Bool :=
  t.all (fun e => decide (e.1 < n))

end Sys2Proof.Machine
end

