-- ==== Sys2Proof/Machine/State.lean ====
section
/-! DEFINITION. The machine's state (10_state.md): the architectural state of its section 1 and every latch, table and unit
register of its section 2, as plain data, with the reset values of R60. -/

namespace Sys2Proof.Machine

/-- The model fault reasons of R352, each with the value that rule records. Every one is a case the source leaves
unimplemented: the model stops where the chip would go on with some value, which is safe (no false claim can be proved
from a stopped run). -/
inductive Fault where
  /-- A used source register that holds no value: R35 and R352 end the run so, under `RF_INIT = UNDEFINED`. Raised by every
  instruction that reads x1..x31, only in states where one of them holds no value; never from `State.reset`. Safe. -/
  | uninitialisedRead (pc : Word) (r : Reg)
  /-- A taken transfer to a target with `target[1:0] ≠ 0` (R205). Raised by JAL, JALR and the branches. Safe. -/
  | misalignedFetch (pc target : Word)
  /-- A load or store with a misaligned effective address (R256). Safe. -/
  | misalignedAccess (pc address : Word)
  /-- A fetch at or beyond `IMEM_DEPTH` (R77). Raised by the fetch. Safe. -/
  | fetchOutOfRange (pc : Word)
  /-- A load or store at or beyond `DMEM_DEPTH` (R256). Safe. -/
  | dataOutOfRange (pc address : Word)
  /-- An aliasing word under `STRICT_DECODE = true` (R115). Raised by the decoder. Safe. -/
  | nonCanonicalEncoding (pc word : Word)
  /-- A control transfer whose next PC is 0, at the sequential level only (R206). Safe. -/
  | redirectToZero (pc : Word)
deriving DecidableEq, Repr

/-- What the model does not start or does not step. -/
inductive Refusal where
  /-- An instruction without a meaning yet. Raised by no arm of this model. Safe. -/
  | notModelled (mnemonic : String)
  /-- A step of a run that a halt has ended (R369: the definition does not say what the hardware does after it). Raised by
  both steps. Safe. -/
  | runEnded
  /-- A memory image with more lines than the memory has words (R71, D35). Raised by `State.boot`. Safe. -/
  | imageTooLong
  /-- A memory image line that is not 8 lower-case hex digits (R71). Raised by `State.boot`. Safe. -/
  | imageMalformed
deriving DecidableEq, Repr

/-- The run status of R59. -/
inductive RunStatus where
  | running
  | halted
  | faulted (f : Fault)
deriving DecidableEq, Repr

/-- A memory as bytes by address (R70, R73). An unlisted byte is 0: "unpopulated addresses read as 0" (R71, R60). -/
abbrev Memory := List Host.Cell

/-- A BTB entry (R54). -/
structure BtbEntry where
  valid : Bool
  tag : Word
  target : Word
deriving DecidableEq, Repr

/-- The BTB entry after reset (R54). -/
def BtbEntry.invalid : BtbEntry :=
  { valid := false, tag := 0, target := 0 }

/-- A 2-bit saturating counter, 0..3 (R55, R225). -/
abbrev Counter := Fin 4

/-- The BTB and the direction-predictor state (R54, R55): the tables of all three predictor kinds. -/
structure Predictor where
  btb : Table BtbEntry
  ctr : Table Counter
  localTable : Table Counter
  globalTable : Table Counter
  chooser : Table Counter
  /-- The global history, a number below `2 ^ GHR_BITS`. -/
  ghr : Nat
deriving DecidableEq, Repr

/-- R60: every entry invalid, every counter 0, `GHR = 0`. -/
def Predictor.reset : Predictor :=
  { btb := [], ctr := [], localTable := [], globalTable := [], chooser := [], ghr := 0 }

/-- The multiplier's state (R56). -/
structure Multiplier where
  busy : Bool
  stage : Fin 4
  a : Word
  b : Word
  aSigned : Bool
  bSigned : Bool
  wantHigh : Bool
  product : BitVec 64
  ready : Bool
deriving DecidableEq, Repr

/-- R56, R60. -/
def Multiplier.reset : Multiplier :=
  { busy := false, stage := 0, a := 0, b := 0, aSigned := false, bSigned := false, wantHigh := false, product := 0,
    ready := false }

/-- The divider's six states (R57, R308): IDLE, PRE, WORKING, END, DIV_1, ERROR. -/
inductive DivState where
  | idle | pre | working | ended | div1 | error
deriving DecidableEq, Repr

/-- The divider's state (R57). `rem` has the 36 bits of `SRT16`; `RESTORING` uses the low 33. -/
structure Divider where
  state : DivState
  dividend : Word
  divisor : Word
  isSigned : Bool
  wantRem : Bool
  signN : Bool
  signD : Bool
  count : Nat
  rem : BitVec 36
  quot : Word
  result : Word
  /-- The observability error flag (R58). -/
  error : Bool
deriving DecidableEq, Repr

/-- R57, R60. -/
def Divider.reset : Divider :=
  { state := .idle, dividend := 0, divisor := 0, isSigned := false, wantRem := false, signN := false, signD := false,
    count := 0, rem := 0, quot := 0, result := 0, error := false }

/-- A forwarding selector, one of four sources (R48, R406). -/
inductive FwdSel where
  | ex | mem | wb | rf
deriving DecidableEq, Repr

/-- A fetched word with its PC and predicted next PC (R46, R47), and the fault IF marked it with (R354, R400). -/
structure FetchPacket where
  inst : Word
  pc : Word
  pred : Word
  fault : Option Fault
deriving DecidableEq, Repr

/-- R46, R47, R60. -/
def FetchPacket.reset : FetchPacket :=
  { inst := 0, pc := 0, pred := 0, fault := none }

/-- The ID/EX latch `de` (R48), with the fault mark of R354. -/
structure IdEx where
  ctrl : ControlPacket
  pc : Word
  imm : Word
  rs1Val : Word
  rs2Val : Word
  fwd1 : FwdSel
  fwd2 : FwdSel
  fault : Option Fault
deriving DecidableEq, Repr

/-- A bubble in ID/EX (R392). -/
def IdEx.bubble : IdEx :=
  { ctrl :=
      { aluOp := .none, op1Sel := .zero, op2Sel := .zero, branchKind := .none, predictedNextPc := 0,
        memOp := .none, memWidth := .b, memSign := .s, destReg := 0, haltFlag := false }
    pc := 0, imm := 0, rs1Val := 0, rs2Val := 0, fwd1 := .rf, fwd2 := .rf, fault := none }

/-- The EX/MEM latch `em` (R49), with the PC that every latch carries (R36; DEDUCED, log entry 17) and the fault mark of
R354. -/
structure ExMem where
  pc : Word
  memOp : MemOp
  memWidth : MemWidth
  memSign : MemSign
  destReg : Reg
  haltFlag : Bool
  result : Word
  fault : Option Fault
deriving DecidableEq, Repr

/-- A bubble in EX/MEM (R392). -/
def ExMem.bubble : ExMem :=
  { pc := 0, memOp := .none, memWidth := .b, memSign := .s, destReg := 0, haltFlag := false, result := 0, fault := none }

/-- The MEM/WB latch `mw` (R51), with the PC that every latch carries (R36; DEDUCED, log entry 17) and the fault mark of
R354. -/
structure MemWb where
  pc : Word
  destReg : Reg
  value : Word
  haltFlag : Bool
  fault : Option Fault
deriving DecidableEq, Repr

/-- R51, R60. Its PC is 0 as in a bubble (log entry 17). -/
def MemWb.reset : MemWb :=
  { pc := 0, destReg := 0, value := 0, haltFlag := false, fault := none }

/-- The pipeline's registers (R45 to R53), but for `pc_reg`, which is the state's `pc`. -/
structure Pipeline where
  /-- `prev_pc` (R45). -/
  prevPc : Word
  /-- `if_inst`, `if_pc`, `if_pred` (R46). -/
  ifid : FetchPacket
  /-- `stall_q` (R47). -/
  stallQ : Bool
  /-- `id_inst_q`, `id_pc_q`, `id_pred_q` (R47). -/
  saved : FetchPacket
  /-- `de` (R48). -/
  de : IdEx
  /-- `em` (R49). -/
  em : ExMem
  /-- `dmem_out` (R50). -/
  dmemOut : Word
  /-- `mw` (R51). -/
  mw : MemWb
  /-- `byp_ex` (R52). -/
  bypEx : Word
  /-- `byp_mem` (R52). -/
  bypMem : Word
  /-- `byp_wb` (R52). -/
  bypWb : Word
  /-- `bt_reg` (R53). -/
  btReg : Word
deriving DecidableEq, Repr

/-- R60. -/
def Pipeline.reset : Pipeline :=
  { prevPc := Config.resetPc, ifid := FetchPacket.reset, stallQ := false, saved := FetchPacket.reset,
    de := IdEx.bubble, em := ExMem.bubble, dmemOut := 0, mw := MemWb.reset, bypEx := 0, bypMem := 0, bypWb := 0,
    btReg := 0 }

/-- The machine's state. The sequential level reads and writes `regs`, `hasValue`, `pc`, the memories, `run`, the predictor
and the divider's error flag; the cycle level reads and writes all of it. -/
structure State where
  /-- The parameters of R8. No step changes them. -/
  cfg : Config
  /-- The register file (R30). Entry 0 is never read (R31). -/
  regs : Vector Word 32
  /-- Whether a register holds a value (R35): with `RF_INIT = UNDEFINED` x1..x31 hold none until written. -/
  hasValue : Vector Bool 32
  /-- The program counter (R36) and, at the cycle level, IF's `pc_reg` (R45). -/
  pc : Word
  /-- Instruction memory (R70). -/
  imem : Memory
  /-- Data memory (R70). -/
  dmem : Memory
  /-- The run status (R59). -/
  run : RunStatus
  /-- BTB and direction predictor (R54, R55). -/
  predictor : Predictor
  /-- The multiplier (R56). -/
  mul : Multiplier
  /-- The divider (R57). -/
  div : Divider
  /-- The pipeline's registers (R45 to R53). -/
  pipe : Pipeline
  /-- How many clock cycles have run since reset (R355: a cycle-level model's observation). -/
  cycles : Nat
  /-- The register values the halt log printed, x0 first; empty before the run ends (R356, R385). -/
  haltLog : List Word
  /-- How many free values have been taken. THE MODEL'S OWN FIELD, log entries 6 and 7. -/
  freeCount : Nat
deriving DecidableEq, Repr

/-- The reset state for given parameters and memory images (R60, R380). Under `RF_INIT = UNDEFINED` the entries of `regs`
are a filler of 0 that stands for no value: `hasValue` is false, and nothing observable reads them (DESIGN CHOICE, log entry
8). -/
def State.resetWith (cfg : Config) (rf : RfInit) (imem dmem : Memory) : State :=
  { cfg := cfg
    regs := Vector.replicate 32 0
    hasValue := Vector.replicate 32 (rf == .zero)
    pc := Config.resetPc
    imem := imem
    dmem := dmem
    run := .running
    predictor := Predictor.reset
    mul := Multiplier.reset
    div := Divider.reset
    pipe := Pipeline.reset
    cycles := 0
    haltLog := []
    freeCount := 0 }

/-- The machine right after reset (R60, R380), with the default parameters and empty images: both images are the program's
input (R8, R368), and none is invented here. The registers are 0 (`RF_INIT = ZERO`): DESIGN CHOICE, log entry 2. -/
def State.reset : State :=
  State.resetWith Config.default .zero [] []

end Sys2Proof.Machine
end

