-- ==== Sys2Proof/Machine/Flags.lean ====
section
/-! DEFINITION. Conditions. The core has no flags or condition codes (R38): a branch compares two registers, SLT and SLTU
give 0 or 1, and the one internal flag is the divider's `error` (R58). -/

namespace Sys2Proof.Machine

/-- `<s` (R11). -/
def lessSigned (a b : Word) : Bool := decide (a.toInt < b.toInt)

/-- `<u` (R11). -/
def lessUnsigned (a b : Word) : Bool := decide (a.toNat < b.toNat)

/-- A comparison's result as a word: 1 or 0 (R161). -/
def boolWord (c : Bool) : Word := if c then 1 else 0

/-- The taken condition (R201, R135). -/
def branchTaken (kind : BranchKind) (a b : Word) : Bool :=
  match kind with
  | .none => false
  | .eq => a == b
  | .ne => a != b
  | .lt => lessSigned a b
  | .ge => !lessSigned a b
  | .ltu => lessUnsigned a b
  | .geu => !lessUnsigned a b
  | .jal => true
  | .jalr => true

/-- -2^31. -/
def intMin : Word := 0x80000000

/-- The signed-overflow case of a divide (R300, R310). -/
def divOverflow (isSigned : Bool) (n d : Word) : Bool :=
  isSigned && n == intMin && d == 0xFFFFFFFF

/-- The divider's `error` flag after a divide: set by a zero divisor (R309) and by signed overflow (R310). -/
def divError (isSigned : Bool) (n d : Word) : Bool :=
  d == 0 || divOverflow isSigned n d

end Sys2Proof.Machine
end

