-- ==== Sys2Proof/Machine/Operands.lean ====
section
/-! DEFINITION. Operand forms: the ALU's inputs (R160, R388), shift amounts (R108), the forwarded operand (R408), branch
targets (R202) and effective addresses (R250). -/

namespace Sys2Proof.Machine

/-- `OP1(op1_sel)` (R160). -/
def operand1 (sel : Op1Sel) (rs1v pc : Word) : Word :=
  match sel with
  | .zero => 0
  | .rs1 => rs1v
  | .pc => pc

/-- `OP2(op2_sel)` (R160). -/
def operand2 (sel : Op2Sel) (rs2v imm : Word) : Word :=
  match sel with
  | .zero => 0
  | .rs2 => rs2v
  | .imm => imm
  | .four => 4

/-- The operand of an OP-IMM shift: only its bits 4..0 reach the shifter (R108). -/
def shamtOperand (shamt : BitVec 5) : Word := shamt.setWidth 32

/-- A shift amount, `b[4:0]` (R161). -/
def shiftAmount (b : Word) : Nat := (b.extractLsb' 0 5).toNat

/-- The effective address of a load or store (R250). -/
def effectiveAddress (base imm : Word) : Word := base + imm

/-- A branch or JAL target (R202). -/
def pcTarget (pc imm : Word) : Word := pc + imm

/-- A JALR target: bit 0 of the sum is cleared (R202, R208). -/
def jalrTarget (base imm : Word) : Word := (base + imm) &&& 0xFFFFFFFE

/-- The target the branch adder gives for a kind (R200, R202). -/
def transferTarget (kind : BranchKind) (pc rs1v imm : Word) : Word :=
  match kind with
  | .jalr => jalrTarget rs1v imm
  | _ => pcTarget pc imm

/-- `next` (R203). -/
def resolvedNext (taken : Bool) (pc target : Word) : Word :=
  if taken then target else pc + 4

/-- Whether a PC is no multiple of 4 (R39, R205). -/
def misalignedPc (target : Word) : Bool := target.toNat % 4 != 0

/-- Whether `a[31:2]` is a word of a memory of `depth` words (R77). -/
def inDepth (depth : Nat) (a : Word) : Bool := decide (a.toNat / 4 < depth)

/-- The bytes an access moves (R78, R136). -/
def widthBytes (width : MemWidth) : Nat :=
  match width with
  | .b => 1
  | .h => 2
  | .w => 4

/-- Whether an access of a width needs another alignment (R76). -/
def misalignedFor (width : MemWidth) (address : Word) : Bool := address.toNat % widthBytes width != 0

/-- Extension of a loaded byte or halfword (R252). -/
def extendTo {n : Nat} (sign : MemSign) (v : BitVec n) : Word :=
  match sign with
  | .s => v.signExtend 32
  | .u => v.setWidth 32

/-- Load alignment and extension: the lanes of a memory word that an address and width name, extended (R74, R252). -/
def loadExtract (word address : Word) (width : MemWidth) (sign : MemSign) : Word :=
  match width with
  | .b => extendTo sign (word.extractLsb' (8 * (address.toNat % 4)) 8)
  | .h => extendTo sign (word.extractLsb' (16 * (address.toNat / 2 % 2)) 16)
  | .w => word

/-- The bytes a store of a width writes, the lowest address first (R73, R75, R254). -/
def storeLanes (width : MemWidth) (v : Word) : List Byte :=
  match width with
  | .b => [v.extractLsb' 0 8]
  | .h => [v.extractLsb' 0 8, v.extractLsb' 8 8]
  | .w => [v.extractLsb' 0 8, v.extractLsb' 8 8, v.extractLsb' 16 8, v.extractLsb' 24 8]

/-- Operand resolution in EX (R408). -/
def forwarded (p : Pipeline) (sel : FwdSel) (v : Word) : Word :=
  match sel with
  | .ex => p.bypEx
  | .mem => p.bypMem
  | .wb => p.bypWb
  | .rf => v

end Sys2Proof.Machine
end

