-- ==== Sys2Proof/Machine/Ops.lean ====
section
/-! DEFINITION. The named operations over registers and memory that the instructions share (R12), and the end of a run.
The core takes no exception and returns from none (R350, R359, R360): what stands in its place is the halt (R355) and the
model faults (R352, R353). -/

namespace Sys2Proof.Machine

/-! ### Registers (R30 to R35) -/

/-- `x[r]`: x0 reads as 0 (R31). -/
def State.reg (s : State) (r : Reg) : Word :=
  if r = 0 then 0 else s.regs[r.toNat]'(by have := r.isLt; omega)

/-- `x[r] <- v`: a write to x0 is ignored (R31). -/
def State.writeReg (s : State) (r : Reg) (v : Word) : State :=
  if r = 0 then s
  else
    { s with
      regs := s.regs.set r.toNat v (by have := r.isLt; omega)
      hasValue := s.hasValue.set r.toNat true (by have := r.isLt; omega) }

/-- Whether a register holds a value (R35). x0 always does. -/
def State.holds (s : State) (r : Reg) : Bool :=
  if r = 0 then true else s.hasValue[r.toNat]'(by have := r.isLt; omega)

/-- The fault of reading a used source (R35, R352). -/
def State.readFault (s : State) (pc : Word) (r : Reg) : Option Fault :=
  if s.holds r then none else some (.uninitialisedRead pc r)

/-- The fault of reading two used sources: rs1 before rs2 (R357). -/
def State.readFault2 (s : State) (pc : Word) (r1 r2 : Reg) : Option Fault :=
  match s.readFault pc r1 with
  | some f => some f
  | none => s.readFault pc r2

/-- A fault check before an effect: the faulting instruction has none (R353). -/
def orFault (check : Option Fault) (o : Host.Outcome State Fault Refusal) : Host.Outcome State Fault Refusal :=
  match check with
  | some f => .fault f
  | none => o

/-! ### The program counter (R36, R37) -/

/-- The next PC of an instruction that is no control transfer (R37). -/
def State.advance (s : State) : State := { s with pc := s.pc + 4 }

/-- Writing back a result and going on to the next instruction (R33, R37). -/
def State.retire (s : State) (rd : Reg) (v : Word) : State := (s.writeReg rd v).advance

/-! ### Memory (R70 to R77) -/

/-- One byte of a memory (R73). -/
def Memory.byte (m : Memory) (a : Nat) : Byte := Table.get 0 m a

/-- Word `k` of a memory, little-endian (R73). -/
def Memory.word (m : Memory) (k : Nat) : Word :=
  m.byte (4 * k + 3) ++ m.byte (4 * k + 2) ++ m.byte (4 * k + 1) ++ m.byte (4 * k)

/-- Writing bytes at rising addresses (R75). -/
def Memory.storeBytes (m : Memory) (a : Nat) : List Byte → Memory
  | [] => m
  | v :: rest => Memory.storeBytes (Table.set 0 m a v) (a + 1) rest

/-- The canonical form of a memory. -/
def Memory.wf (m : Memory) : Bool := Table.wf 0 m

/-- `IMemRead(address)` and the word `DMEM[address[31:2]]` (R72, R74). -/
def Memory.wordAt (m : Memory) (address : Word) : Word := m.word (address.toNat / 4)

/-- `MemRead` with its extension (R74, R252). -/
def Memory.load (m : Memory) (address : Word) (width : MemWidth) (sign : MemSign) : Word :=
  loadExtract (m.wordAt address) address width sign

/-- `MemWrite` (R75). -/
def Memory.store (m : Memory) (address : Word) (width : MemWidth) (v : Word) : Memory :=
  m.storeBytes address.toNat (storeLanes width v)

/-- The fault of a data access: misaligned first, then out of range (R256, R357). -/
def accessFault (cfg : Config) (pc address : Word) (width : MemWidth) : Option Fault :=
  if misalignedFor width address then some (.misalignedAccess pc address)
  else if inDepth cfg.dmemDepth address then none
  else some (.dataOutOfRange pc address)

/-- The fault of a fetch (R77). -/
def fetchFault (cfg : Config) (pc : Word) : Option Fault :=
  if inDepth cfg.imemDepth pc then none else some (.fetchOutOfRange pc)

/-! ### The end of a run (R355, R356, R353) -/

/-- What the halt log prints for a register: its value, and a free value where it holds none (R356). -/
def State.logValue (s : State) (i : Nat) : Word :=
  let r := BitVec.ofNat 5 i
  if s.holds r then s.reg r else Config.freeWord (s.freeCount + i)

/-- The halt log's values, x0 to x31 (R356). -/
def State.dump (s : State) : List Word := (List.range 32).map s.logValue

/-- Bytes whose value is unspecified: each takes a free value of its own (R88, log entry 6). -/
def Memory.forget (m : Memory) (address free : Nat) : Nat → Memory
  | 0 => m
  | n + 1 => Memory.forget (Table.set 0 m address (Config.freeByte free)) (address + 1) (free + 1) n

/-- `Memory.forget` for each of some accesses, given as address and length. No access is longer than 4 bytes (R78). -/
def Memory.forgetAll (m : Memory) (free : Nat) : List (Nat × Nat) → Memory
  | [] => m
  | (address, n) :: rest => Memory.forgetAll (m.forget address free n) (free + 4) rest

/-- `halt`: the run ends with the halt log (R12, R333, R355). It writes no register, no memory and no PC; the bytes that the
accesses in `younger` address, those of instructions behind the halt, are unspecified (R88, R369). -/
def State.haltWith (s : State) (younger : List (Nat × Nat)) : State :=
  { s with
    run := .halted
    haltLog := s.dump
    dmem := s.dmem.forgetAll (s.freeCount + 32) younger
    freeCount := s.freeCount + 48 }

/-- How many bytes a store addresses: its width, and none for any other operation. -/
def storedBytes (op : MemOp) (width : MemWidth) : Nat :=
  match op with
  | .store => widthBytes width
  | _ => 0

/-- The state a run is left in by the outcome of a step: a fault changes nothing but the run status (R59, R353), data memory
included (DESIGN CHOICE, log entry 9). -/
def State.conclude (s : State) (o : Host.Outcome State Fault Refusal) : State :=
  match o with
  | .next t => t
  | .fault f => { s with run := .faulted f }
  | .refused _ => s

end Sys2Proof.Machine
end

