-- ==== Sys2Proof/Machine/Alu.lean ====
section
/-! DEFINITION. The ALU (R161) and the integer computational instructions (41_integer_computational.md). -/

namespace Sys2Proof.Machine

/-- The ALU functions (R161). The eight M values are routed to the multiplier and the divider (R131) and give no result
here. -/
def aluFn (op : AluOp) (a b : Word) : Word :=
  match op with
  | .none => 0
  | .add => a + b
  | .sub => a - b
  | .sll => a <<< shiftAmount b
  | .slt => boolWord (lessSigned a b)
  | .sltu => boolWord (lessUnsigned a b)
  | .xor => a ^^^ b
  | .srl => a >>> shiftAmount b
  | .sra => a.sshiftRight (shiftAmount b)
  | .or => a ||| b
  | .and => a &&& b
  | .mul | .mulh | .mulhsu | .mulhu | .div | .divu | .rem | .remu => 0

/-- An instruction of register and operand: `x[rd] <- op(x[rs1], b)` (R162, R165 to R173). -/
def State.aluImm (s : State) (op : AluOp) (rd rs1 : Reg) (b : Word) : Host.Outcome State Fault Refusal :=
  orFault (s.readFault s.pc rs1) (.next (s.retire rd (aluFn op (s.reg rs1) b)))

/-- An instruction of two registers: `x[rd] <- op(x[rs1], x[rs2])` (R162, R174 to R183). -/
def State.aluReg (s : State) (op : AluOp) (rd rs1 rs2 : Reg) : Host.Outcome State Fault Refusal :=
  orFault (s.readFault2 s.pc rs1 rs2) (.next (s.retire rd (aluFn op (s.reg rs1) (s.reg rs2))))

/-- LUI (R163): no source register is read. -/
def execLui (rd : Reg) (imm : BitVec 20) (s : State) : Host.Outcome State Fault Refusal :=
  .next (s.retire rd (aluFn .add 0 (upper20 imm)))

/-- AUIPC (R164): the sum with the instruction's own address. -/
def execAuipc (rd : Reg) (imm : BitVec 20) (s : State) : Host.Outcome State Fault Refusal :=
  .next (s.retire rd (aluFn .add s.pc (upper20 imm)))

/-- ADDI (R165). -/
def execAddi (rd rs1 : Reg) (imm : BitVec 12) (s : State) : Host.Outcome State Fault Refusal :=
  s.aluImm .add rd rs1 (sext12 imm)

/-- SLTI (R166). -/
def execSlti (rd rs1 : Reg) (imm : BitVec 12) (s : State) : Host.Outcome State Fault Refusal :=
  s.aluImm .slt rd rs1 (sext12 imm)

/-- SLTIU (R167). -/
def execSltiu (rd rs1 : Reg) (imm : BitVec 12) (s : State) : Host.Outcome State Fault Refusal :=
  s.aluImm .sltu rd rs1 (sext12 imm)

/-- XORI (R168). -/
def execXori (rd rs1 : Reg) (imm : BitVec 12) (s : State) : Host.Outcome State Fault Refusal :=
  s.aluImm .xor rd rs1 (sext12 imm)

/-- ORI (R169). -/
def execOri (rd rs1 : Reg) (imm : BitVec 12) (s : State) : Host.Outcome State Fault Refusal :=
  s.aluImm .or rd rs1 (sext12 imm)

/-- ANDI (R170). -/
def execAndi (rd rs1 : Reg) (imm : BitVec 12) (s : State) : Host.Outcome State Fault Refusal :=
  s.aluImm .and rd rs1 (sext12 imm)

/-- SLLI (R171). -/
def execSlli (rd rs1 : Reg) (shamt : BitVec 5) (s : State) : Host.Outcome State Fault Refusal :=
  s.aluImm .sll rd rs1 (shamtOperand shamt)

/-- SRLI (R172). -/
def execSrli (rd rs1 : Reg) (shamt : BitVec 5) (s : State) : Host.Outcome State Fault Refusal :=
  s.aluImm .srl rd rs1 (shamtOperand shamt)

/-- SRAI (R173). -/
def execSrai (rd rs1 : Reg) (shamt : BitVec 5) (s : State) : Host.Outcome State Fault Refusal :=
  s.aluImm .sra rd rs1 (shamtOperand shamt)

/-- ADD (R174). -/
def execAdd (rd rs1 rs2 : Reg) (s : State) : Host.Outcome State Fault Refusal :=
  s.aluReg .add rd rs1 rs2

/-- SUB (R175). -/
def execSub (rd rs1 rs2 : Reg) (s : State) : Host.Outcome State Fault Refusal :=
  s.aluReg .sub rd rs1 rs2

/-- SLL (R176). -/
def execSll (rd rs1 rs2 : Reg) (s : State) : Host.Outcome State Fault Refusal :=
  s.aluReg .sll rd rs1 rs2

/-- SLT (R177). -/
def execSlt (rd rs1 rs2 : Reg) (s : State) : Host.Outcome State Fault Refusal :=
  s.aluReg .slt rd rs1 rs2

/-- SLTU (R178). -/
def execSltu (rd rs1 rs2 : Reg) (s : State) : Host.Outcome State Fault Refusal :=
  s.aluReg .sltu rd rs1 rs2

/-- XOR (R179). -/
def execXor (rd rs1 rs2 : Reg) (s : State) : Host.Outcome State Fault Refusal :=
  s.aluReg .xor rd rs1 rs2

/-- SRL (R180). -/
def execSrl (rd rs1 rs2 : Reg) (s : State) : Host.Outcome State Fault Refusal :=
  s.aluReg .srl rd rs1 rs2

/-- SRA (R181). -/
def execSra (rd rs1 rs2 : Reg) (s : State) : Host.Outcome State Fault Refusal :=
  s.aluReg .sra rd rs1 rs2

/-- OR (R182). -/
def execOr (rd rs1 rs2 : Reg) (s : State) : Host.Outcome State Fault Refusal :=
  s.aluReg .or rd rs1 rs2

/-- AND (R183). -/
def execAnd (rd rs1 rs2 : Reg) (s : State) : Host.Outcome State Fault Refusal :=
  s.aluReg .and rd rs1 rs2

end Sys2Proof.Machine
end

