-- ==== Sys2Proof/Machine/Predictor.lean ====
section
/-! DEFINITION. The branch target buffer and the three direction predictors (42_control_transfer.md sections 4 to 6). -/

namespace Sys2Proof.Machine

/-- `btb_idx(p)` (R220): the PC bits above the word-alignment bits. -/
def btbIndex (cfg : Config) (p : Word) : Nat := p.toNat / 4 % 2 ^ cfg.btbBits

/-- `ci(p)` (R226). -/
def counterIndex (cfg : Config) (p : Word) : Nat := p.toNat / 4 % 2 ^ cfg.ctrBits

/-- The BTB entry of a PC (R221). -/
def Predictor.entry (pr : Predictor) (cfg : Config) (p : Word) : BtbEntry :=
  Table.get BtbEntry.invalid pr.btb (btbIndex cfg p)

/-- `hit` (R221). -/
def Predictor.hit (pr : Predictor) (cfg : Config) (p : Word) : Bool :=
  (pr.entry cfg p).valid && (pr.entry cfg p).tag == p

/-- A counter of a table. -/
def counterAt (t : Table Counter) (i : Nat) : Counter := Table.get 0 t i

/-- At least 2: "predict taken" or "prefer global" (R225). -/
def Counter.high (c : Counter) : Bool := decide (2 ≤ c.val)

/-- `sat(c, up)` (R225). -/
def Counter.sat (c : Counter) (up : Bool) : Counter :=
  if up then (if c.val < 3 then c + 1 else c) else (if 0 < c.val then c - 1 else c)

/-- Moving one counter of a table (R225). -/
def trainCounter (t : Table Counter) (i : Nat) (up : Bool) : Table Counter :=
  Table.set 0 t i (Counter.sat (counterAt t i) up)

/-- The index of the global table: the history, and under gshare its exclusive or with `ci(p)` (R227, R229). -/
def Predictor.globalIndex (pr : Predictor) (cfg : Config) (p : Word) : Nat :=
  match cfg.predictor with
  | .tournamentGshare => (pr.ghr ^^^ counterIndex cfg p) % 2 ^ cfg.ghrBits
  | _ => pr.ghr

/-- `dir_taken(p)` (R226, R227, R229). -/
def Predictor.dirTaken (pr : Predictor) (cfg : Config) (p : Word) : Bool :=
  let i := counterIndex cfg p
  match cfg.predictor with
  | .twoBit => Counter.high (counterAt pr.ctr i)
  | _ =>
    if Counter.high (counterAt pr.chooser i) then Counter.high (counterAt pr.globalTable (pr.globalIndex cfg p))
    else Counter.high (counterAt pr.localTable i)

/-- `predict(p)` (R224). -/
def Predictor.predict (pr : Predictor) (cfg : Config) (p : Word) : Word :=
  if pr.hit cfg p && pr.dirTaken cfg p then (pr.entry cfg p).target else p + 4

/-- The direction update by a transfer at `p` (R226, R228, R229). -/
def Predictor.trainDirection (pr : Predictor) (cfg : Config) (p : Word) (taken : Bool) : Predictor :=
  let i := counterIndex cfg p
  match cfg.predictor with
  | .twoBit => { pr with ctr := trainCounter pr.ctr i taken }
  | _ =>
    let g := pr.globalIndex cfg p
    let lp := Counter.high (counterAt pr.localTable i)
    let gp := Counter.high (counterAt pr.globalTable g)
    { pr with
      chooser := if lp != gp then trainCounter pr.chooser i (gp == taken) else pr.chooser
      localTable := trainCounter pr.localTable i taken
      globalTable := trainCounter pr.globalTable g taken
      ghr := (2 * pr.ghr + (if taken then 1 else 0)) % 2 ^ cfg.ghrBits }

/-- The BTB write of a taken transfer (R222). -/
def Predictor.writeBtb (pr : Predictor) (cfg : Config) (p target : Word) : Predictor :=
  { pr with btb := Table.set BtbEntry.invalid pr.btb (btbIndex cfg p) { valid := true, tag := p, target := target } }

/-- The update by a control transfer at `p` (R218): a taken one writes the BTB, and every one trains the direction. -/
def Predictor.train (pr : Predictor) (cfg : Config) (p : Word) (taken : Bool) (target : Word) : Predictor :=
  (if taken then pr.writeBtb cfg p target else pr).trainDirection cfg p taken

end Sys2Proof.Machine
end

