-- ==== Sys2Proof/Machine/Control.lean ====
section
/-! DEFINITION. The control transfers at the sequential level (42_control_transfer.md sections 1 and 2). -/

namespace Sys2Proof.Machine

/-- The end of a control transfer whose condition and target are known (R203 to R206, R218). The faults come before any
effect (R353), MisalignedFetch before RedirectToZero (R357). The predictor is trained as every un-flushed transfer trains
it (R218, DEDUCED, log entry 4). -/
def State.transfer (s : State) (rd : Reg) (taken : Bool) (target : Word) : Host.Outcome State Fault Refusal :=
  if taken && misalignedPc target then .fault (.misalignedFetch s.pc target)
  else if resolvedNext taken s.pc target = 0 then .fault (.redirectToZero s.pc)
  else
    .next
      { s.writeReg rd (s.pc + 4) with
        pc := resolvedNext taken s.pc target
        predictor := s.predictor.train s.cfg s.pc taken target }

/-- A conditional branch (R201 to R203). It writes no register: its destination is x0 (R133). -/
def State.branch (s : State) (kind : BranchKind) (rs1 rs2 : Reg) (offset : BitVec 13) :
    Host.Outcome State Fault Refusal :=
  orFault (s.readFault2 s.pc rs1 rs2)
    (s.transfer 0 (branchTaken kind (s.reg rs1) (s.reg rs2)) (pcTarget s.pc (sext13 offset)))

/-- JAL (R207). -/
def execJal (rd : Reg) (offset : BitVec 21) (s : State) : Host.Outcome State Fault Refusal :=
  s.transfer rd true (pcTarget s.pc (sext21 offset))

/-- JALR (R208): the target uses the old `x[rs1]`. -/
def execJalr (rd rs1 : Reg) (imm : BitVec 12) (s : State) : Host.Outcome State Fault Refusal :=
  orFault (s.readFault s.pc rs1) (s.transfer rd true (jalrTarget (s.reg rs1) (sext12 imm)))

/-- BEQ (R209). -/
def execBeq (rs1 rs2 : Reg) (offset : BitVec 13) (s : State) : Host.Outcome State Fault Refusal :=
  s.branch .eq rs1 rs2 offset

/-- BNE (R210). -/
def execBne (rs1 rs2 : Reg) (offset : BitVec 13) (s : State) : Host.Outcome State Fault Refusal :=
  s.branch .ne rs1 rs2 offset

/-- BLT (R211). -/
def execBlt (rs1 rs2 : Reg) (offset : BitVec 13) (s : State) : Host.Outcome State Fault Refusal :=
  s.branch .lt rs1 rs2 offset

/-- BGE (R212). -/
def execBge (rs1 rs2 : Reg) (offset : BitVec 13) (s : State) : Host.Outcome State Fault Refusal :=
  s.branch .ge rs1 rs2 offset

/-- BLTU (R213). -/
def execBltu (rs1 rs2 : Reg) (offset : BitVec 13) (s : State) : Host.Outcome State Fault Refusal :=
  s.branch .ltu rs1 rs2 offset

/-- BGEU (R214). -/
def execBgeu (rs1 rs2 : Reg) (offset : BitVec 13) (s : State) : Host.Outcome State Fault Refusal :=
  s.branch .geu rs1 rs2 offset

end Sys2Proof.Machine
end

