-- ==== Sys2Proof/Machine/Divide.lean ====
section
/-! DEFINITION. The divides and the divider engine in both variants (45_divide.md). -/

namespace Sys2Proof.Machine

/-- What a divide asks of the divider (R306). -/
structure DivRequest where
  isSigned : Bool
  wantRem : Bool
deriving DecidableEq, Repr

/-- `is_signed` and `want_remainder` of each divide (R306); `none` for an operation that is no divide. -/
def divRequest (op : AluOp) : Option DivRequest :=
  match op with
  | .div => some { isSigned := true, wantRem := false }
  | .divu => some { isSigned := false, wantRem := false }
  | .rem => some { isSigned := true, wantRem := true }
  | .remu => some { isSigned := false, wantRem := true }
  | _ => none

/-- The signed quotient of R300: a zero divisor gives all ones, overflow gives INT_MIN, otherwise truncation toward 0. -/
def quotSigned (n d : Word) : Word :=
  if d = 0 then 0xFFFFFFFF
  else if divOverflow true n d then intMin
  else BitVec.ofInt 32 (Int.tdiv n.toInt d.toInt)

/-- The signed remainder of R300: a zero divisor gives the dividend, overflow gives 0, otherwise the sign of the
dividend. -/
def remSigned (n d : Word) : Word :=
  if d = 0 then n
  else if divOverflow true n d then 0
  else BitVec.ofInt 32 (n.toInt - d.toInt * Int.tdiv n.toInt d.toInt)

/-- The unsigned quotient of R300. -/
def quotUnsigned (n d : Word) : Word :=
  if d = 0 then 0xFFFFFFFF else BitVec.ofNat 32 (n.toNat / d.toNat)

/-- The unsigned remainder of R300. -/
def remUnsigned (n d : Word) : Word :=
  if d = 0 then n else BitVec.ofNat 32 (n.toNat % d.toNat)

/-- The result table of R300. -/
def divResult (q : DivRequest) (n d : Word) : Word :=
  match q.isSigned, q.wantRem with
  | true, false => quotSigned n d
  | true, true => remSigned n d
  | false, false => quotUnsigned n d
  | false, true => remUnsigned n d

/-- A divide at the sequential level: it writes rd and the divider's `error` flag, and nothing else (R301). -/
def State.divOp (s : State) (q : DivRequest) (rd rs1 rs2 : Reg) : Host.Outcome State Fault Refusal :=
  orFault (s.readFault2 s.pc rs1 rs2)
    (.next
      { s.retire rd (divResult q (s.reg rs1) (s.reg rs2)) with
        div := { s.div with error := divError q.isSigned (s.reg rs1) (s.reg rs2) } })

/-- DIV (R302). -/
def execDiv (rd rs1 rs2 : Reg) (s : State) : Host.Outcome State Fault Refusal :=
  s.divOp { isSigned := true, wantRem := false } rd rs1 rs2

/-- DIVU (R303). -/
def execDivu (rd rs1 rs2 : Reg) (s : State) : Host.Outcome State Fault Refusal :=
  s.divOp { isSigned := false, wantRem := false } rd rs1 rs2

/-- REM (R304). -/
def execRem (rd rs1 rs2 : Reg) (s : State) : Host.Outcome State Fault Refusal :=
  s.divOp { isSigned := true, wantRem := true } rd rs1 rs2

/-- REMU (R305). -/
def execRemu (rd rs1 rs2 : Reg) (s : State) : Host.Outcome State Fault Refusal :=
  s.divOp { isSigned := false, wantRem := true } rd rs1 rs2

/-! ### The divider's cycles (R309 to R317) -/

/-- Negation modulo 2^32 under a sign bit (R310, R315). -/
def negateIf (sign : Bool) (v : Word) : Word := if sign then 0 - v else v

/-- `start`: the special cases at entry, or PRE (R306, R309). -/
def Divider.accept (d : Divider) (q : DivRequest) (dividend divisor : Word) : Divider :=
  if divisor = 0 then
    { d with state := .error, error := true, result := if q.wantRem then dividend else 0xFFFFFFFF }
  else if divisor = 1 then
    { d with state := .div1, error := false, result := if q.wantRem then 0 else dividend }
  else
    { d with
      state := .pre, error := false, dividend := dividend, divisor := divisor, isSigned := q.isSigned,
      wantRem := q.wantRem }

/-- PRE (R310): sign and magnitude, and the overflow case. -/
def Divider.prepare (d : Divider) (impl : DivImpl) : Divider :=
  let signN := d.isSigned && d.dividend.msb
  let signD := d.isSigned && d.divisor.msb
  { d with
    state := .working
    signN := signN
    signD := signD
    quot := negateIf signN d.dividend
    divisor := negateIf signD d.divisor
    rem := 0
    count := impl.iterations
    error := divOverflow d.isSigned d.dividend d.divisor }

/-- The restoring iteration (R313), on the 33-bit remainder: the trial difference is negative when its bit 32 is 1. -/
def restoringStep (divisor : Word) (rem : BitVec 33) (quot : Word) : BitVec 33 × Word :=
  let r1 := (rem <<< 1) ||| (quot.extractLsb' 31 1).setWidth 33
  let q1 := quot <<< 1
  let t := r1 - divisor.setWidth 33
  if t.msb then (r1, q1) else (t, q1 ||| 1)

/-- Quotient digit selection (R314): how many of the fifteen multiples of the divisor fit, which is the largest `k` whose
multiple fits. -/
def quotientDigit (divisor : Word) (r1 : BitVec 36) : Nat :=
  (List.range 15).countP (fun j => decide ((j + 1) * divisor.toNat ≤ r1.toNat))

/-- The radix-16 iteration (R314), on the 36-bit remainder. -/
def radix16Step (divisor : Word) (rem : BitVec 36) (quot : Word) : BitVec 36 × Word :=
  let r1 := (rem <<< 4) ||| (quot.extractLsb' 28 4).setWidth 36
  let q1 := quot <<< 4
  let k := quotientDigit divisor r1
  (r1 - BitVec.ofNat 36 (k * divisor.toNat), q1 ||| BitVec.ofNat 32 k)

/-- One WORKING cycle of the chosen variant (R311). -/
def Divider.iterate (d : Divider) (impl : DivImpl) : Divider :=
  let rq :=
    match impl with
    | .restoring =>
      let p := restoringStep d.divisor (d.rem.setWidth 33) d.quot
      (p.1.setWidth 36, p.2)
    | .srt16 => radix16Step d.divisor d.rem d.quot
  { d with
    rem := rq.1
    quot := rq.2
    count := d.count - 1
    state := if d.count = 1 then .ended else .working }

/-- One cycle with neither an acceptance nor a consumption (R310, R311, R317). -/
def Divider.tick (d : Divider) (impl : DivImpl) : Divider :=
  match d.state with
  | .pre => d.prepare impl
  | .working => d.iterate impl
  | _ => d

/-- `poll().ready` (R308). -/
def Divider.ready (d : Divider) : Bool :=
  match d.state with
  | .ended | .div1 | .error => true
  | _ => false

/-- The sign correction END presents (R315). -/
def Divider.corrected (d : Divider) : Word :=
  if d.error then (if d.wantRem then 0 else intMin)
  else if d.wantRem then negateIf d.signN (d.rem.setWidth 32)
  else negateIf (d.signN ^^ d.signD) d.quot

/-- `poll().result` (R306, R315, R316). -/
def Divider.output (d : Divider) : Word :=
  match d.state with
  | .ended => d.corrected
  | _ => d.result

/-- Consumption (R316): back to IDLE; `error` keeps its value. -/
def Divider.consume (d : Divider) : Divider :=
  { d with state := .idle, result := d.output }

end Sys2Proof.Machine
end

