-- ==== Sys2Proof/Machine/LoadStore.lean ====
section
/-! DEFINITION. Loads and stores (43_load_store.md). -/

namespace Sys2Proof.Machine

/-- A load (R250, R256, R258): with rd = x0 it still reads memory and can still fault. -/
def State.loadOp (s : State) (width : MemWidth) (sign : MemSign) (rd rs1 : Reg) (imm : BitVec 12) :
    Host.Outcome State Fault Refusal :=
  let ea := effectiveAddress (s.reg rs1) (sext12 imm)
  orFault (s.readFault s.pc rs1)
    (orFault (accessFault s.cfg s.pc ea width) (.next (s.retire rd (s.dmem.load ea width sign))))

/-- A store (R250, R254, R256). -/
def State.storeOp (s : State) (width : MemWidth) (rs2 rs1 : Reg) (imm : BitVec 12) : Host.Outcome State Fault Refusal :=
  let ea := effectiveAddress (s.reg rs1) (sext12 imm)
  orFault (s.readFault2 s.pc rs1 rs2)
    (orFault (accessFault s.cfg s.pc ea width)
      (.next { s with dmem := s.dmem.store ea width (s.reg rs2) }.advance))

/-- LB (R259). -/
def execLb (rd rs1 : Reg) (imm : BitVec 12) (s : State) : Host.Outcome State Fault Refusal :=
  s.loadOp .b .s rd rs1 imm

/-- LH (R260). -/
def execLh (rd rs1 : Reg) (imm : BitVec 12) (s : State) : Host.Outcome State Fault Refusal :=
  s.loadOp .h .s rd rs1 imm

/-- LW (R261). -/
def execLw (rd rs1 : Reg) (imm : BitVec 12) (s : State) : Host.Outcome State Fault Refusal :=
  s.loadOp .w .s rd rs1 imm

/-- LBU (R262). -/
def execLbu (rd rs1 : Reg) (imm : BitVec 12) (s : State) : Host.Outcome State Fault Refusal :=
  s.loadOp .b .u rd rs1 imm

/-- LHU (R263). -/
def execLhu (rd rs1 : Reg) (imm : BitVec 12) (s : State) : Host.Outcome State Fault Refusal :=
  s.loadOp .h .u rd rs1 imm

/-- SB (R265). -/
def execSb (rs2 rs1 : Reg) (imm : BitVec 12) (s : State) : Host.Outcome State Fault Refusal :=
  s.storeOp .b rs2 rs1 imm

/-- SH (R266). -/
def execSh (rs2 rs1 : Reg) (imm : BitVec 12) (s : State) : Host.Outcome State Fault Refusal :=
  s.storeOp .h rs2 rs1 imm

/-- SW (R267). -/
def execSw (rs2 rs1 : Reg) (imm : BitVec 12) (s : State) : Host.Outcome State Fault Refusal :=
  s.storeOp .w rs2 rs1 imm

end Sys2Proof.Machine
end

