-- ==== Sys2Proof/Machine/Multiply.lean ====
section
/-! DEFINITION. The multiplies and the three-stage multiplier (44_multiply.md). -/

namespace Sys2Proof.Machine

/-- What a multiply asks of the multiplier (R280): how it reads its operands and which half it takes. -/
structure MulRequest where
  aSigned : Bool
  bSigned : Bool
  wantHigh : Bool
deriving DecidableEq, Repr

/-- The signedness table of R280; `none` for an operation that is no multiply. -/
def mulRequest (op : AluOp) : Option MulRequest :=
  match op with
  | .mul => some { aSigned := false, bSigned := false, wantHigh := false }
  | .mulh => some { aSigned := true, bSigned := true, wantHigh := true }
  | .mulhsu => some { aSigned := true, bSigned := false, wantHigh := true }
  | .mulhu => some { aSigned := false, bSigned := false, wantHigh := true }
  | _ => none

/-- `ext` of R280, to 64 bits. -/
def extend64 (isSigned : Bool) (v : Word) : BitVec 64 :=
  if isSigned then v.signExtend 64 else v.setWidth 64

/-- `P` (R280): the product modulo 2^64. -/
def mulProduct (aSigned bSigned : Bool) (a b : Word) : BitVec 64 := extend64 aSigned a * extend64 bSigned b

/-- The half of the product an operation takes (R280, R290). -/
def mulHalf (wantHigh : Bool) (p : BitVec 64) : Word :=
  if wantHigh then p.extractLsb' 32 32 else p.extractLsb' 0 32

/-- The result of a multiply (R280). -/
def mulResult (q : MulRequest) (a b : Word) : Word := mulHalf q.wantHigh (mulProduct q.aSigned q.bSigned a b)

/-- A multiply at the sequential level (R282 to R285): it raises nothing and sets no flag (R281). -/
def State.mulOp (s : State) (q : MulRequest) (rd rs1 rs2 : Reg) : Host.Outcome State Fault Refusal :=
  orFault (s.readFault2 s.pc rs1 rs2) (.next (s.retire rd (mulResult q (s.reg rs1) (s.reg rs2))))

/-- MUL (R282). -/
def execMul (rd rs1 rs2 : Reg) (s : State) : Host.Outcome State Fault Refusal :=
  s.mulOp { aSigned := false, bSigned := false, wantHigh := false } rd rs1 rs2

/-- MULH (R283). -/
def execMulh (rd rs1 rs2 : Reg) (s : State) : Host.Outcome State Fault Refusal :=
  s.mulOp { aSigned := true, bSigned := true, wantHigh := true } rd rs1 rs2

/-- MULHSU (R284). -/
def execMulhsu (rd rs1 rs2 : Reg) (s : State) : Host.Outcome State Fault Refusal :=
  s.mulOp { aSigned := true, bSigned := false, wantHigh := true } rd rs1 rs2

/-- MULHU (R285). -/
def execMulhu (rd rs1 rs2 : Reg) (s : State) : Host.Outcome State Fault Refusal :=
  s.mulOp { aSigned := false, bSigned := false, wantHigh := true } rd rs1 rs2

/-! ### The multiplier's cycles (R290) -/

/-- Accepting an operation: stage 1 (R290). -/
def Multiplier.accept (m : Multiplier) (q : MulRequest) (a b : Word) : Multiplier :=
  { m with
    busy := true, stage := 1, a := a, b := b, aSigned := q.aSigned, bSigned := q.bSigned, wantHigh := q.wantHigh }

/-- One cycle with neither an acceptance nor a consumption (R290): stage 1 goes to 2, and stage 2 yields the product. -/
def Multiplier.tick (m : Multiplier) : Multiplier :=
  if m.stage = 1 then { m with stage := 2 }
  else if m.stage = 2 then
    { m with stage := 3, product := mulProduct m.aSigned m.bSigned m.a m.b, ready := true }
  else m

/-- The result presented to EX (R290). -/
def Multiplier.output (m : Multiplier) : Word := mulHalf m.wantHigh m.product

/-- Consumption, exactly once: the ready flag is cleared (R290). -/
def Multiplier.consume (m : Multiplier) : Multiplier :=
  { m with ready := false, busy := false, stage := 0 }

end Sys2Proof.Machine
end

