-- ==== Sys2Proof/Machine/Halt.lean ====
section
/-! DEFINITION. The halt (R333, R355) and what the one or two instructions that follow it in program order may have stored by
the time it ends the run (R88, D24, R369): those bytes of data memory are unspecified. -/

namespace Sys2Proof.Machine

/-- The state as the instructions behind a halt find it, at their PC: a register that holds no value reads as the free value
the halt log prints for it (R356). -/
@[irreducible] def State.settled (s : State) (pc : Word) : State :=
  { s with pc := pc, regs := Vector.ofFn (fun i => s.logValue i.val), hasValue := Vector.replicate 32 true }

/-- The control of the word at the PC. A fetch out of range delivers none: it is inert (R354). -/
def State.controlAtPc (s : State) : DecodedControl :=
  if inDepth s.cfg.imemDepth s.pc then decodeControl (s.imem.wordAt s.pc) else DecodedControl.inert 0

/-- The ALU's result for decoded control at the registers' values (R160, R161): for a store, its address (R250). -/
def State.aluResult (s : State) (d : DecodedControl) : Word :=
  aluFn d.ctrl.aluOp (operand1 d.ctrl.op1Sel (s.reg d.rs1) s.pc) (operand2 d.ctrl.op2Sel (s.reg d.rs2) d.imm)

/-- The access of a store, as address and length; length 0 for every other instruction and for a store that faults, which
leaves memory unchanged (R256). -/
def State.storeAccess (s : State) (d : DecodedControl) : Nat × Nat :=
  let address := s.aluResult d
  (address.toNat,
    if accessFault s.cfg s.pc address d.ctrl.memWidth = none then storedBytes d.ctrl.memOp d.ctrl.memWidth else 0)

/-- The PC behind an instruction (R203). Behind a transfer that redirects nothing, because its target is misaligned (R354)
or its next PC is 0 (R216), stands what IF predicted. -/
def State.pcBehind (s : State) (d : DecodedControl) : Word :=
  let taken := branchTaken d.ctrl.branchKind (s.reg d.rs1) (s.reg d.rs2)
  let target := transferTarget d.ctrl.branchKind s.pc (s.reg d.rs1) d.imm
  let next := resolvedNext taken s.pc target
  if d.ctrl.branchKind ≠ .none ∧ (taken && misalignedPc target || next = 0) then s.predictor.predict s.cfg s.pc else next

/-- The state behind an instruction that takes one cycle in EX. What a load writes is left out: an instruction that reads it
is not in EX in time (`followsAtOnce`). -/
def State.behind (s : State) (d : DecodedControl) : State :=
  { s.writeReg d.ctrl.destReg (s.aluResult d) with pc := s.pcBehind d }

/-- Whether an instruction follows the one before it into EX in the next cycle: that one is no multiply or divide (R287) and
no load of one of its used sources (R410). -/
def followsAtOnce (d d' : DecodedControl) : Bool :=
  (mulRequest d.ctrl.aluOp).isNone && (divRequest d.ctrl.aluOp).isNone &&
    !(d.ctrl.memOp = .load && d.ctrl.destReg ≠ 0 &&
      ((d'.used1 && d'.rs1 = d.ctrl.destReg) || (d'.used2 && d'.rs2 = d.ctrl.destReg)))

/-- The stores of the one or two instructions that follow the instruction at `pc` in program order, as address and length
(R88). By the time that instruction is in WB, the first has been in EX, and the second where it followed at once. -/
def State.storesBehind (s : State) (pc : Word) : List (Nat × Nat) :=
  let first := s.settled (pc + 4)
  let d := first.controlAtPc
  let second := first.behind d
  let d' := second.controlAtPc
  first.storeAccess d :: (if followsAtOnce d d' then [second.storeAccess d'] else [])

/-- `halt` at the sequential level (R12, R333). -/
def State.halt (s : State) : State := s.haltWith (s.storesBehind s.pc)

end Sys2Proof.Machine
end

