-- ==== Sys2Proof/Machine/System.lean ====
section
/-! DEFINITION. The halt words, the no-op forms and the words with no row (46_system_halt.md). The core has no trap, no
privileged instruction and no CSR (R350, R343, R41): ECALL and EBREAK halt. -/

namespace Sys2Proof.Machine

/-- ECALL (R330): a halt. -/
def execEcall (s : State) : Host.Outcome State Fault Refusal := .next s.halt

/-- EBREAK (R331): a halt. -/
def execEbreak (s : State) : Host.Outcome State Fault Refusal := .next s.halt

/-- The reserved halt word (R332): a halt that stores nothing. -/
def execHaltSb (s : State) : Host.Outcome State Fault Refusal := .next s.halt

/-- NOP (R334). -/
def execNop (s : State) : Host.Outcome State Fault Refusal := .next s.advance

/-- The zero word (R335): the canonical NOP. -/
def execZeroWord (s : State) : Host.Outcome State Fault Refusal := .next s.advance

/-- A word that matches no row (R337 to R342): FENCE, the CSR instructions, MRET, SRET, WFI, the AMO, floating-point,
compressed and custom opcodes and every reserved encoding execute as no-ops. -/
def execNoRow (s : State) : Host.Outcome State Fault Refusal := .next s.advance

end Sys2Proof.Machine
end

