-- ==== Sys2Proof/Machine/Sequencer.lean ====
section
/-! DEFINITION. The sequential level (R6): fetch, the checks of R357 that come before an instruction's own, and the run of
one instruction. -/

namespace Sys2Proof.Machine

/-- The word at the PC (R72): the whole instruction-memory word that holds that byte address. -/
def State.fetch (s : State) : Word := s.imem.wordAt s.pc

/-- The fault of a word under `STRICT_DECODE = true` (R115). -/
def strictFault (cfg : Config) (pc w : Word) : Option Fault :=
  if cfg.strictDecode && !isCanonical w then some (.nonCanonicalEncoding pc w) else none

/-- Running a decoded word: an instruction's meaning, or the no-op of a word with no row (R337). -/
def runDecoded (d : Decoded) (s : State) : Host.Outcome State Fault Refusal :=
  match d with
  | .instr i => exec i s
  | .noRow _ => execNoRow s

/-- One instruction of a running machine, with the checks in the order of R357. -/
def runInstruction (s : State) : Host.Outcome State Fault Refusal :=
  orFault (fetchFault s.cfg s.pc)
    (orFault (strictFault s.cfg s.pc s.fetch) (runDecoded (decode s.fetch) s))

/-- One step of the sequential level. A halted run is not stepped (R369), and a faulted one stays faulted (R353). -/
def sequentialStep (s : State) : Host.Outcome State Fault Refusal :=
  match s.run with
  | .running => runInstruction s
  | .halted => .refused .runEnded
  | .faulted f => .fault f

/-- The state with a word stored where the fetch reads (R72), and running. -/
def State.placeWord (s : State) (w : Word) : State :=
  { s with imem := s.imem.storeBytes (4 * (s.pc.toNat / 4)) (storeLanes .w w), run := .running }

end Sys2Proof.Machine
end

