-- ==== Sys2Proof/Machine/Step.lean ====
section
/-! DEFINITION. One step of the machine: one instruction of the sequential level. The cycle level is
Machine/Pipeline.lean. -/

namespace Sys2Proof.Machine

/-- One instruction (R6, R357). -/
def step (s : State) : Host.Outcome State Fault Refusal := sequentialStep s

/-- The state with the instruction of an opcode-table word stored where `step` fetches its next instruction. -/
def State.withFetchWord (s : State) (nbits w : Nat) : State := s.placeWord (BitVec.ofNat 32 (w % 2 ^ nbits))

end Sys2Proof.Machine
end

