-- ==== Sys2Proof/Machine/Image.lean ====
section
/-! DEFINITION. What the host does before and after a run: the memory images it loads before reset (R71, R368) and the text
of the halt log it receives (R356). Texts are lists of characters, one list a line. -/

namespace Sys2Proof.Machine

/-- The value of a lower-case hex digit (R71). -/
def hexValue (c : Char) : Option Nat :=
  if '0' ≤ c ∧ c ≤ '9' then some (c.toNat - 48)
  else if 'a' ≤ c ∧ c ≤ 'f' then some (c.toNat - 87)
  else none

/-- The number that hex digits spell, the most significant first. -/
def hexNumber : Nat → List Char → Option Nat
  | acc, [] => some acc
  | acc, c :: rest =>
    match hexValue c with
    | some v => hexNumber (16 * acc + v) rest
    | none => none

/-- One line of an image: exactly 8 lower-case hex digits (R71). -/
def imageWord (line : List Char) : Option Word :=
  if line.length = 8 then (hexNumber 0 line).map (BitVec.ofNat 32) else none

/-- The words of an image, one a line (R71). -/
def imageWords : List (List Char) → Option (List Word)
  | [] => some []
  | line :: rest =>
    match imageWord line, imageWords rest with
    | some w, some ws => some (w :: ws)
    | _, _ => none

/-- Words placed from word `k` on: line k gives the bytes at 4k to 4k+3 (R71). -/
def Memory.placeWords (m : Memory) (k : Nat) : List Word → Memory
  | [] => m
  | w :: rest => Memory.placeWords (m.storeBytes (4 * k) (storeLanes .w w)) (k + 1) rest

/-- The memory an image gives; a word past the last line is 0 (R71). -/
def Memory.ofWords (ws : List Word) : Memory := Memory.placeWords [] 0 ws

/-- Loading the two images and resetting (R71, R368, R380). An image longer than its memory is refused (R71, D35), and so is
a line that is not in the format. -/
def State.boot (cfg : Config) (rf : RfInit) (imemImage dmemImage : List (List Char)) :
    Host.Outcome State Fault Refusal :=
  match imageWords imemImage, imageWords dmemImage with
  | some is, some ds =>
    if cfg.imemDepth < is.length ∨ cfg.dmemDepth < ds.length then .refused .imageTooLong
    else .next (State.resetWith cfg rf (Memory.ofWords is) (Memory.ofWords ds))
  | _, _ => .refused .imageMalformed

/-- A hex digit in lower case (R356). -/
def hexDigit (n : Nat) : Char := Char.ofNat (if n < 10 then 48 + n else 87 + n)

/-- Exactly 8 hex digits (R356). -/
def hexText (v : Word) : List Char :=
  [28, 24, 20, 16, 12, 8, 4, 0].map (fun i => hexDigit (v.extractLsb' i 4).toNat)

/-- A register number below 100 in decimal with no leading zeros (R356). -/
def decimalText (n : Nat) : List Char :=
  if n < 10 then [Char.ofNat (48 + n)] else [Char.ofNat (48 + n / 10), Char.ofNat (48 + n % 10)]

/-- One line of the halt log, such as `x3 = 0x0000000c` (R356). -/
def haltLine (i : Nat) (v : Word) : List Char :=
  ['x'] ++ decimalText i ++ [' ', '=', ' ', '0', 'x'] ++ hexText v

/-- The halt log's lines, x0 first (R356). -/
def State.haltText (s : State) : List (List Char) := s.haltLog.mapIdx haltLine

end Sys2Proof.Machine
end

