-- ==== Sys2Proof/Machine/Pipeline.lean ====
section
/-! DEFINITION. The cycle level (70_reset_and_hazards.md): the five stages, the hazard unit, stall and flush. Every stage
function reads the start-of-cycle state only, and `State.clock` takes every new value at the one clock edge (R13, R383). -/

namespace Sys2Proof.Machine

/-- The flush signal (R384). -/
def State.flush (s : State) : Bool := s.pipe.btReg != 0

/-! ### Execution (R387 to R391) -/

/-- The instruction in EX: a bubble under flush (R387, R418). -/
def State.exInstr (s : State) : IdEx := if s.flush then IdEx.bubble else s.pipe.de

/-- What EX writes at the end of a cycle (R390, R287). -/
structure ExOut where
  /-- `ex_hold` (R287, R389). -/
  hold : Bool
  em : ExMem
  bypEx : Word
  dmemOut : Word
  dmem : Memory
  btReg : Word
  predictor : Predictor
  mul : Multiplier
  div : Divider
deriving DecidableEq, Repr

/-- A packet that EX has marked, or found marked, with a fault: inert from then on (R354). Its other fields are a bubble's, but
for its PC and result (DESIGN CHOICE, log entry 16). -/
def ExMem.marked (f : Fault) (pc result : Word) : ExMem :=
  { ExMem.bubble with fault := some f, pc := pc, result := result }

/-- What EX passes to MEM for an instruction that completes (R390). -/
def ExMem.ofControl (c : ControlPacket) (pc result : Word) : ExMem :=
  { pc := pc, memOp := c.memOp, memWidth := c.memWidth, memSign := c.memSign, destReg := c.destReg, haltFlag := c.haltFlag,
    result := result, fault := none }

/-- A cycle in which EX writes nothing of its own: the units take their cycle, and the rest keeps its value. -/
def State.exIdle (s : State) (em : ExMem) (bypEx : Word) : ExOut :=
  { hold := false, em := em, bypEx := bypEx, dmemOut := s.pipe.dmemOut, dmem := s.dmem, btReg := 0,
    predictor := s.predictor, mul := s.mul.tick, div := s.div.tick s.cfg.divImpl }

/-- A unit holds EX (R287): `em' = bubble`, `byp_ex` keeps its value, `bt_reg' = 0`, no predictor update. -/
def State.exHold (s : State) (mul : Multiplier) (div : Divider) : ExOut :=
  { hold := true, em := ExMem.bubble, bypEx := s.pipe.bypEx, dmemOut := s.pipe.dmemOut, dmem := s.dmem, btReg := 0,
    predictor := s.predictor, mul := mul, div := div }

/-- The EX-hold protocol with the multiplier (R287, R290). -/
def State.exMultiply (s : State) (x : IdEx) (q : MulRequest) (a b : Word) : ExOut :=
  let tick := s.div.tick s.cfg.divImpl
  if s.mul.ready then
    { s.exIdle (ExMem.ofControl x.ctrl x.pc s.mul.output) s.mul.output with mul := s.mul.consume }
  else if s.mul.busy then s.exHold s.mul.tick tick
  else s.exHold (s.mul.accept q a b) tick

/-- The EX-hold protocol with the divider (R287, R306, R316). -/
def State.exDivide (s : State) (x : IdEx) (q : DivRequest) (a b : Word) : ExOut :=
  if s.div.ready then
    { s.exIdle (ExMem.ofControl x.ctrl x.pc s.div.output) s.div.output with div := s.div.consume }
  else if s.div.state = .idle then s.exHold s.mul.tick (s.div.accept q a b)
  else s.exHold s.mul.tick (s.div.tick s.cfg.divImpl)

/-- A control transfer in EX (R201 to R205, R215, R216, R218). A misaligned taken target marks the transfer (R205, R354). -/
def State.exTransfer (s : State) (x : IdEx) (a b link : Word) : ExOut :=
  let taken := branchTaken x.ctrl.branchKind a b
  let target := transferTarget x.ctrl.branchKind x.pc a x.imm
  let next := resolvedNext taken x.pc target
  if taken && misalignedPc target then s.exIdle (ExMem.marked (.misalignedFetch x.pc target) x.pc link) link
  else
    { s.exIdle (ExMem.ofControl x.ctrl x.pc link) link with
      btReg := if next != x.ctrl.predictedNextPc then next else 0
      predictor := s.predictor.train s.cfg x.pc taken target }

/-- A load or store in EX (R250, R251, R256, R390). A misaligned or out-of-range address marks it (R354). -/
def State.exMemory (s : State) (x : IdEx) (b address : Word) : ExOut :=
  match accessFault s.cfg x.pc address x.ctrl.memWidth with
  | some f => s.exIdle (ExMem.marked f x.pc address) address
  | none =>
    { s.exIdle (ExMem.ofControl x.ctrl x.pc address) address with
      dmemOut := if x.ctrl.memOp = .load then s.dmem.wordAt address else s.pipe.dmemOut
      dmem := if x.ctrl.memOp = .store then s.dmem.store address x.ctrl.memWidth b else s.dmem }

/-- EX on an instruction and its resolved operands (R388 to R390). -/
def State.exOn (s : State) (x : IdEx) (a b : Word) : ExOut :=
  let res := aluFn x.ctrl.aluOp (operand1 x.ctrl.op1Sel a x.pc) (operand2 x.ctrl.op2Sel b x.imm)
  match x.fault, mulRequest x.ctrl.aluOp, divRequest x.ctrl.aluOp with
  | some f, _, _ => s.exIdle (ExMem.marked f x.pc res) res
  | none, some q, _ => s.exMultiply x q a b
  | none, none, some q => s.exDivide x q a b
  | none, none, none =>
    if x.ctrl.branchKind ≠ .none then s.exTransfer x a b res
    else if x.ctrl.memOp ≠ .none then s.exMemory x b res
    else s.exIdle (ExMem.ofControl x.ctrl x.pc res) res

/-- The Execution stage. -/
def State.execute (s : State) : ExOut :=
  let x := s.exInstr
  s.exOn x (forwarded s.pipe x.fwd1 x.rs1Val) (forwarded s.pipe x.fwd2 x.rs2Val)

/-! ### Decode and the hazard unit (R393 to R397, R405 to R412) -/

/-- The word ID decodes: the saved one after a stall (R393). -/
def State.decodeSource (s : State) : FetchPacket :=
  if !s.flush && s.pipe.stallQ then s.pipe.saved else s.pipe.ifid

/-- The forwarding selector of a source (R406, R407). -/
def State.fwdSel (s : State) (r : Reg) (used : Bool) : FwdSel :=
  if !used || r = 0 then .rf
  else if r = s.pipe.de.ctrl.destReg then .ex
  else if r = s.pipe.em.destReg then .mem
  else if r = s.pipe.mw.destReg then .wb
  else .rf

/-- The fault of a used source that no older instruction in flight writes and that holds no value (R35, R354). -/
def State.sourceFault (s : State) (pc : Word) (r : Reg) (used : Bool) : Option Fault :=
  if used && s.fwdSel r used = .rf then s.readFault pc r else none

/-- The mark ID gives a fetched word, in the order of R357: IF's own, then the encoding, then rs1 and rs2. -/
def State.decodeFault (s : State) (p : FetchPacket) : Option Fault :=
  let d := decodeControl p.inst
  match p.fault with
  | some f => some f
  | none =>
    match strictFault s.cfg p.pc p.inst with
    | some f => some f
    | none =>
      match s.sourceFault p.pc d.rs1 d.used1 with
      | some f => some f
      | none => s.sourceFault p.pc d.rs2 d.used2

/-- A packet that ID has marked: inert (R354). Its other fields are a bubble's, but for its PC (DESIGN CHOICE, log entry 16). -/
def IdEx.marked (f : Fault) (pc : Word) : IdEx := { IdEx.bubble with fault := some f, pc := pc }

/-- The packet ID sends (R394): the register file is read with no write-through (R395). For a register that holds no value it
latches the filler of `regs` (`State.resetWith`), which nothing reads: the source is unused or forwarded (DESIGN CHOICE, log
entry 8). -/
def State.packetOf (s : State) (p : FetchPacket) : IdEx :=
  let d := decodeControl p.inst
  match s.decodeFault p with
  | some f => IdEx.marked f p.pc
  | none =>
    { ctrl := { d.ctrl with predictedNextPc := p.pred }
      pc := p.pc
      imm := d.imm
      rs1Val := s.reg d.rs1
      rs2Val := s.reg d.rs2
      fwd1 := s.fwdSel d.rs1 d.used1
      fwd2 := s.fwdSel d.rs2 d.used2
      fault := none }

/-- The load-use hazard (R410). -/
def State.loadUse (s : State) : Bool :=
  let q := s.packetOf s.decodeSource
  s.pipe.de.ctrl.memOp = .load && (q.fwd1 = .ex || q.fwd2 = .ex)

/-- The stall condition (R412, R417). -/
def State.stall (s : State) (hold : Bool) : Bool := !s.flush && (s.loadUse || hold)

/-- `de'` (R396). -/
def State.nextDe (s : State) (hold : Bool) : IdEx :=
  if s.flush then IdEx.bubble
  else if hold then s.pipe.de
  else if s.loadUse then IdEx.bubble
  else s.packetOf s.decodeSource

/-! ### Fetch (R399 to R401) -/

/-- `eff` (R399). -/
def State.fetchAddress (s : State) : Word :=
  if s.flush then s.pipe.btReg else if s.pipe.stallQ then s.pipe.prevPc else s.pc

/-- The packet IF sends (R400, R401). A fetch out of range delivers no word: it is marked, and the 0 in its place is never
executed (DESIGN CHOICE, log entry 8, safe). -/
def State.fetched (s : State) : FetchPacket :=
  let eff := s.fetchAddress
  { inst := if inDepth s.cfg.imemDepth eff then s.imem.wordAt eff else 0
    pc := eff
    pred := s.predictor.predict s.cfg eff
    fault := fetchFault s.cfg eff }

/-! ### MemoryAccess and WriteBack (R385, R386) -/

/-- The value MEM passes on (R252, R253, R386). -/
def State.memValue (s : State) : Word :=
  match s.pipe.em.memOp with
  | .load => loadExtract s.pipe.dmemOut s.pipe.em.result s.pipe.em.memWidth s.pipe.em.memSign
  | _ => s.pipe.em.result

/-- `mw'` (R386). -/
def State.nextMw (s : State) : MemWb :=
  { pc := s.pipe.em.pc, destReg := s.pipe.em.destReg, value := s.memValue, haltFlag := s.pipe.em.haltFlag, fault := s.pipe.em.fault }

/-- The commit of WB (R33, R385). -/
def State.commit (s : State) : State := s.writeReg s.pipe.mw.destReg s.pipe.mw.value

/-! ### The cycle -/

/-- The pipeline's registers at the end of a cycle, given what EX writes. -/
def State.nextPipe (s : State) (ex : ExOut) : Pipeline :=
  { prevPc := s.fetchAddress
    ifid := s.fetched
    stallQ := s.stall ex.hold
    saved := s.decodeSource
    de := s.nextDe ex.hold
    em := ex.em
    dmemOut := ex.dmemOut
    mw := s.nextMw
    bypEx := ex.bypEx
    bypMem := s.memValue
    bypWb := s.pipe.mw.value
    btReg := ex.btReg }

/-- One clock cycle of a running machine in which no halt and no fault is in WB (R383). -/
def State.clock (s : State) : State :=
  { s.commit with
    pc := s.fetched.pred
    dmem := s.execute.dmem
    predictor := s.execute.predictor
    mul := s.execute.mul
    div := s.execute.div
    pipe := s.nextPipe s.execute
    cycles := s.cycles + 1 }

/-- The access of a store that a latch holds, as address and length; length 0 for any other packet. -/
def ExMem.storeAccess (e : ExMem) : Nat × Nat := (e.result.toNat, storedBytes e.memOp e.memWidth)

/-- The accesses whose bytes are unspecified when the instruction in WB ends the run (R88, R354, R369): what the one or two
younger instructions, the elder in MEM and the younger in EX, have stored, and what they address in program order, which
takes in an instruction that a fault mark has made inert. -/
def State.youngerStores (s : State) : List (Nat × Nat) :=
  s.pipe.em.storeAccess :: s.execute.em.storeAccess :: s.storesBehind s.pipe.mw.pc

/-- The cycle in which a halt is in WB: the run ends with the halt log of the register file at the start of the cycle, and
nothing of the cycle is committed (R355, R385). -/
def State.haltCycle (s : State) : State := { s.haltWith s.youngerStores with cycles := s.cycles + 1 }

/-- One clock cycle (R383, R385, R354). -/
def cycle (s : State) : Host.Outcome State Fault Refusal :=
  match s.run with
  | .halted => .refused .runEnded
  | .faulted f => .fault f
  | .running =>
    match s.pipe.mw.fault with
    | some f => .fault f
    | none => if s.pipe.mw.haltFlag then .next s.haltCycle else .next s.clock

/-- The state a run of the cycle level is left in: a fault in WB ends it in the way a halt does, with the halt log and nothing of
the cycle committed (R354, R385), and with the same unspecified bytes (R354). -/
def State.concludeCycle (s : State) (o : Host.Outcome State Fault Refusal) : State :=
  match o with
  | .next t => t
  | .fault f => { s.haltCycle with run := .faulted f }
  | .refused _ => s

/-- A run of the cycle level under fuel (R369): it stops where the machine is not running or a step answers no next
state. -/
def runCycles : Nat → State → State
  | 0, s => s
  | n + 1, s =>
    match s.run with
    | .running => runCycles n (s.concludeCycle (cycle s))
    | _ => s

/-- A run of the sequential level under fuel (R369). -/
def runSteps : Nat → State → State
  | 0, s => s
  | n + 1, s =>
    match s.run with
    | .running => runSteps n (s.conclude (sequentialStep s))
    | _ => s

end Sys2Proof.Machine
end

