-- ==== Sys2Proof/WellFormed.lean ====
section
/-! DEFINITION. Which instruction terms stand for words of the instruction set. A term that is not well-formed has no
encoding of its own: an odd byte offset, or operands whose word is decoded as another row. -/

namespace Sys2Proof

/-- A byte offset is encodable when its bit 0 is 0 (R105, R107). -/
def evenOffset {n : Nat} (offset : BitVec n) : Bool :=
  offset.getLsbD 0 == false

/-- Well-formed instructions. A branch or JAL offset is even (R105, R107). `addi x0, x0, 0` is written `nop` (R334: it is
the exact word of the NOP row). `sb x0, -1(x0)` is written `haltSb` (R332: that exact word is a halt, not a store). -/
def Instr.wellFormed : Instr → Bool
  | .jal _ offset => evenOffset offset
  | .beq _ _ offset => evenOffset offset
  | .bne _ _ offset => evenOffset offset
  | .blt _ _ offset => evenOffset offset
  | .bge _ _ offset => evenOffset offset
  | .bltu _ _ offset => evenOffset offset
  | .bgeu _ _ offset => evenOffset offset
  | .addi rd rs1 imm => !(rd == 0 && rs1 == 0 && imm == 0)
  | .sb rs2 rs1 imm => !(rs2 == 0 && rs1 == 0 && imm == -1)
  | .lui _ _ | .auipc _ _ | .jalr _ _ _
  | .lb _ _ _ | .lh _ _ _ | .lw _ _ _ | .lbu _ _ _ | .lhu _ _ _ | .sh _ _ _ | .sw _ _ _
  | .slti _ _ _ | .sltiu _ _ _ | .xori _ _ _ | .ori _ _ _ | .andi _ _ _ | .slli _ _ _ | .srli _ _ _ | .srai _ _ _
  | .add _ _ _ | .sub _ _ _ | .sll _ _ _ | .slt _ _ _ | .sltu _ _ _ | .xor _ _ _ | .srl _ _ _ | .sra _ _ _
  | .or _ _ _ | .and _ _ _
  | .mul _ _ _ | .mulh _ _ _ | .mulhsu _ _ _ | .mulhu _ _ _ | .div _ _ _ | .divu _ _ _ | .rem _ _ _ | .remu _ _ _
  | .ecall | .ebreak | .haltSb | .nop | .zeroWord => true

end Sys2Proof
end

