-- ==== Sys2Proof/Safety.lean ====
section
/-! DEFINITION. The terms in which claims about the machine are made: what an instruction leaves unchanged, the invariants of
the two levels, and what a run may never do. -/

namespace Sys2Proof.Machine

/-! ### Frames -/

/-- A PC is a multiple of 4 (R39, R205). -/
def Aligned (p : Word) : Prop := p.toNat % 4 = 0

/-- What no sequential step changes but a halt's own fields: the parameters, instruction memory (R86), the multiplier, the
pipeline's registers and the cycle count. -/
structure SameFixed (s t : State) : Prop where
  cfg : t.cfg = s.cfg
  imem : t.imem = s.imem
  mul : t.mul = s.mul
  pipe : t.pipe = s.pipe
  cycles : t.cycles = s.cycles

/-- `SameFixed`, and the run goes on: the run status, the halt log and the count of free values are unchanged. -/
structure SameRunning (s t : State) : Prop extends SameFixed s t where
  run : t.run = s.run
  haltLog : t.haltLog = s.haltLog
  freeCount : t.freeCount = s.freeCount

/-- Every register reads as before but `rd`, which reads `v`. With rd = x0 nothing is written (R31). -/
structure WritesOnly (s t : State) (rd : Reg) (v : Word) : Prop where
  value : ∀ r, t.reg r = if r = rd ∧ rd ≠ 0 then v else s.reg r
  held : ∀ r, t.holds r = (s.holds r || r == rd)

/-- Every byte of data memory reads as before. -/
def SameMemory (s t : State) : Prop := ∀ a, t.dmem.byte a = s.dmem.byte a

/-- The state of an instruction that only writes `v` to `rd` and goes on to the next instruction (R162, R37): no byte of
memory, no predictor state and no unit changes. -/
structure Retires (s t : State) (rd : Reg) (v : Word) : Prop extends SameRunning s t where
  writes : WritesOnly s t rd v
  memory : SameMemory s t
  predictor : t.predictor = s.predictor
  div : t.div = s.div
  pc : t.pc = s.pc + 4

/-- The state after a divide: as `Retires`, and the divider's `error` flag becomes `e` (R301). -/
structure Divides (s t : State) (rd : Reg) (v : Word) (e : Bool) : Prop extends SameRunning s t where
  writes : WritesOnly s t rd v
  memory : SameMemory s t
  predictor : t.predictor = s.predictor
  div : t.div = { s.div with error := e }
  pc : t.pc = s.pc + 4

/-- The state after a control transfer: only `rd`, the PC and the predictor change. -/
structure Transfers (s t : State) (rd : Reg) (taken : Bool) (target : Word) : Prop extends SameRunning s t where
  writes : WritesOnly s t rd (s.pc + 4)
  memory : SameMemory s t
  div : t.div = s.div
  pc : t.pc = if taken then target else s.pc + 4
  predictor : t.predictor = s.predictor.train s.cfg s.pc taken target

/-- The state after a store of `bytes` from address `a` on: those bytes, the PC, and nothing else. -/
structure Stores (s t : State) (a : Nat) (bytes : List Byte) : Prop extends SameRunning s t where
  regs : ∀ r, t.reg r = s.reg r
  held : ∀ r, t.holds r = s.holds r
  stored : ∀ i, (h : i < bytes.length) → t.dmem.byte (a + i) = bytes[i]
  others : ∀ b, (b < a ∨ a + bytes.length ≤ b) → t.dmem.byte b = s.dmem.byte b
  predictor : t.predictor = s.predictor
  div : t.div = s.div
  pc : t.pc = s.pc + 4

/-- Every byte of data memory outside some accesses, given as address and length, reads as before. -/
def SameMemoryOutside (s t : State) (accesses : List (Nat × Nat)) : Prop :=
  ∀ a, (∀ r ∈ accesses, a < r.1 ∨ r.1 + r.2 ≤ a) → t.dmem.byte a = s.dmem.byte a

/-- The state a halt leaves: the run is over, and no register, no memory and no PC is written (R333), but that the bytes the
younger instructions' stores address are unspecified (R88). -/
structure Halts (s t : State) : Prop extends SameFixed s t where
  run : t.run = .halted
  regs : ∀ r, t.reg r = s.reg r
  held : ∀ r, t.holds r = s.holds r
  memory : SameMemoryOutside s t (s.storesBehind s.pc)
  predictor : t.predictor = s.predictor
  div : t.div = s.div
  pc : t.pc = s.pc

/-! ### Shapes of claims about one instruction

Each says that the instruction completes under conditions on the state and the operands alone, and what it leaves. -/

/-- `mk rd rs1 rs2` completes whenever its sources hold values, and writes to `rd` a `v` with `rel x[rs1] x[rs2] v`. -/
def RegisterForm (mk : Reg → Reg → Reg → Instr) (rel : Word → Word → Word → Prop) : Prop :=
  ∀ (s : State) (rd rs1 rs2 : Reg), s.holds rs1 = true → s.holds rs2 = true →
    ∃ t v, exec (mk rd rs1 rs2) s = .next t ∧ Retires s t rd v ∧ rel (s.reg rs1) (s.reg rs2) v

/-- `mk rd rs1 x` completes whenever rs1 holds a value, and writes to `rd` a `v` with `rel x[rs1] x v`. -/
def ImmediateForm {n : Nat} (mk : Reg → Reg → BitVec n → Instr) (rel : Word → BitVec n → Word → Prop) : Prop :=
  ∀ (s : State) (rd rs1 : Reg) (imm : BitVec n), s.holds rs1 = true →
    ∃ t v, exec (mk rd rs1 imm) s = .next t ∧ Retires s t rd v ∧ rel (s.reg rs1) imm v

/-- A divide completes whenever its sources hold values; `rel` gives its result, `err` the divider's `error` flag. -/
def DivideForm (mk : Reg → Reg → Reg → Instr) (rel : Word → Word → Word → Prop) (err : Word → Word → Prop) : Prop :=
  ∀ (s : State) (rd rs1 rs2 : Reg), s.holds rs1 = true → s.holds rs2 = true →
    ∃ t v e, exec (mk rd rs1 rs2) s = .next t ∧ Divides s t rd v e ∧ rel (s.reg rs1) (s.reg rs2) v ∧
      (e = true ↔ err (s.reg rs1) (s.reg rs2))

/-- A branch completes whenever its sources hold values and the PC it resolves to is not 0 and, if taken, a multiple of 4;
it is taken exactly when `cond x[rs1] x[rs2]`. -/
def BranchForm (mk : Reg → Reg → BitVec 13 → Instr) (cond : Word → Word → Prop) : Prop :=
  ∀ (s : State) (rs1 rs2 : Reg) (offset : BitVec 13) (taken : Bool), s.holds rs1 = true → s.holds rs2 = true →
    (taken = true ↔ cond (s.reg rs1) (s.reg rs2)) →
    (taken = true → Aligned (s.pc + offset.signExtend 32) ∧ s.pc + offset.signExtend 32 ≠ 0) →
    (taken = false → s.pc + 4 ≠ 0) →
    ∃ t, exec (mk rs1 rs2 offset) s = .next t ∧ Transfers s t 0 taken (s.pc + offset.signExtend 32)

/-- A branch whose sources hold values stops when it is taken to a target that is no multiple of 4 (R205), and when it
resolves to 0, taken or not (R206). -/
def BranchFaults (mk : Reg → Reg → BitVec 13 → Instr) (cond : Word → Word → Prop) : Prop :=
  ∀ (s : State) (rs1 rs2 : Reg) (offset : BitVec 13), s.holds rs1 = true → s.holds rs2 = true →
    (cond (s.reg rs1) (s.reg rs2) → ¬Aligned (s.pc + offset.signExtend 32) →
      exec (mk rs1 rs2 offset) s = .fault (.misalignedFetch s.pc (s.pc + offset.signExtend 32))) ∧
    (cond (s.reg rs1) (s.reg rs2) → s.pc + offset.signExtend 32 = 0 →
      exec (mk rs1 rs2 offset) s = .fault (.redirectToZero s.pc)) ∧
    (¬cond (s.reg rs1) (s.reg rs2) → s.pc + 4 = 0 → exec (mk rs1 rs2 offset) s = .fault (.redirectToZero s.pc))

/-- A load of `n` bytes completes whenever rs1 holds a value and the effective address is a multiple of `n` within the data
memory, and writes `value memory address` to `rd`. -/
def LoadForm (mk : Reg → Reg → BitVec 12 → Instr) (n : Nat) (value : (Nat → Byte) → Nat → Word) : Prop :=
  ∀ (s : State) (rd rs1 : Reg) (imm : BitVec 12), s.holds rs1 = true →
    (s.reg rs1 + imm.signExtend 32).toNat % n = 0 →
    (s.reg rs1 + imm.signExtend 32).toNat / 4 < s.cfg.dmemDepth →
    ∃ t, exec (mk rd rs1 imm) s = .next t ∧
      Retires s t rd (value s.dmem.byte (s.reg rs1 + imm.signExtend 32).toNat)

/-- A store of `n` bytes completes whenever its sources hold values and the effective address is a multiple of `n` within the
data memory; the bytes stored are the low `n` bytes of x[rs2], the lowest first. -/
def StoreForm (mk : Reg → Reg → BitVec 12 → Instr) (n : Nat) : Prop :=
  ∀ (s : State) (rs2 rs1 : Reg) (imm : BitVec 12), s.holds rs1 = true → s.holds rs2 = true →
    (s.reg rs1 + imm.signExtend 32).toNat % n = 0 →
    (s.reg rs1 + imm.signExtend 32).toNat / 4 < s.cfg.dmemDepth →
    ∃ t, exec (mk rs2 rs1 imm) s = .next t ∧
      Stores s t (s.reg rs1 + imm.signExtend 32).toNat
        ((List.range n).map (fun i => (s.reg rs2).extractLsb' (8 * i) 8))

/-- Every register holds a value, as after a reset with `RF_INIT = ZERO` (R35). -/
def AllHeld (s : State) : Prop := ∀ r, s.holds r = true

/-! ### Invariants -/

/-- The predictor's tables are in canonical form and within their sizes (R54, R55, R220), and a BTB entry is listed at the
index of its tag with a target that can be fetched (R221, R222). -/
structure PredictorInv (cfg : Config) (pr : Predictor) : Prop where
  btbWf : Table.wf BtbEntry.invalid pr.btb = true
  btbEntries : ∀ k e, (k, e) ∈ pr.btb → btbIndex cfg e.tag = k ∧ Aligned e.target
  ctrWf : Table.wf 0 pr.ctr = true
  localWf : Table.wf 0 pr.localTable = true
  globalWf : Table.wf 0 pr.globalTable = true
  chooserWf : Table.wf 0 pr.chooser = true
  ctrBelow : Table.below (2 ^ cfg.ctrBits) pr.ctr = true
  localBelow : Table.below (2 ^ cfg.ctrBits) pr.localTable = true
  globalBelow : Table.below (2 ^ cfg.ghrBits) pr.globalTable = true
  chooserBelow : Table.below (2 ^ cfg.ctrBits) pr.chooser = true
  ghrBound : pr.ghr < 2 ^ cfg.ghrBits

/-- The invariant of the sequential level: both memories in canonical form and within their depths (R77), x0's entry 0 (R31),
the PC a multiple of 4 (R39), and the predictor's. -/
structure Inv (s : State) : Prop where
  imemWf : s.imem.wf = true
  dmemWf : s.dmem.wf = true
  imemBelow : Table.below (4 * s.cfg.imemDepth) s.imem = true
  dmemBelow : Table.below (4 * s.cfg.dmemDepth) s.dmem = true
  zeroReg : s.regs[0] = 0
  pcAligned : Aligned s.pc
  predictor : PredictorInv s.cfg s.predictor

/-- A packet's control is one a decoder can emit: at most one of a transfer, a memory access and a unit operation, and no
destination for a store or a halt (R133). -/
structure ControlInv (c : ControlPacket) : Prop where
  storeDest : c.memOp = .store → c.destReg = 0
  haltInert : c.haltFlag = true → c.destReg = 0 ∧ c.memOp = .none ∧ c.branchKind = .none
  memoryOnly : c.memOp ≠ .none → c.branchKind = .none ∧ c.aluOp = .add
  transferOnly : c.branchKind ≠ .none → c.memOp = .none ∧ c.aluOp = .add

/-- The invariant of the cycle level. -/
structure PipeInv (s : State) : Prop extends Inv s where
  prevAligned : Aligned s.pipe.prevPc
  ifidAligned : Aligned s.pipe.ifid.pc
  savedAligned : Aligned s.pipe.saved.pc
  deAligned : Aligned s.pipe.de.pc
  emAligned : Aligned s.pipe.em.pc
  mwAligned : Aligned s.pipe.mw.pc
  btAligned : Aligned s.pipe.btReg
  /-- A flush never meets a stall of the cycle before (R420). -/
  stallNoFlush : s.pipe.stallQ = true → s.pipe.btReg = 0
  deControl : ControlInv s.pipe.de.ctrl
  /-- A marked packet is inert (R354). -/
  deMarked : s.pipe.de.fault ≠ none → s.pipe.de.ctrl = IdEx.bubble.ctrl
  emInert : (s.pipe.em.fault ≠ none ∨ s.pipe.em.haltFlag = true) → s.pipe.em.destReg = 0 ∧ s.pipe.em.memOp = .none
  emStoreDest : s.pipe.em.memOp = .store → s.pipe.em.destReg = 0
  /-- What has accessed memory had a legal address (R256). -/
  emAccess : s.pipe.em.memOp ≠ .none → accessFault s.cfg 0 s.pipe.em.result s.pipe.em.memWidth = none
  mwInert : (s.pipe.mw.fault ≠ none ∨ s.pipe.mw.haltFlag = true) → s.pipe.mw.destReg = 0
  /-- The multiplier is busy in stages 1 to 3 and ready in stage 3 only (R290, R291). -/
  mulBusy : s.mul.busy = true ↔ s.mul.stage ≠ 0
  mulReady : s.mul.ready = true ↔ s.mul.stage = 3
  /-- A busy unit holds an un-flushed instruction of its own class in EX (R287, R289). -/
  mulHeld : s.mul.busy = true →
    s.pipe.btReg = 0 ∧ s.pipe.de.fault = none ∧
      mulRequest s.pipe.de.ctrl.aluOp =
        some { aSigned := s.mul.aSigned, bSigned := s.mul.bSigned, wantHigh := s.mul.wantHigh }
  divHeld : s.div.state ≠ .idle →
    s.pipe.btReg = 0 ∧ s.pipe.de.fault = none ∧ (divRequest s.pipe.de.ctrl.aluOp).isSome = true
  /-- The iteration counter (R311). -/
  divCount : s.div.state = .working → 1 ≤ s.div.count ∧ s.div.count ≤ s.cfg.divImpl.iterations

/-! ### What the pipeline promises -/

/-- The value of a register that the instructions in EX, MEM and WB and the register file will have committed once they are
through, given that the instruction in EX completes in this cycle with a result of its own: the youngest writer's (R405,
R409). -/
def State.pending (s : State) (r : Reg) : Word :=
  if r = 0 then 0
  else if r = s.pipe.de.ctrl.destReg then s.execute.em.result
  else if r = s.pipe.em.destReg then s.memValue
  else if r = s.pipe.mw.destReg then s.pipe.mw.value
  else s.reg r

/-- A divider started on its operands and left alone for `n` cycles (R306, R309 to R311). -/
def Divider.after (impl : DivImpl) : Nat → Divider → Divider
  | 0, d => d
  | n + 1, d => (Divider.after impl n d).tick impl

/-- A multiplier left alone for `n` cycles (R290). -/
def Multiplier.after : Nat → Multiplier → Multiplier
  | 0, m => m
  | n + 1, m => (Multiplier.after n m).tick

end Sys2Proof.Machine
end

