-- ==== Sys2Proof/Certificates/Slice0/Obligations.lean ====
section
/-! DEFINITION. The statements for the provers, each from the rules of spec/ it names. -/

open Sys2Proof Sys2Proof.Machine

/-! ### Encoding and decoding -/

/-- Every well-formed instruction is decoded from its word, with every operand at every value the encoding admits (R100 to
R113). -/
def Obligations.DecodeEncodeRoundTrip : Prop :=
  ∀ i : Instr, i.wellFormed = true → decode (encode i) = .instr i

/-- R114: no word matches two rows, so the OR of R109 combines one row with the all-zero point; the one overlap of a halt word
with a row is 0xFE000FA3 with SB, and the halt wins. -/
def Obligations.ControlTableRowsDisjoint : Prop :=
  (∀ (w : Word) (i j : Nat) (hi : i < controlTable.length) (hj : j < controlTable.length),
    controlTable[i].hits w = true → controlTable[j].hits w = true → i = j) ∧
  (∀ (i : Nat) (hi : i < controlTable.length) (w : Word), isHaltWord w = true → controlTable[i].hits w = true →
    i = 15 ∧ w = 0xFE000FA3) ∧
  decode 0xFE000FA3 = .instr .haltSb ∧ (decodeControl 0xFE000FA3).ctrl.haltFlag = true

/-- A word of each family, written out from the formats of R102 and the keys of R113, decodes to the instruction it stands
for (95_test_vectors.md 2.1). -/
def Obligations.WordsDecodeAsWritten : Prop :=
  decode 0b11111111111111111111_00101_0110111 = .instr (.lui 5 0xFFFFF) ∧
  decode 0b111111111101_11111111_00000_1101111 = .instr (.jal 0 (-4)) ∧
  decode 0b000000000100_00101_000_00001_1100111 = .instr (.jalr 1 5 4) ∧
  decode 0b1000000_00010_00001_111_00000_1100011 = .instr (.bgeu 1 2 (-4096)) ∧
  decode 0b111111111110_00001_101_00011_0000011 = .instr (.lhu 3 1 (-2)) ∧
  decode 0b0111111_00010_00001_010_11100_0100011 = .instr (.sw 2 1 2044) ∧
  decode 0b100000000000_00110_000_00101_0010011 = .instr (.addi 5 6 (-2048)) ∧
  decode 0b0100000_11111_00110_101_00101_0010011 = .instr (.srai 5 6 31) ∧
  decode 0b0100000_00100_00000_000_00101_0110011 = .instr (.sub 5 0 4) ∧
  decode 0b0000001_01100_01011_111_10000_0110011 = .instr (.remu 16 11 12) ∧
  decode 0b000000000000_00000_000_00000_1110011 = .instr .ecall

/-- R117: the words that match no row. An opcode outside the map, a SYSTEM word that is no halt word, the reserved funct3 values
of JALR, BRANCH, LOAD and STORE, and the OP words with bit 30 set where no row sets it. -/
def Obligations.ReservedWordsHaveNoRow : Prop :=
  ∀ w : Word, w ≠ 0 → isHaltWord w = false →
    ((opcodeOf w ∉ [0b0110111#7, 0b0010111#7, 0b1101111#7, 0b1100111#7, 0b1100011#7, 0b0000011#7, 0b0100011#7,
        0b0010011#7, 0b0110011#7]) ∨
      (opcodeOf w = 0b1100111#7 ∧ funct3Of w ≠ 0) ∨
      (opcodeOf w = 0b1100011#7 ∧ (funct3Of w = 2 ∨ funct3Of w = 3)) ∨
      (opcodeOf w = 0b0000011#7 ∧ (funct3Of w = 3 ∨ funct3Of w = 6 ∨ funct3Of w = 7)) ∨
      (opcodeOf w = 0b0100011#7 ∧ 3 ≤ (funct3Of w).toNat) ∨
      (opcodeOf w = 0b0110011#7 ∧ bit30Of w = true ∧ bit25Of w = false ∧ funct3Of w ≠ 0 ∧ funct3Of w ≠ 5) ∨
      (opcodeOf w = 0b0110011#7 ∧ bit30Of w = true ∧ bit25Of w = true)) →
    decode w = .noRow w ∧ (decodeControl w).ctrl = ControlPacket.inert

/-- R111: `halt_flag` is set for exactly the three halt words, and their decoded control is inert. -/
def Obligations.HaltFlagExactly : Prop :=
  ∀ w : Word,
    ((decodeControl w).ctrl.haltFlag = true ↔ w = 0x00000073 ∨ w = 0x00100073 ∨ w = 0xFE000FA3) ∧
    ((decodeControl w).ctrl.haltFlag = true →
      (decodeControl w).ctrl.destReg = 0 ∧ (decodeControl w).ctrl.memOp = .none ∧
        (decodeControl w).ctrl.branchKind = .none ∧ (decodeControl w).used1 = false ∧
        (decodeControl w).used2 = false)

/-- R133: `dest_reg` is rd for a row that writes rd, and 0 for branches, stores, halts, the all-zero control point and every word
whose rd field is 0. -/
def Obligations.DestRegIsZeroWithoutWriteback : Prop :=
  ∀ w : Word,
    (opcodeOf w = 0b1100011#7 ∨ opcodeOf w = 0b0100011#7 ∨ isHaltWord w = true ∨ decode w = .noRow w ∨ rdOf w = 0 →
      (decodeControl w).ctrl.destReg = 0) ∧
    (∀ i, decode w = .instr i → isHaltWord w = false → opcodeOf w ≠ 0b1100011#7 → opcodeOf w ≠ 0b0100011#7 →
      (decodeControl w).ctrl.destReg = rdOf w)

/-- R134: the used flags. rs1 is used by JALR, branches, loads, stores, OP-IMM, OP and M; rs2 by branches, stores, OP and M;
neither by LUI, AUIPC, JAL, a halt word or a word with no row. -/
def Obligations.UsedFlagsFollowTheRow : Prop :=
  ∀ w : Word,
    (isHaltWord w = true ∨ decode w = .noRow w →
      (decodeControl w).used1 = false ∧ (decodeControl w).used2 = false) ∧
    (∀ i, w ≠ 0 → isHaltWord w = false → decode w = .instr i →
      ((decodeControl w).used1 = true ↔
        opcodeOf w ∈ [0b1100111#7, 0b1100011#7, 0b0000011#7, 0b0100011#7, 0b0010011#7, 0b0110011#7]) ∧
      ((decodeControl w).used2 = true ↔ opcodeOf w ∈ [0b1100011#7, 0b0100011#7, 0b0110011#7]))

/-! ### The step -/

/-- A step runs the decoded instruction: where the word at the PC is fetched and passes the STRICT_DECODE check, `step` is `exec` of
the instruction it decodes to, at the same state (nothing is added around `exec`: each meaning sets the PC itself); a
word with no row only advances the PC (R337). -/
def Obligations.StepRunsTheDecodedInstruction : Prop :=
  ∀ s : State, s.run = .running → s.pc.toNat / 4 < s.cfg.imemDepth →
    (s.cfg.strictDecode = true → isCanonical (s.imem.word (s.pc.toNat / 4)) = true) →
    (∀ i, decode (s.imem.word (s.pc.toNat / 4)) = .instr i → step s = exec i s) ∧
    (∀ w, decode (s.imem.word (s.pc.toNat / 4)) = .noRow w → step s = .next { s with pc := s.pc + 4 })

/-- R357 at the sequential level, up to the instruction's own checks: FetchOutOfRange first, then the halt words, then
NonCanonicalEncoding. An ended run is not stepped, and a faulted one stays faulted (R353, R369). -/
def Obligations.StepChecksInOrder : Prop :=
  ∀ s : State,
    (s.run = .running → s.cfg.imemDepth ≤ s.pc.toNat / 4 → step s = .fault (.fetchOutOfRange s.pc)) ∧
    (s.run = .running → s.pc.toNat / 4 < s.cfg.imemDepth → isHaltWord (s.imem.word (s.pc.toNat / 4)) = true →
      ∃ t, step s = .next t ∧ t.run = .halted) ∧
    (s.run = .running → s.pc.toNat / 4 < s.cfg.imemDepth → s.cfg.strictDecode = true →
      isCanonical (s.imem.word (s.pc.toNat / 4)) = false →
      step s = .fault (.nonCanonicalEncoding s.pc (s.imem.word (s.pc.toNat / 4)))) ∧
    (s.run = .halted → step s = .refused .runEnded) ∧
    (∀ f, s.run = .faulted f → step s = .fault f)

/-- The word placed for the host is the word the next fetch reads, and only the fetched bytes of instruction memory change. -/
def Obligations.PlacedWordIsFetched : Prop :=
  ∀ (s : State) (w : Word),
    (s.withFetchWord 32 w.toNat).fetch = w ∧
    ∀ a, (a < 4 * (s.pc.toNat / 4) ∨ 4 * (s.pc.toNat / 4) + 4 ≤ a) →
      (s.withFetchWord 32 w.toNat).imem.byte a = s.imem.byte a

/-! ### Integer computational instructions -/

/-- R161: the ALU functions. -/
def Obligations.AluFunctions : Prop :=
  ∀ a b : Word,
    aluFn .none a b = 0 ∧
    (aluFn .add a b).toNat = (a.toNat + b.toNat) % 2 ^ 32 ∧
    ((aluFn .sub a b).toNat : Int) = ((a.toNat : Int) - b.toNat) % 2 ^ 32 ∧
    (aluFn .sll a b).toNat = a.toNat * 2 ^ (b.toNat % 32) % 2 ^ 32 ∧
    aluFn .slt a b = (if a.toInt < b.toInt then 1 else 0) ∧
    aluFn .sltu a b = (if a.toNat < b.toNat then 1 else 0) ∧
    (aluFn .srl a b).toNat = a.toNat / 2 ^ (b.toNat % 32) ∧
    (aluFn .sra a b).toInt = a.toInt / 2 ^ (b.toNat % 32) ∧
    (∀ k, (aluFn .xor a b).getLsbD k = (a.getLsbD k != b.getLsbD k)) ∧
    (∀ k, (aluFn .or a b).getLsbD k = (a.getLsbD k || b.getLsbD k)) ∧
    (∀ k, (aluFn .and a b).getLsbD k = (a.getLsbD k && b.getLsbD k))

/-- LUI and AUIPC (R163, R164): their results and their frame; they complete in every state. -/
def Obligations.UpperImmediateResults : Prop :=
  ∀ (s : State) (rd : Reg) (imm : BitVec 20),
    (∃ t v, exec (.lui rd imm) s = .next t ∧ Retires s t rd v ∧ v.toNat = imm.toNat * 2 ^ 12) ∧
    (∃ t v, exec (.auipc rd imm) s = .next t ∧ Retires s t rd v ∧
      v.toNat = (s.pc.toNat + imm.toNat * 2 ^ 12) % 2 ^ 32)

/-- ADDI, SLTI and SLTIU (R165 to R167): their results and their frame. The immediate is sign-extended first, also where the
comparison is unsigned. -/
def Obligations.AddAndCompareImmediateResults : Prop :=
  ImmediateForm .addi (fun a imm v => (v.toNat : Int) = ((a.toNat : Int) + imm.toInt) % 2 ^ 32) ∧
  ImmediateForm .slti (fun a imm v => v = if a.toInt < imm.toInt then 1 else 0) ∧
  ImmediateForm .sltiu (fun a imm v => v = if (a.toNat : Int) < imm.toInt % 2 ^ 32 then 1 else 0)

/-- XORI, ORI and ANDI (R168 to R170): bit by bit, the immediate's bit 11 standing for every bit above it. -/
def Obligations.LogicImmediateResults : Prop :=
  ImmediateForm .xori (fun a imm v => ∀ k < 32, v.getLsbD k = (a.getLsbD k != imm.getLsbD (min k 11))) ∧
  ImmediateForm .ori (fun a imm v => ∀ k < 32, v.getLsbD k = (a.getLsbD k || imm.getLsbD (min k 11))) ∧
  ImmediateForm .andi (fun a imm v => ∀ k < 32, v.getLsbD k = (a.getLsbD k && imm.getLsbD (min k 11)))

/-- SLLI, SRLI and SRAI (R171 to R173). -/
def Obligations.ShiftImmediateResults : Prop :=
  ImmediateForm .slli (fun a sh v => v.toNat = a.toNat * 2 ^ sh.toNat % 2 ^ 32) ∧
  ImmediateForm .srli (fun a sh v => v.toNat = a.toNat / 2 ^ sh.toNat) ∧
  ImmediateForm .srai (fun a sh v => v.toInt = a.toInt / 2 ^ sh.toNat)

/-- ADD, SUB, SLT and SLTU (R174, R175, R177, R178). -/
def Obligations.AddAndCompareRegisterResults : Prop :=
  RegisterForm .add (fun a b v => v.toNat = (a.toNat + b.toNat) % 2 ^ 32) ∧
  RegisterForm .sub (fun a b v => (v.toNat : Int) = ((a.toNat : Int) - b.toNat) % 2 ^ 32) ∧
  RegisterForm .slt (fun a b v => v = if a.toInt < b.toInt then 1 else 0) ∧
  RegisterForm .sltu (fun a b v => v = if a.toNat < b.toNat then 1 else 0)

/-- XOR, OR and AND (R179, R182, R183), bit by bit. -/
def Obligations.LogicRegisterResults : Prop :=
  RegisterForm .xor (fun a b v => ∀ k, v.getLsbD k = (a.getLsbD k != b.getLsbD k)) ∧
  RegisterForm .or (fun a b v => ∀ k, v.getLsbD k = (a.getLsbD k || b.getLsbD k)) ∧
  RegisterForm .and (fun a b v => ∀ k, v.getLsbD k = (a.getLsbD k && b.getLsbD k))

/-- SLL, SRL and SRA (R176, R180, R181): the amount is `x[rs2] mod 32`. -/
def Obligations.ShiftRegisterResults : Prop :=
  RegisterForm .sll (fun a b v => v.toNat = a.toNat * 2 ^ (b.toNat % 32) % 2 ^ 32) ∧
  RegisterForm .srl (fun a b v => v.toNat = a.toNat / 2 ^ (b.toNat % 32)) ∧
  RegisterForm .sra (fun a b v => v.toInt = a.toInt / 2 ^ (b.toNat % 32))

/-! ### Multiply and divide -/

/-- R280: MUL, MULH, MULHSU and MULHU on every pair of operands. -/
def Obligations.MultiplyResults : Prop :=
  RegisterForm .mul (fun a b v => v.toNat = a.toNat * b.toNat % 2 ^ 32) ∧
  RegisterForm .mulh (fun a b v => v.toInt = a.toInt * b.toInt / 2 ^ 32) ∧
  RegisterForm .mulhsu (fun a b v => v.toInt = a.toInt * b.toNat / 2 ^ 32) ∧
  RegisterForm .mulhu (fun a b v => v.toNat = a.toNat * b.toNat / 2 ^ 32)

/-- R300 and R301: DIV, DIVU, REM and REMU on every pair of operands, with the divider's `error` flag; no operand stops them.
A zero divisor gives all ones and the dividend; signed overflow gives INT_MIN and 0; otherwise the quotient is truncated
toward 0 and the remainder has the dividend's sign. -/
def Obligations.DivideResults : Prop :=
  DivideForm .div
    (fun n d v =>
      (d = 0 → v = 0xFFFFFFFF) ∧ (n = 0x80000000 → d = 0xFFFFFFFF → v = 0x80000000) ∧
      (d ≠ 0 → ¬(n = 0x80000000 ∧ d = 0xFFFFFFFF) → v.toInt = n.toInt.tdiv d.toInt))
    (fun n d => d = 0 ∨ n = 0x80000000 ∧ d = 0xFFFFFFFF) ∧
  DivideForm .rem
    (fun n d v =>
      (d = 0 → v = n) ∧ (n = 0x80000000 → d = 0xFFFFFFFF → v = 0) ∧
      (d ≠ 0 → ¬(n = 0x80000000 ∧ d = 0xFFFFFFFF) → v.toInt = n.toInt.tmod d.toInt))
    (fun n d => d = 0 ∨ n = 0x80000000 ∧ d = 0xFFFFFFFF) ∧
  DivideForm .divu
    (fun n d v => (d = 0 → v = 0xFFFFFFFF) ∧ (d ≠ 0 → v.toNat = n.toNat / d.toNat)) (fun _ d => d = 0) ∧
  DivideForm .remu
    (fun n d v => (d = 0 → v = n) ∧ (d ≠ 0 → v.toNat = n.toNat % d.toNat)) (fun _ d => d = 0)

/-- "For all D ≠ 0, N: quotient * D + remainder == N" (R300), in 32-bit arithmetic, for the signed and the unsigned pair. -/
def Obligations.QuotientTimesDivisorPlusRemainder : Prop :=
  ∀ (s t u : State) (rd rs1 rs2 : Reg), rd ≠ 0 → s.reg rs2 ≠ 0 →
    (exec (.div rd rs1 rs2) s = .next t → exec (.rem rd rs1 rs2) s = .next u →
      t.reg rd * s.reg rs2 + u.reg rd = s.reg rs1) ∧
    (exec (.divu rd rs1 rs2) s = .next t → exec (.remu rd rs1 rs2) s = .next u →
      t.reg rd * s.reg rs2 + u.reg rd = s.reg rs1)

/-- R291: the multiplier is ready exactly three cycles after it accepts, never earlier, and then presents the result of R280. -/
def Obligations.MultiplierLatency : Prop :=
  ∀ (m : Multiplier) (q : MulRequest) (a b : Word), m.busy = false → m.ready = false →
    ((m.accept q a b).after 0).ready = false ∧ ((m.accept q a b).after 1).ready = false ∧
      ((m.accept q a b).after 2).ready = true ∧
      ((m.accept q a b).after 2).output = mulResult q a b ∧
      ((m.accept q a b).after 2).consume.ready = false ∧ ((m.accept q a b).after 2).consume.busy = false

/-- R309: the special cases at entry take one cycle, in state ERROR for a zero divisor and DIV_1 for a divisor of 1, and present
the results of R300. -/
def Obligations.DividerSpecialCases : Prop :=
  ∀ (d : Divider) (q : DivRequest) (n dv : Word), (dv = 0 ∨ dv = 1) →
    (d.accept q n dv).ready = true ∧ (d.accept q n dv).output = divResult q n dv ∧
      (d.accept q n dv).error = divError q.isSigned n dv ∧
      ((d.accept q n dv).state = .error ↔ dv = 0) ∧ ((d.accept q n dv).state = .div1 ↔ dv = 1)

/-- R312, R315, R318: under either variant, a divider started on a divisor other than 0 and 1 is not ready before
`DIV_ITER + 1` further cycles, and then presents the result of R300 and the error flag of R310. -/
def Obligations.DividerEngineComputesTheResultTable : Prop :=
  ∀ (impl : DivImpl) (d : Divider) (q : DivRequest) (n dv : Word), dv ≠ 0 → dv ≠ 1 →
    (∀ k, k ≤ impl.iterations → ((d.accept q n dv).after impl k).ready = false) ∧
    ((d.accept q n dv).after impl (impl.iterations + 1)).state = .ended ∧
    ((d.accept q n dv).after impl (impl.iterations + 1)).output = divResult q n dv ∧
    ((d.accept q n dv).after impl (impl.iterations + 1)).error = divError q.isSigned n dv

/-! ### Control transfers -/

/-- JAL and JALR (R207, R208, R202 to R204): the link is `pc + 4`, the target of JALR is computed from the old x[rs1] with
bit 0 cleared, and they complete whenever the target is a multiple of 4 other than 0. -/
def Obligations.JumpResults : Prop :=
  (∀ (s : State) (rd : Reg) (offset : BitVec 21),
    Aligned (s.pc + offset.signExtend 32) → s.pc + offset.signExtend 32 ≠ 0 →
    ∃ t, exec (.jal rd offset) s = .next t ∧ Transfers s t rd true (s.pc + offset.signExtend 32)) ∧
  (∀ (s : State) (rd rs1 : Reg) (imm : BitVec 12) (target : Word), s.holds rs1 = true →
    target.toNat = (s.reg rs1 + imm.signExtend 32).toNat / 2 * 2 → Aligned target → target ≠ 0 →
    ∃ t, exec (.jalr rd rs1 imm) s = .next t ∧ Transfers s t rd true target)

/-- The conditional branches (R209 to R214, R201 to R203): when each is taken, where it goes, and its frame. -/
def Obligations.BranchResults : Prop :=
  BranchForm .beq (fun a b => a = b) ∧ BranchForm .bne (fun a b => a ≠ b) ∧
  BranchForm .blt (fun a b => a.toInt < b.toInt) ∧ BranchForm .bge (fun a b => b.toInt ≤ a.toInt) ∧
  BranchForm .bltu (fun a b => a.toNat < b.toNat) ∧ BranchForm .bgeu (fun a b => b.toNat ≤ a.toNat)

/-- R205 and R206: a taken transfer to a target that is no multiple of 4 faults `MisalignedFetch`; a transfer that resolves to 0
faults `RedirectToZero`; MisalignedFetch is the one reported first. Nothing is written (a fault has no next state). -/
def Obligations.TransferFaults : Prop :=
  (∀ (s : State) (rd : Reg) (offset : BitVec 21),
    (¬Aligned (s.pc + offset.signExtend 32) →
      exec (.jal rd offset) s = .fault (.misalignedFetch s.pc (s.pc + offset.signExtend 32))) ∧
    (s.pc + offset.signExtend 32 = 0 → exec (.jal rd offset) s = .fault (.redirectToZero s.pc))) ∧
  (∀ (s : State) (rd rs1 : Reg) (imm : BitVec 12) (target : Word), s.holds rs1 = true →
    target.toNat = (s.reg rs1 + imm.signExtend 32).toNat / 2 * 2 →
    (¬Aligned target → exec (.jalr rd rs1 imm) s = .fault (.misalignedFetch s.pc target)) ∧
    (target = 0 → exec (.jalr rd rs1 imm) s = .fault (.redirectToZero s.pc))) ∧
  BranchFaults .beq (fun a b => a = b) ∧ BranchFaults .bne (fun a b => a ≠ b) ∧
  BranchFaults .blt (fun a b => a.toInt < b.toInt) ∧ BranchFaults .bge (fun a b => b.toInt ≤ a.toInt) ∧
  BranchFaults .bltu (fun a b => a.toNat < b.toNat) ∧ BranchFaults .bgeu (fun a b => b.toNat ≤ a.toNat)

/-! ### Loads, stores and memory -/

/-- The loads (R259 to R263, R250, R252, R73): little-endian, sign- or zero-extended, and their frame. -/
def Obligations.LoadResults : Prop :=
  LoadForm .lb 1 (fun m a => (m a).signExtend 32) ∧
  LoadForm .lbu 1 (fun m a => (m a).setWidth 32) ∧
  LoadForm .lh 2 (fun m a => (m (a + 1) ++ m a).signExtend 32) ∧
  LoadForm .lhu 2 (fun m a => (m (a + 1) ++ m a).setWidth 32) ∧
  LoadForm .lw 4 (fun m a => m (a + 3) ++ m (a + 2) ++ m (a + 1) ++ m a)

/-- The stores (R265 to R267, R250, R254, R75): exactly the bytes from the effective address on, and their frame. -/
def Obligations.StoreResults : Prop :=
  StoreForm .sb 1 ∧ StoreForm .sh 2 ∧ StoreForm .sw 4

/-- R256: a load or store with a misaligned effective address faults `MisalignedAccess`, one beyond the data memory
`DataOutOfRange`, and where both apply MisalignedAccess is reported. Byte accesses need no alignment. -/
def Obligations.AccessFaults : Prop :=
  ∀ (s : State) (rd rs1 rs2 : Reg) (imm : BitVec 12) (ea : Word), s.holds rs1 = true → s.holds rs2 = true →
    ea = s.reg rs1 + imm.signExtend 32 →
    (∀ i ∈ [Instr.lh rd rs1 imm, .lhu rd rs1 imm, .sh rs2 rs1 imm], ea.toNat % 2 ≠ 0 →
      exec i s = .fault (.misalignedAccess s.pc ea)) ∧
    (∀ i ∈ [Instr.lw rd rs1 imm, .sw rs2 rs1 imm], ea.toNat % 4 ≠ 0 →
      exec i s = .fault (.misalignedAccess s.pc ea)) ∧
    (∀ i ∈ [Instr.lb rd rs1 imm, .lbu rd rs1 imm, .sb rs2 rs1 imm], s.cfg.dmemDepth ≤ ea.toNat / 4 →
      exec i s = .fault (.dataOutOfRange s.pc ea)) ∧
    (∀ i ∈ [Instr.lh rd rs1 imm, .lhu rd rs1 imm, .sh rs2 rs1 imm], ea.toNat % 2 = 0 →
      s.cfg.dmemDepth ≤ ea.toNat / 4 → exec i s = .fault (.dataOutOfRange s.pc ea)) ∧
    (∀ i ∈ [Instr.lw rd rs1 imm, .sw rs2 rs1 imm], ea.toNat % 4 = 0 →
      s.cfg.dmemDepth ≤ ea.toNat / 4 → exec i s = .fault (.dataOutOfRange s.pc ea))

/-- R74: `MemRead` in terms of the word that holds the address is the bytes at the address, the lowest first. -/
def Obligations.MemReadIsTheBytes : Prop :=
  ∀ (m : Memory) (a : Word),
    m.load a .b .u = (m.byte a.toNat).setWidth 32 ∧
    (a.toNat % 2 = 0 → m.load a .h .u = (m.byte (a.toNat + 1) ++ m.byte a.toNat).setWidth 32) ∧
    (a.toNat % 4 = 0 →
      m.load a .w .u = m.byte (a.toNat + 3) ++ m.byte (a.toNat + 2) ++ m.byte (a.toNat + 1) ++ m.byte a.toNat)

/-- R75 and R81: after a store, every aligned read of a width sees the stored bytes where it overlaps them and the old bytes
elsewhere; in particular a read of the stored width gives the stored value back. -/
def Obligations.LoadAfterStore : Prop :=
  ∀ (m : Memory) (a v : Word) (width : MemWidth), misalignedFor width a = false →
    (m.store a width v).load a width .u =
      (match width with
        | .b => (v.extractLsb' 0 8).setWidth 32
        | .h => (v.extractLsb' 0 16).setWidth 32
        | .w => v) ∧
    ∀ b, (m.store a width v).byte b =
      if a.toNat ≤ b ∧ b < a.toNat + widthBytes width then v.extractLsb' (8 * (b - a.toNat)) 8 else m.byte b

/-! ### Halts, no-ops and unwritten registers -/

/-- R333 and R356: the three halt words end the run; no register and no PC is written, and the log holds the registers that hold
a value, x0 first. No memory is written but the bytes that the stores behind the halt address, which R88 leaves unspecified
(log entries 6 and 9): none where neither of the two words behind it is a store and the first is no control transfer. -/
def Obligations.HaltWordsEndTheRun : Prop :=
  ∀ (s : State), ∀ i ∈ [Instr.ecall, .ebreak, .haltSb],
    ∃ t, exec i s = .next t ∧ Halts s t ∧ t.haltLog.length = 32 ∧
      (∀ r : Reg, s.holds r = true → t.haltLog[r.toNat]? = some (s.reg r)) ∧
      (opcodeOf (s.imem.word ((s.pc + 4).toNat / 4)) ∉ [0b0100011#7, 0b1100011#7, 0b1101111#7, 0b1100111#7] →
        opcodeOf (s.imem.word ((s.pc + 8).toNat / 4)) ≠ 0b0100011#7 → SameMemory s t)

/-- R88: which bytes a halt leaves unspecified. They take in those that a store in the word behind it addresses, and those that
a store in the word that runs after that one addresses, at the operands that one leaves, where it follows into EX at once
(R287, R410). -/
def Obligations.StoresBehindAHalt : Prop :=
  ∀ (s : State) (mk : Reg → Reg → BitVec 12 → Instr) (width : MemWidth) (rs2 rs1 : Reg) (imm : BitVec 12),
    (mk, width) ∈ [(Instr.sb, MemWidth.b), (.sh, .h), (.sw, .w)] →
    (∀ ea : Word, (s.pc + 4).toNat / 4 < s.cfg.imemDepth →
      decode (s.imem.word ((s.pc + 4).toNat / 4)) = .instr (mk rs2 rs1 imm) →
      s.holds rs1 = true → ea = s.reg rs1 + imm.signExtend 32 → ea.toNat % widthBytes width = 0 →
      ea.toNat / 4 < s.cfg.dmemDepth → (ea.toNat, widthBytes width) ∈ s.storesBehind s.pc) ∧
    (∀ (i : Instr) (u : State) (ea : Word), i.wellFormed = true → (s.pc + 4).toNat / 4 < s.cfg.imemDepth →
      s.imem.word ((s.pc + 4).toNat / 4) = encode i → exec i { s with pc := s.pc + 4 } = .next u → u.run = s.run →
      s.run = .running → u.pc.toNat / 4 < s.cfg.imemDepth →
      decode (s.imem.word (u.pc.toNat / 4)) = .instr (mk rs2 rs1 imm) →
      let c := (decodeControl (encode i)).ctrl
      mulRequest c.aluOp = none → divRequest c.aluOp = none →
      (c.memOp = .load → c.destReg = 0 ∨ c.destReg ≠ rs1 ∧ c.destReg ≠ rs2) →
      u.holds rs1 = true → ea = u.reg rs1 + imm.signExtend 32 → ea.toNat % widthBytes width = 0 →
      ea.toNat / 4 < s.cfg.dmemDepth → (ea.toNat, widthBytes width) ∈ s.storesBehind s.pc)

/-- R334 and R335: NOP and the zero word change nothing but the PC. -/
def Obligations.NopAndZeroWordOnlyAdvance : Prop :=
  ∀ (s : State), ∀ i ∈ [Instr.nop, .zeroWord], exec i s = .next { s with pc := s.pc + 4 }

/-- R35 and R357: an instruction whose used source holds no value faults `UninitialisedRead`, for rs1 before rs2. -/
def Obligations.UnwrittenSourceFaults : Prop :=
  ∀ (s : State) (rd rs1 rs2 : Reg) (imm : BitVec 12) (sh : BitVec 5) (offset : BitVec 13),
    (s.holds rs1 = false →
      ∀ i ∈ [Instr.addi rd rs1 imm, .slti rd rs1 imm, .sltiu rd rs1 imm, .xori rd rs1 imm, .ori rd rs1 imm,
          .andi rd rs1 imm, .slli rd rs1 sh, .srli rd rs1 sh, .srai rd rs1 sh, .lb rd rs1 imm, .lh rd rs1 imm,
          .lw rd rs1 imm, .lbu rd rs1 imm, .lhu rd rs1 imm, .jalr rd rs1 imm],
        exec i s = .fault (.uninitialisedRead s.pc rs1)) ∧
    (s.holds rs1 = false ∨ s.holds rs2 = false →
      ∀ i ∈ [Instr.add rd rs1 rs2, .sub rd rs1 rs2, .sll rd rs1 rs2, .slt rd rs1 rs2, .sltu rd rs1 rs2,
          .xor rd rs1 rs2, .srl rd rs1 rs2, .sra rd rs1 rs2, .or rd rs1 rs2, .and rd rs1 rs2, .mul rd rs1 rs2,
          .mulh rd rs1 rs2, .mulhsu rd rs1 rs2, .mulhu rd rs1 rs2, .div rd rs1 rs2, .divu rd rs1 rs2,
          .rem rd rs1 rs2, .remu rd rs1 rs2, .beq rs1 rs2 offset, .bne rs1 rs2 offset, .blt rs1 rs2 offset,
          .bge rs1 rs2 offset, .bltu rs1 rs2 offset, .bgeu rs1 rs2 offset, .sb rs2 rs1 imm, .sh rs2 rs1 imm,
          .sw rs2 rs1 imm],
        exec i s = .fault (.uninitialisedRead s.pc (if s.holds rs1 then rs2 else rs1)))

/-- Where every register holds a value, no step of either level faults `UninitialisedRead` for a register it reads, and every
register goes on holding one. From the model's reset state (`RF_INIT = ZERO`, the model's choice, log entry 2) no read
ever faults. -/
def Obligations.HeldRegistersStayHeld : Prop :=
  AllHeld State.reset ∧
  (∀ s t : State, AllHeld s → step s = .next t → AllHeld t) ∧
  (∀ s t : State, AllHeld s → cycle s = .next t → AllHeld t) ∧
  (∀ (s : State) (pc : Word) (r : Reg), AllHeld s → s.run = .running →
    step s ≠ .fault (.uninitialisedRead pc r) ∧ ∀ (p : FetchPacket), p.fault = none →
      s.decodeFault p ≠ some (.uninitialisedRead pc r))

/-! ### Whole-machine rules of the sequential level -/

/-- R335, R369 and R77: a run that has passed its last instruction executes zero words, one a step, and then faults
`FetchOutOfRange` at the end of instruction memory, with registers and data memory as they were. With 2^30 words the PC
would wrap before that (R40), so the depth is at most 2^29. -/
def Obligations.RunPastTheEndFaults : Prop :=
  ∀ s : State, s.run = .running → s.cfg.imemBits ≤ 29 → Aligned s.pc → s.pc.toNat / 4 ≤ s.cfg.imemDepth →
    (∀ k, s.pc.toNat / 4 ≤ k → k < s.cfg.imemDepth → s.imem.word k = 0) →
    (∀ n, n ≤ s.cfg.imemDepth - s.pc.toNat / 4 → runSteps n s = { s with pc := s.pc + BitVec.ofNat 32 (4 * n) }) ∧
    ∃ t, t = runSteps (s.cfg.imemDepth - s.pc.toNat / 4 + 1) s ∧
      t.run = .faulted (.fetchOutOfRange (BitVec.ofNat 32 (4 * s.cfg.imemDepth))) ∧
      (∀ r, t.reg r = s.reg r) ∧ t.dmem = s.dmem

/-- R86, R44 and R8: no step changes instruction memory, the parameters, the multiplier or the pipeline's registers; no clock
cycle changes instruction memory or the parameters. -/
def Obligations.InstructionMemoryNeverChanges : Prop :=
  (∀ s t : State, step s = .next t → SameFixed s t) ∧
  (∀ s t : State, cycle s = .next t → t.imem = s.imem ∧ t.cfg = s.cfg)

/-- R43, R70 and R75: only SB, SH and SW change a byte of data memory, but for the bytes a halt leaves unspecified, those that the
stores behind it address (R88); and only JAL, JALR and the branches change the predictor. -/
def Obligations.OnlyStoresChangeMemory : Prop :=
  ∀ (s t : State) (i : Instr), exec i s = .next t →
    (∀ a, t.dmem.byte a ≠ s.dmem.byte a →
      (∃ rs2 rs1 imm, i = .sb rs2 rs1 imm ∨ i = .sh rs2 rs1 imm ∨ i = .sw rs2 rs1 imm) ∨
        (i = .ecall ∨ i = .ebreak ∨ i = .haltSb) ∧ ∃ r ∈ s.storesBehind s.pc, r.1 ≤ a ∧ a < r.1 + r.2) ∧
    (t.predictor ≠ s.predictor →
      (∃ rd offset, i = .jal rd offset) ∨ (∃ rd rs1 imm, i = .jalr rd rs1 imm) ∨
        ∃ rs1 rs2 offset, i = .beq rs1 rs2 offset ∨ i = .bne rs1 rs2 offset ∨ i = .blt rs1 rs2 offset ∨
          i = .bge rs1 rs2 offset ∨ i = .bltu rs1 rs2 offset ∨ i = .bgeu rs1 rs2 offset)

/-- R60: the reset values the spec gives, for every parameter setting, both values of `RF_INIT` and every pair of images. -/
def Obligations.ResetValues : Prop :=
  ∀ (cfg : Config) (rf : RfInit) (iwords dwords : List Word),
    let s := State.resetWith cfg rf (Memory.ofWords iwords) (Memory.ofWords dwords)
    s.pc = 0 ∧ s.reg 0 = 0 ∧ (∀ r : Reg, r ≠ 0 → (s.holds r = true ↔ rf = .zero)) ∧
    (rf = .zero → ∀ r, s.reg r = 0) ∧
    s.pipe.prevPc = 0 ∧ s.pipe.ifid.inst = 0 ∧ s.pipe.ifid.pc = 0 ∧ s.pipe.ifid.pred = 0 ∧ s.pipe.stallQ = false ∧
    s.pipe.saved.inst = 0 ∧ s.pipe.saved.pc = 0 ∧ s.pipe.saved.pred = 0 ∧
    s.pipe.de = IdEx.bubble ∧ s.pipe.em = ExMem.bubble ∧ s.pipe.dmemOut = 0 ∧
    s.pipe.mw.destReg = 0 ∧ s.pipe.mw.value = 0 ∧ s.pipe.mw.haltFlag = false ∧
    s.pipe.bypEx = 0 ∧ s.pipe.bypMem = 0 ∧ s.pipe.bypWb = 0 ∧ s.pipe.btReg = 0 ∧
    (∀ p, (s.predictor.entry cfg p).valid = false) ∧ s.predictor.ghr = 0 ∧
    (∀ i, counterAt s.predictor.ctr i = 0 ∧ counterAt s.predictor.localTable i = 0 ∧
      counterAt s.predictor.globalTable i = 0 ∧ counterAt s.predictor.chooser i = 0) ∧
    s.mul.busy = false ∧ s.mul.stage = 0 ∧ s.mul.ready = false ∧ s.div.state = .idle ∧ s.div.error = false ∧
    (∀ k, s.imem.word k = iwords.getD k 0 ∧ s.dmem.word k = dwords.getD k 0) ∧ s.run = .running

/-! ### The predictor -/

/-- R220 to R222: a taken transfer at p with target t writes the entry of p's index, the PC bits above the word-alignment bits,
and no other, and the BTB then hits at p; R218: a transfer that is not taken leaves the BTB unchanged. -/
def Obligations.BtbRoundTrip : Prop :=
  ∀ (cfg : Config) (pr : Predictor) (p target : Word),
    (pr.train cfg p true target).hit cfg p = true ∧
    (∀ q, (pr.train cfg p true target).entry cfg q =
      if q.toNat / 4 % 2 ^ cfg.btbBits = p.toNat / 4 % 2 ^ cfg.btbBits
      then { valid := true, tag := p, target := target } else pr.entry cfg q) ∧
    (pr.train cfg p false target).btb = pr.btb

/-- R226 (with R225): under TWO_BIT a PC is predicted taken exactly when the counter of its index is at least 2, and a transfer
moves that counter by one within 0..3 and no other counter. -/
def Obligations.TwoBitCounterUpdate : Prop :=
  ∀ (cfg : Config) (pr : Predictor) (p target : Word) (taken : Bool) (j : Nat), cfg.predictor = .twoBit →
    pr.dirTaken cfg p = decide (2 ≤ (counterAt pr.ctr (p.toNat / 4 % 2 ^ cfg.ctrBits)).val) ∧
    (counterAt (pr.train cfg p taken target).ctr j).val =
      if j = p.toNat / 4 % 2 ^ cfg.ctrBits then
        (if taken then min 3 ((counterAt pr.ctr j).val + 1) else (counterAt pr.ctr j).val - 1)
      else (counterAt pr.ctr j).val

/-- R227 to R229 (with R225): the tournament prediction and its updates, under both index functions of the global table. -/
def Obligations.TournamentUpdate : Prop :=
  ∀ (cfg : Config) (pr : Predictor) (p target : Word) (taken : Bool) (g : Nat), cfg.predictor ≠ .twoBit →
    g = (if cfg.predictor = .tournament then pr.ghr
      else (pr.ghr ^^^ (p.toNat / 4 % 2 ^ cfg.ctrBits)) % 2 ^ cfg.ghrBits) →
    let i := p.toNat / 4 % 2 ^ cfg.ctrBits
    let move := fun (c : Counter) (up : Bool) => if up then min 3 (c.val + 1) else c.val - 1
    let lp := decide (2 ≤ (counterAt pr.localTable i).val)
    let gp := decide (2 ≤ (counterAt pr.globalTable g).val)
    let u := pr.train cfg p taken target
    pr.dirTaken cfg p = (if 2 ≤ (counterAt pr.chooser i).val then gp else lp) ∧
    (counterAt u.localTable i).val = move (counterAt pr.localTable i) taken ∧
    (counterAt u.globalTable g).val = move (counterAt pr.globalTable g) taken ∧
    (counterAt u.chooser i).val =
      (if lp = gp then (counterAt pr.chooser i).val else move (counterAt pr.chooser i) (gp == taken)) ∧
    u.ghr = (2 * pr.ghr + taken.toNat) % 2 ^ cfg.ghrBits ∧
    (∀ j, j ≠ i → counterAt u.localTable j = counterAt pr.localTable j ∧
      counterAt u.chooser j = counterAt pr.chooser j) ∧
    (∀ j, j ≠ g → counterAt u.globalTable j = counterAt pr.globalTable j)

/-- R224 and R231: IF predicts the BTB's target only on a hit whose direction is predicted taken, and `pc + 4` otherwise; under
TWO_BIT from reset a transfer is first predicted after its second taken execution. -/
def Obligations.PredictionIsGated : Prop :=
  (∀ (cfg : Config) (pr : Predictor) (p : Word),
    pr.predict cfg p =
      if (pr.entry cfg p).valid = true ∧ (pr.entry cfg p).tag = p ∧ pr.dirTaken cfg p = true
      then (pr.entry cfg p).target else p + 4) ∧
  (∀ (cfg : Config) (p target : Word), cfg.predictor = .twoBit →
    let once := Predictor.reset.train cfg p true target
    let twice := once.train cfg p true target
    once.predict cfg p = p + 4 ∧ twice.predict cfg p = target)

/-! ### The pipeline -/

/-- R387 to R391, R416 to R419 and R422: a cycle under flush. The two instructions behind a mispredicted transfer, in ID and EX,
become bubbles: no memory, predictor or unit acts, no halt goes on, IF fetches the corrected PC, and the flush lasts one
cycle. -/
def Obligations.FlushSquashesTwo : Prop :=
  ∀ s t : State, s.run = .running → s.pipe.mw.fault = none → s.pipe.mw.haltFlag = false → s.pipe.btReg ≠ 0 →
    cycle s = .next t →
    t.pipe.em = ExMem.bubble ∧ t.pipe.de = IdEx.bubble ∧ t.pipe.stallQ = false ∧ t.pipe.btReg = 0 ∧
    t.pipe.bypEx = 0 ∧ t.pipe.dmemOut = s.pipe.dmemOut ∧ t.dmem = s.dmem ∧ t.predictor = s.predictor ∧
    t.pipe.ifid.pc = s.pipe.btReg ∧ t.pipe.prevPc = s.pipe.btReg ∧
    t.mul = s.mul.tick ∧ t.div = s.div.tick s.cfg.divImpl

/-- The EX-hold protocol (R287): a ready unit's result becomes the EX result of the instruction and the unit returns to idle; an
idle unit accepts the operands EX resolved; a working unit holds. While a unit holds EX, `de` and `byp_ex` keep their values,
a bubble goes to MEM, `bt_reg' = 0`, the predictor does not change, and ID stalls; `ex_hold` and `flush` never hold together
(R397). -/
def Obligations.UnitHold : Prop :=
  (∀ s : State, s.flush = false → s.pipe.de.fault = none →
    let x := s.pipe.de
    let a := forwarded s.pipe x.fwd1 x.rs1Val
    let b := forwarded s.pipe x.fwd2 x.rs2Val
    let o := s.execute
    let passed := fun (result : Word) => o.hold = false ∧ o.em.destReg = x.ctrl.destReg ∧ o.em.result = result ∧
      o.em.pc = x.pc ∧ o.em.memOp = x.ctrl.memOp ∧ o.em.haltFlag = x.ctrl.haltFlag ∧ o.em.fault = none ∧
      o.bypEx = result ∧ o.btReg = 0
    (∀ q, mulRequest x.ctrl.aluOp = some q →
      (s.mul.ready = true → passed s.mul.output ∧ o.mul.busy = false ∧ o.mul.ready = false ∧ o.mul.stage = 0) ∧
      (s.mul.ready = false → s.mul.busy = false → o.hold = true ∧ o.mul.busy = true ∧ o.mul.stage = 1 ∧
        o.mul.a = a ∧ o.mul.b = b ∧ o.mul.aSigned = q.aSigned ∧ o.mul.bSigned = q.bSigned ∧ o.mul.wantHigh = q.wantHigh) ∧
      (s.mul.ready = false → s.mul.busy = true → o.hold = true ∧ o.mul = s.mul.tick)) ∧
    (∀ q, divRequest x.ctrl.aluOp = some q →
      (s.div.ready = true → passed s.div.output ∧ o.div.state = .idle ∧ o.div.error = s.div.error) ∧
      (s.div.state = .idle → o.hold = true ∧ o.div = s.div.accept q a b) ∧
      (s.div.ready = false → s.div.state ≠ .idle → o.hold = true ∧ o.div = s.div.tick s.cfg.divImpl))) ∧
  ∀ s : State, s.execute.hold = true →
    s.flush = false ∧ s.clock.pipe.de = s.pipe.de ∧ s.clock.pipe.bypEx = s.pipe.bypEx ∧
    s.clock.pipe.em = ExMem.bubble ∧ s.clock.pipe.btReg = 0 ∧ s.clock.predictor = s.predictor ∧
    s.clock.pipe.stallQ = true ∧ s.clock.dmem = s.dmem

/-- What IF and ID write in a cycle (R393, R394, R396, R399 to R401): the word at the effective PC with the prediction made for it,
the PC to fetch next, and, without flush and stall, the packet of the word ID decodes; where ID marks that word, an inert
packet (R354). The model's choices in it: a marked packet's control is a bubble's in every field, those R354 does not fix
included (log entry 16), and a register that holds no value is latched as the 0 that `reg` reads (log entry 8). -/
def Obligations.FetchAndDecodeWrite : Prop :=
  ∀ s t : State, s.pipe.mw.haltFlag = false → cycle s = .next t →
    let eff := if s.pipe.btReg ≠ 0 then s.pipe.btReg else if s.pipe.stallQ then s.pipe.prevPc else s.pc
    let p := if s.pipe.btReg = 0 ∧ s.pipe.stallQ = true then s.pipe.saved else s.pipe.ifid
    let d := decodeControl p.inst
    (eff.toNat / 4 < s.cfg.imemDepth →
      t.pipe.ifid.inst = s.imem.word (eff.toNat / 4) ∧ t.pipe.ifid.fault = none) ∧
    (s.cfg.imemDepth ≤ eff.toNat / 4 → t.pipe.ifid.fault = some (.fetchOutOfRange eff)) ∧
    t.pipe.ifid.pc = eff ∧ t.pipe.ifid.pred = s.predictor.predict s.cfg eff ∧
    t.pc = s.predictor.predict s.cfg eff ∧ t.pipe.prevPc = eff ∧ t.pipe.saved = p ∧
    (s.pipe.btReg = 0 → t.pipe.stallQ = false →
      (s.decodeFault p = none →
        t.pipe.de.ctrl = { d.ctrl with predictedNextPc := p.pred } ∧ t.pipe.de.pc = p.pc ∧ t.pipe.de.imm = d.imm ∧
        t.pipe.de.rs1Val = s.reg d.rs1 ∧ t.pipe.de.rs2Val = s.reg d.rs2 ∧ t.pipe.de.fault = none) ∧
      (∀ f, s.decodeFault p = some f →
        t.pipe.de.fault = some f ∧ t.pipe.de.pc = p.pc ∧ t.pipe.de.ctrl = ControlPacket.inert))

/-- R410, R411 and R402: a load-use hazard puts one bubble into EX and makes ID decode the same word again; in the next cycle it
is no hazard, because the load is then in MEM. -/
def Obligations.LoadUseStallsOneCycle : Prop :=
  ∀ s : State, PipeInv s → s.flush = false → s.loadUse = true →
    s.clock.pipe.de = IdEx.bubble ∧ s.clock.pipe.stallQ = true ∧ s.clock.decodeSource = s.decodeSource ∧
    s.clock.fetchAddress = s.fetchAddress ∧ s.clock.loadUse = false ∧ s.clock.pipe.em.memOp ≠ .store

/-- R405 to R409: forwarding delivers the committed value. When ID sends a packet, the operand EX resolves in the next cycle for a
used source is the value of the youngest older writer still in the pipeline, and the register file's where there is
none. -/
def Obligations.ForwardingDeliversTheYoungest : Prop :=
  ∀ s : State, s.flush = false → s.execute.hold = false → s.loadUse = false → s.execute.em.fault = none →
    s.decodeFault s.decodeSource = none →
    let d := decodeControl s.decodeSource.inst
    let t := s.clock
    (d.used1 = true → forwarded t.pipe t.pipe.de.fwd1 t.pipe.de.rs1Val = s.pending d.rs1) ∧
    (d.used2 = true → forwarded t.pipe t.pipe.de.fwd2 t.pipe.de.rs2Val = s.pending d.rs2)

/-- R215 and R216: `bt_reg'` is the resolved next PC exactly on a miss, and 0 otherwise. A miss whose next PC is 0 leaves it 0: no
flush follows (R436). -/
def Obligations.MissWritesBranchTargetRegister : Prop :=
  ∀ (s : State) (x : IdEx) (a b : Word), x.fault = none → x.ctrl.branchKind ≠ .none → x.ctrl.aluOp = .add →
    let taken := branchTaken x.ctrl.branchKind a b
    let next := if taken then transferTarget x.ctrl.branchKind x.pc a x.imm else x.pc + 4
    (taken = true → Aligned next) →
    (s.exOn x a b).btReg = (if next = x.ctrl.predictedNextPc then 0 else next) ∧
    (s.exOn x a b).predictor =
      s.predictor.train s.cfg x.pc taken (transferTarget x.ctrl.branchKind x.pc a x.imm)

/-- R354, R355, R385 and R356: a halt or a fault in WB ends the run in that cycle, halted or with that fault, with the halt log and
the register file as at its start and nothing of the cycle committed; the cycle count is the number of that cycle plus
one. -/
def Obligations.HaltAndFaultTakeEffectInWriteBack : Prop :=
  ∀ s : State, s.run = .running →
    let ends := fun (t : State) (status : RunStatus) =>
      t.run = status ∧ t.cycles = s.cycles + 1 ∧ t.pc = s.pc ∧ t.predictor = s.predictor ∧ (∀ r, t.reg r = s.reg r) ∧
        t.haltLog.length = 32 ∧ (∀ r : Reg, s.holds r = true → t.haltLog[r.toNat]? = some (s.reg r)) ∧
        (∀ a, (∀ r ∈ s.storesBehind s.pipe.mw.pc, a < r.1 ∨ r.1 + r.2 ≤ a) →
          (s.pipe.em.memOp = .store → a < s.pipe.em.result.toNat ∨
            s.pipe.em.result.toNat + widthBytes s.pipe.em.memWidth ≤ a) →
          (s.execute.em.memOp = .store → a < s.execute.em.result.toNat ∨
            s.execute.em.result.toNat + widthBytes s.execute.em.memWidth ≤ a) →
          t.dmem.byte a = s.dmem.byte a)
    (∀ f, s.pipe.mw.fault = some f → cycle s = .fault f ∧ ends (s.concludeCycle (cycle s)) (.faulted f)) ∧
    (s.pipe.mw.fault = none → s.pipe.mw.haltFlag = true → ∃ t, cycle s = .next t ∧ ends t .halted) ∧
    (s.pipe.mw.fault = none → s.pipe.mw.haltFlag = false →
      ∃ t, cycle s = .next t ∧ t.run = .running ∧ t.cycles = s.cycles + 1 ∧
        ∀ r, t.reg r = if r = s.pipe.mw.destReg ∧ r ≠ 0 then s.pipe.mw.value else s.reg r)

/-- R7 for one instruction: EX on the control an instruction's word decodes to, with its operands resolved to the registers'
values, and then MEM (R252, R253, R386) on what EX wrote, have the effect `exec` has, for every instruction but the
multiplies and divides. -/
def Obligations.ExecuteStageMatchesExec : Prop :=
  ∀ (i : Instr) (s t : State) (pred : Word), i.wellFormed = true → exec i s = .next t → t.run = .running →
    let d := decodeControl (encode i)
    let x : IdEx := { IdEx.bubble with ctrl := { d.ctrl with predictedNextPc := pred }, pc := s.pc, imm := d.imm }
    let o := s.exOn x (s.reg d.rs1) (s.reg d.rs2)
    let inMem : State := { s with pipe := { s.pipe with em := o.em, dmemOut := o.dmemOut } }
    let w := inMem.nextMw
    mulRequest d.ctrl.aluOp = none → divRequest d.ctrl.aluOp = none →
    o.em.fault = none ∧ o.dmem = t.dmem ∧ o.predictor = t.predictor ∧
    w.fault = none ∧ w.haltFlag = false ∧ w.pc = s.pc ∧ w.value = inMem.memValue ∧
    (∀ r, t.reg r = if r = w.destReg ∧ r ≠ 0 then w.value else s.reg r) ∧
    (d.ctrl.branchKind ≠ .none → o.btReg = if t.pc = pred then 0 else t.pc) ∧
    (d.ctrl.branchKind = .none → t.pc = s.pc + 4 ∧ o.btReg = 0)

/-! ### Invariants -/

/-- The sequential invariant holds at reset. -/
def Obligations.ResetSatisfiesInv : Prop := Inv State.reset

/-- The sequential invariant is kept by every step, from every state that has it (R31, R39, R77, R205, R222). -/
def Obligations.StepKeepsInv : Prop := ∀ s t : State, Inv s → step s = .next t → Inv t

/-- The cycle level's invariant holds at reset. -/
def Obligations.ResetSatisfiesPipeInv : Prop := PipeInv State.reset

/-- The cycle level's invariant is kept by every clock cycle, from every state that has it (R133, R289 to R293, R311, R354,
R420). -/
def Obligations.CycleKeepsPipeInv : Prop := ∀ s t : State, PipeInv s → cycle s = .next t → PipeInv t

/-- R293 and R289: under the cycle level's invariant at most one unit works, and a unit never works on a flushed
instruction. -/
def Obligations.OneUnitAtATime : Prop :=
  ∀ s : State, PipeInv s →
    ¬(s.mul.busy = true ∧ s.div.state ≠ .idle) ∧ ((s.mul.busy = true ∨ s.div.state ≠ .idle) → s.flush = false)

/-! ### Images and the halt log -/

/-- R71: word k of a memory loaded from an image is line k, and 0 past the last line. -/
def Obligations.ImageWordsLoad : Prop :=
  ∀ (ws : List Word) (k : Nat), (Memory.ofWords ws).word k = ws.getD k 0 ∧ (Memory.ofWords ws).wf = true

/-- R356 and R71: a halt-log value is 8 lower-case hex digits, and the image format reads them back. -/
def Obligations.HexTextRoundTrip : Prop :=
  ∀ v : Word, (hexText v).length = 8 ∧ imageWord (hexText v) = some v
end

