-- ==== Sys2Proof/Laws/Encoding.lean ====
section
/-! SUPPORT. The fields of an encoded word, format by format, and the decoder as a function of the compared fields. -/

namespace Sys2Proof

/-! ### Words as numbers -/

theorem encR_toNat (f7 : BitVec 7) (rs2 rs1 : Reg) (f3 : BitVec 3) (rd : Reg) (op : BitVec 7) :
    (encR f7 rs2 rs1 f3 rd op).toNat =
      f7.toNat * 2 ^ 25 + rs2.toNat * 2 ^ 20 + rs1.toNat * 2 ^ 15 + f3.toNat * 2 ^ 12 + rd.toNat * 2 ^ 7 + op.toNat := by
  simp only [encR, append_toNat]; omega

theorem encI_toNat (imm : BitVec 12) (rs1 : Reg) (f3 : BitVec 3) (rd : Reg) (op : BitVec 7) :
    (encI imm rs1 f3 rd op).toNat =
      imm.toNat * 2 ^ 20 + rs1.toNat * 2 ^ 15 + f3.toNat * 2 ^ 12 + rd.toNat * 2 ^ 7 + op.toNat := by
  simp only [encI, append_toNat]; omega

theorem encS_toNat (imm : BitVec 12) (rs2 rs1 : Reg) (f3 : BitVec 3) (op : BitVec 7) :
    (encS imm rs2 rs1 f3 op).toNat =
      imm.toNat / 2 ^ 5 * 2 ^ 25 + rs2.toNat * 2 ^ 20 + rs1.toNat * 2 ^ 15 + f3.toNat * 2 ^ 12 +
        imm.toNat % 2 ^ 5 * 2 ^ 7 + op.toNat := by
  have := imm.isLt
  simp only [encS, append_toNat, extract_toNat]; omega

theorem encB_toNat (o : BitVec 13) (rs2 rs1 : Reg) (f3 : BitVec 3) (op : BitVec 7) :
    (encB o rs2 rs1 f3 op).toNat =
      o.toNat / 2 ^ 12 * 2 ^ 31 + o.toNat / 2 ^ 5 % 2 ^ 6 * 2 ^ 25 + rs2.toNat * 2 ^ 20 + rs1.toNat * 2 ^ 15 +
        f3.toNat * 2 ^ 12 + o.toNat / 2 % 2 ^ 4 * 2 ^ 8 + o.toNat / 2 ^ 11 % 2 * 2 ^ 7 + op.toNat := by
  have := o.isLt
  simp only [encB, append_toNat, extract_toNat]; omega

theorem encU_toNat (imm : BitVec 20) (rd : Reg) (op : BitVec 7) :
    (encU imm rd op).toNat = imm.toNat * 2 ^ 12 + rd.toNat * 2 ^ 7 + op.toNat := by
  simp only [encU, append_toNat]; omega

theorem encJ_toNat (o : BitVec 21) (rd : Reg) (op : BitVec 7) :
    (encJ o rd op).toNat =
      o.toNat / 2 ^ 20 * 2 ^ 31 + o.toNat / 2 % 2 ^ 10 * 2 ^ 21 + o.toNat / 2 ^ 11 % 2 * 2 ^ 20 +
        o.toNat / 2 ^ 12 % 2 ^ 8 * 2 ^ 12 + rd.toNat * 2 ^ 7 + op.toNat := by
  have := o.isLt
  simp only [encJ, append_toNat, extract_toNat]; omega

/-! ### The compared fields of an encoded word (R101, R102) -/

section Fields

variable (f7 : BitVec 7) (imm : BitVec 12) (o : BitVec 13) (u : BitVec 20) (j : BitVec 21) (rs1 rs2 rd : Reg)
  (f3 : BitVec 3) (op : BitVec 7)

@[simp] theorem opcodeOf_encR : opcodeOf (encR f7 rs2 rs1 f3 rd op) = op := by
  apply BitVec.eq_of_toNat_eq; have := op.isLt
  simp only [opcodeOf, extract_toNat, encR_toNat]; omega

@[simp] theorem opcodeOf_encI : opcodeOf (encI imm rs1 f3 rd op) = op := by
  apply BitVec.eq_of_toNat_eq; have := op.isLt
  simp only [opcodeOf, extract_toNat, encI_toNat]; omega

@[simp] theorem opcodeOf_encS : opcodeOf (encS imm rs2 rs1 f3 op) = op := by
  apply BitVec.eq_of_toNat_eq; have := op.isLt
  simp only [opcodeOf, extract_toNat, encS_toNat]; omega

@[simp] theorem opcodeOf_encB : opcodeOf (encB o rs2 rs1 f3 op) = op := by
  apply BitVec.eq_of_toNat_eq; have := op.isLt
  simp only [opcodeOf, extract_toNat, encB_toNat]; omega

@[simp] theorem opcodeOf_encU : opcodeOf (encU u rd op) = op := by
  apply BitVec.eq_of_toNat_eq; have := op.isLt
  simp only [opcodeOf, extract_toNat, encU_toNat]; omega

@[simp] theorem opcodeOf_encJ : opcodeOf (encJ j rd op) = op := by
  apply BitVec.eq_of_toNat_eq; have := op.isLt
  simp only [opcodeOf, extract_toNat, encJ_toNat]; omega

@[simp] theorem funct3Of_encR : funct3Of (encR f7 rs2 rs1 f3 rd op) = f3 := by
  apply BitVec.eq_of_toNat_eq; have := op.isLt; have := rd.isLt; have := f3.isLt
  simp only [funct3Of, extract_toNat, encR_toNat]; omega

@[simp] theorem funct3Of_encI : funct3Of (encI imm rs1 f3 rd op) = f3 := by
  apply BitVec.eq_of_toNat_eq; have := op.isLt; have := rd.isLt; have := f3.isLt
  simp only [funct3Of, extract_toNat, encI_toNat]; omega

@[simp] theorem funct3Of_encS : funct3Of (encS imm rs2 rs1 f3 op) = f3 := by
  apply BitVec.eq_of_toNat_eq; have := op.isLt; have := f3.isLt
  simp only [funct3Of, extract_toNat, encS_toNat]; omega

@[simp] theorem funct3Of_encB : funct3Of (encB o rs2 rs1 f3 op) = f3 := by
  apply BitVec.eq_of_toNat_eq; have := op.isLt; have := f3.isLt
  have h1 : o.toNat / 2 % 2 ^ 4 < 2 ^ 4 := Nat.mod_lt _ (by decide)
  have h2 : o.toNat / 2 ^ 11 % 2 < 2 := Nat.mod_lt _ (by decide)
  simp only [funct3Of, extract_toNat, encB_toNat]
  generalize o.toNat / 2 % 2 ^ 4 = a at *
  generalize o.toNat / 2 ^ 11 % 2 = b at *
  generalize o.toNat / 2 ^ 12 = c
  generalize o.toNat / 2 ^ 5 % 2 ^ 6 = e
  omega

@[simp] theorem funct7Of_encR : funct7Of (encR f7 rs2 rs1 f3 rd op) = f7 := by
  apply BitVec.eq_of_toNat_eq
  have := op.isLt; have := rd.isLt; have := f3.isLt; have := rs1.isLt; have := rs2.isLt; have := f7.isLt
  simp only [funct7Of, extract_toNat, encR_toNat]; omega

theorem bit30_funct7 (w : Word) : bit30Of w = (funct7Of w).getLsbD 5 := by
  simp only [bit30Of, funct7Of, getLsbD_toNat, extract_toNat]; congr 1; simp only [eq_iff_iff]; omega

theorem bit25_funct7 (w : Word) : bit25Of w = (funct7Of w).getLsbD 0 := by
  simp only [bit25Of, funct7Of, getLsbD_toNat, extract_toNat]; congr 1; simp only [eq_iff_iff]; omega

@[simp] theorem bit30Of_encR : bit30Of (encR f7 rs2 rs1 f3 rd op) = f7.getLsbD 5 := by
  rw [bit30_funct7, funct7Of_encR]

@[simp] theorem bit25Of_encR : bit25Of (encR f7 rs2 rs1 f3 rd op) = f7.getLsbD 0 := by
  rw [bit25_funct7, funct7Of_encR]

end Fields

/-! ### The decoder by the compared fields -/

/-- The row that the compared fields select (R109, R113). -/
def rowFor (op : BitVec 7) (f3 : BitVec 3) (b30 b25 : Bool) : Option Row :=
  controlTable.find? fun r =>
    r.opcode == op && keyMatches r.funct3 f3 && keyMatches r.bit30 b30 && keyMatches r.bit25 b25

theorem rowOf_eq (w : Word) : rowOf w = rowFor (opcodeOf w) (funct3Of w) (bit30Of w) (bit25Of w) := rfl

/-- The row a word selects is a row of the table that it matches. -/
theorem rowOf_some {w : Word} {r : Row} (h : rowOf w = some r) : r ∈ controlTable ∧ r.hits w = true :=
  ⟨List.mem_of_find?_eq_some h, @List.find?_some Row (fun r => r.hits w) r controlTable h⟩

/-- A word selects no row when every row rejects it. -/
theorem rowOf_none {w : Word} : rowOf w = none ↔ ∀ r ∈ controlTable, r.hits w = false := by
  simp [rowOf, List.find?_eq_none]

theorem keyMatches_some {α : Type} [DecidableEq α] (k v : α) : keyMatches (some k) v = true ↔ k = v := by
  simp [keyMatches]

/-- A word matches a row only if its opcode is the row's (R113). -/
theorem opcodeOf_of_hits {w : Word} {r : Row} (h : r.hits w = true) : opcodeOf w = r.opcode := by
  simp only [Row.hits, Bool.and_eq_true, beq_iff_eq] at h
  exact h.1.1.1.symm

/-- What the pipeline's decoder answers, by the row. -/
theorem decodeControl_of_row {w : Word} {r : Row} (h0 : w ≠ 0) (hh : isHaltWord w = false) (hr : rowOf w = some r) :
    decodeControl w = r.control w := by
  simp only [decodeControl, replaceZero, if_neg h0, hh, hr, Bool.false_eq_true, if_false]

/-- A word with no row gives the all-zero control point (R139, R337). -/
theorem decodeControl_of_noRow {w : Word} (h0 : w ≠ 0) (hh : isHaltWord w = false) (hr : rowOf w = none) :
    decodeControl w = DecodedControl.inert w := by
  simp only [decodeControl, replaceZero, if_neg h0, hh, hr, Bool.false_eq_true, if_false]

theorem decodeControl_of_halt {w : Word} (hh : isHaltWord w = true) : decodeControl w = DecodedControl.halt w := by
  have h0 : w ≠ 0 := by rintro rfl; exact absurd hh (by decide)
  simp only [decodeControl, replaceZero, if_neg h0, hh, if_true]

/-- The zero word is decoded as the canonical NOP (R110). -/
theorem decodeControl_zero : decodeControl 0 = decodeControl nopWord := by decide

/-- Every decoded control is a row's, with the opcode of the word, or accesses no memory and transfers no control. -/
theorem decodeControl_cases (w : Word) :
    ((decodeControl w).ctrl.memOp = .none ∧ (decodeControl w).ctrl.branchKind = .none) ∨
      ∃ r ∈ controlTable, r.opcode = opcodeOf w ∧ decodeControl w = r.control w := by
  by_cases h0 : w = 0
  · subst h0; exact .inl (by decide)
  cases hh : isHaltWord w
  · cases hr : rowOf w with
    | none => rw [decodeControl_of_noRow h0 hh hr]; exact .inl ⟨rfl, rfl⟩
    | some r =>
      obtain ⟨hm, hw⟩ := rowOf_some hr
      exact .inr ⟨r, hm, (opcodeOf_of_hits hw).symm, decodeControl_of_row h0 hh hr⟩
  · rw [decodeControl_of_halt hh]; exact .inl ⟨rfl, rfl⟩

/-- Only a word of opcode STORE stores (R113). -/
theorem opcodeOf_of_store {w : Word} (h : (decodeControl w).ctrl.memOp = .store) : opcodeOf w = 0b0100011#7 := by
  obtain ⟨hn, -⟩ | ⟨r, hm, ho, hc⟩ := decodeControl_cases w
  · rw [hn] at h; cases h
  · have table : ∀ r ∈ controlTable, r.mem = .store → r.opcode = 0b0100011#7 := by decide
    rw [hc] at h
    rw [← ho]
    exact table r hm h

/-- Only a word of opcode BRANCH, JAL or JALR transfers control (R113). -/
theorem opcodeOf_of_transfer {w : Word} (h : (decodeControl w).ctrl.branchKind ≠ .none) :
    opcodeOf w ∈ [0b1100011#7, 0b1101111#7, 0b1100111#7] := by
  obtain ⟨-, hn⟩ | ⟨r, hm, ho, hc⟩ := decodeControl_cases w
  · exact absurd hn h
  · have table : ∀ r ∈ controlTable, r.br ≠ .none → r.opcode ∈ [0b1100011#7, 0b1101111#7, 0b1100111#7] := by decide
    rw [hc] at h
    rw [← ho]
    exact table r hm h

/-- A word has no row exactly when its decoding says so. -/
theorem decode_noRow {w : Word} (h : decode w = .noRow w) : w ≠ 0 ∧ isHaltWord w = false ∧ rowOf w = none := by
  unfold decode at h
  simp only [isHaltWord, Bool.or_eq_false_iff, beq_eq_false_iff_ne]
  split at h <;> try cases h
  split at h <;> try cases h
  split at h <;> try cases h
  split at h <;> try cases h
  split at h <;> try cases h
  split at h <;> try cases h
  refine ⟨‹_›, ⟨⟨‹_›, ‹_›⟩, ‹_›⟩, ‹_›⟩

/-- A word that is none of the five exact words is decoded by its row. -/
theorem decode_of_row {w : Word} {r : Row} (h0 : w ≠ 0) (hn : w ≠ nopWord) (hh : isHaltWord w = false)
    (hr : rowFor (opcodeOf w) (funct3Of w) (bit30Of w) (bit25Of w) = some r) : decode w = .instr (r.build w) := by
  simp only [isHaltWord, Bool.or_eq_false_iff, beq_eq_false_iff_ne] at hh
  unfold decode
  rw [if_neg h0, if_neg hn, if_neg hh.1.1, if_neg hh.1.2, if_neg hh.2, rowOf_eq, hr]

/-- The exact words have the opcodes 0, OP-IMM, SYSTEM and STORE. -/
theorem decode_of_opcode {w : Word} {r : Row}
    (hr : rowFor (opcodeOf w) (funct3Of w) (bit30Of w) (bit25Of w) = some r)
    (h13 : opcodeOf w = 0b0010011#7 → w ≠ nopWord) (h23 : opcodeOf w = 0b0100011#7 → w ≠ haltReserved) :
    decode w = .instr (r.build w) := by
  have hne : ∀ v : Word, rowFor (opcodeOf v) (funct3Of v) (bit30Of v) (bit25Of v) = none → w ≠ v := by
    rintro v hv rfl; rw [hv] at hr; cases hr
  refine decode_of_row (hne _ (by decide)) (fun h => h13 (by rw [h]; decide) h) ?_ hr
  simp only [isHaltWord, Bool.or_eq_false_iff, beq_eq_false_iff_ne]
  exact ⟨⟨hne _ (by decide), hne _ (by decide)⟩, fun h => h23 (by rw [h]; decide) h⟩

/-! ### Fields by position -/

/-- The fields of a number laid out in the S format. -/
theorem fields_formatS (w a b r1 r2 f op : Nat)
    (h : w = a * 2 ^ 25 + r2 * 2 ^ 20 + r1 * 2 ^ 15 + f * 2 ^ 12 + b * 2 ^ 7 + op)
    (ha : a < 2 ^ 7) (h2 : r2 < 2 ^ 5) (h1 : r1 < 2 ^ 5) (hf : f < 2 ^ 3) (hb : b < 2 ^ 5) (ho : op < 2 ^ 7) :
    w / 2 ^ 25 % 2 ^ 7 = a ∧ w / 2 ^ 20 % 2 ^ 5 = r2 ∧ w / 2 ^ 15 % 2 ^ 5 = r1 ∧ w / 2 ^ 7 % 2 ^ 5 = b := by
  refine ⟨?_, ?_, ?_, ?_⟩ <;> omega

/-- The fields of a number laid out in the B format. -/
theorem fields_formatB (w a b c e r1 r2 f op : Nat)
    (h : w = c * 2 ^ 31 + e * 2 ^ 25 + r2 * 2 ^ 20 + r1 * 2 ^ 15 + f * 2 ^ 12 + a * 2 ^ 8 + b * 2 ^ 7 + op)
    (hc : c < 2) (he : e < 2 ^ 6) (h2 : r2 < 2 ^ 5) (h1 : r1 < 2 ^ 5) (hf : f < 2 ^ 3) (ha : a < 2 ^ 4) (hb : b < 2)
    (ho : op < 2 ^ 7) :
    w / 2 ^ 31 % 2 ^ 1 = c ∧ w / 2 ^ 25 % 2 ^ 6 = e ∧ w / 2 ^ 20 % 2 ^ 5 = r2 ∧ w / 2 ^ 15 % 2 ^ 5 = r1 ∧
      w / 2 ^ 8 % 2 ^ 4 = a ∧ w / 2 ^ 7 % 2 ^ 1 = b := by
  refine ⟨?_, ?_, ?_, ?_, ?_, ?_⟩ <;> omega

/-- The fields of a number laid out in the J format. -/
theorem fields_formatJ (w a b c e rd op : Nat)
    (h : w = e * 2 ^ 31 + a * 2 ^ 21 + b * 2 ^ 20 + c * 2 ^ 12 + rd * 2 ^ 7 + op)
    (hc : c < 2 ^ 8) (he : e < 2) (h2 : rd < 2 ^ 5) (ha : a < 2 ^ 10) (hb : b < 2) (ho : op < 2 ^ 7) :
    w / 2 ^ 31 % 2 ^ 1 = e ∧ w / 2 ^ 12 % 2 ^ 8 = c ∧ w / 2 ^ 20 % 2 ^ 1 = b ∧ w / 2 ^ 21 % 2 ^ 10 = a ∧
      w / 2 ^ 7 % 2 ^ 5 = rd := by
  refine ⟨?_, ?_, ?_, ?_, ?_⟩ <;> omega

end Sys2Proof
end

