-- ==== Sys2Proof/Laws/Table.lean ====
section
/-! SUPPORT. Sparse tables: reading after writing, and every write keeps the canonical form. -/

namespace Sys2Proof.Machine

variable {α : Type}

theorem Table.get_erase (d : α) (t : Table α) (a b : Nat) :
    Table.get d (t.erase a) b = if b = a then d else Table.get d t b := by
  induction t with
  | nil => simp [Table.erase, Table.get]
  | cons e rest ih =>
    obtain ⟨k, v⟩ := e
    by_cases h : k = a
    · subst h
      simp only [Table.erase, if_true, ih, Table.get]
      by_cases hb : b = k
      · simp [hb]
      · simp [hb, Ne.symm hb]
    · simp only [Table.erase, h, if_false, Table.get, ih]
      by_cases hb : k = b
      · simp [← hb, h]
      · simp [hb]

theorem Table.get_insert (d : α) (t : Table α) (a b : Nat) (x : α) (h : ∀ e ∈ t, e.1 ≠ a) :
    Table.get d (t.insert a x) b = if b = a then x else Table.get d t b := by
  induction t with
  | nil => simp [Table.insert, Table.get, eq_comm]
  | cons e rest ih =>
    obtain ⟨k, v⟩ := e
    have hk : k ≠ a := h _ (List.mem_cons_self ..)
    by_cases hlt : a < k
    · simp [Table.insert, hlt, Table.get, eq_comm]
    · simp only [Table.insert, hlt, if_false, Table.get, ih fun e he => h e (List.mem_cons_of_mem _ he)]
      by_cases hb : k = b
      · subst hb; simp [hk]
      · simp [hb]

theorem Table.erase_keys (t : Table α) (a : Nat) : ∀ e ∈ t.erase a, e.1 ≠ a := by
  induction t with
  | nil => simp [Table.erase]
  | cons e rest ih =>
    obtain ⟨k, v⟩ := e
    by_cases h : k = a
    · simpa [Table.erase, h] using ih
    · intro e he
      simp only [Table.erase, h, if_false, List.mem_cons] at he
      rcases he with rfl | he
      · exact h
      · exact ih e he

/-- Reading after writing. -/
@[simp] theorem Table.get_set [DecidableEq α] (d : α) (t : Table α) (a b : Nat) (x : α) :
    Table.get d (Table.set d t a x) b = if b = a then x else Table.get d t b := by
  unfold Table.set
  split
  · next h => subst h; exact Table.get_erase _ t a b
  · rw [Table.get_insert d _ a b x (Table.erase_keys t a), Table.get_erase]
    split <;> rfl

theorem Table.mem_erase (t : Table α) (a : Nat) : ∀ e ∈ t.erase a, e ∈ t := by
  induction t with
  | nil => simp [Table.erase]
  | cons e rest ih =>
    obtain ⟨k, v⟩ := e
    intro e he
    by_cases h : k = a
    · simp only [Table.erase, h, if_true] at he
      exact List.mem_cons_of_mem _ (ih e he)
    · simp only [Table.erase, h, if_false, List.mem_cons] at he
      rcases he with rfl | he
      · exact List.mem_cons_self ..
      · exact List.mem_cons_of_mem _ (ih e he)

theorem Table.mem_insert (t : Table α) (a : Nat) (x : α) : ∀ e ∈ t.insert a x, e = (a, x) ∨ e ∈ t := by
  induction t with
  | nil => simp [Table.insert]
  | cons e rest ih =>
    obtain ⟨k, v⟩ := e
    intro e he
    by_cases h : a < k
    · simpa [Table.insert, h] using he
    · simp only [Table.insert, h, if_false, List.mem_cons] at he
      rcases he with rfl | he
      · simp
      · rcases ih e he with h | h
        · exact .inl h
        · exact .inr (List.mem_cons_of_mem _ h)

/-- What a write can have put into a table. -/
theorem Table.mem_set [DecidableEq α] (d : α) (t : Table α) (a : Nat) (x : α) :
    ∀ e ∈ Table.set d t a x, e = (a, x) ∨ e ∈ t := by
  intro e he
  unfold Table.set at he
  split at he
  · exact .inr (Table.mem_erase t a e he)
  · rcases Table.mem_insert _ a x e he with h | h
    · exact .inl h
    · exact .inr (Table.mem_erase t a e h)

theorem Table.wfFrom_mono [DecidableEq α] (d : α) {lo lo' : Nat} (h : lo' ≤ lo) (t : Table α)
    (hw : Table.wfFrom d lo t = true) : Table.wfFrom d lo' t = true := by
  cases t with
  | nil => rfl
  | cons e rest =>
    obtain ⟨k, v⟩ := e
    simp only [Table.wfFrom, Bool.and_eq_true, decide_eq_true_eq] at hw ⊢
    exact ⟨⟨by omega, hw.1.2⟩, hw.2⟩

theorem Table.wfFrom_erase [DecidableEq α] (d : α) (a : Nat) (t : Table α) :
    ∀ lo, Table.wfFrom d lo t = true → Table.wfFrom d lo (t.erase a) = true := by
  induction t with
  | nil => intro lo h; exact h
  | cons e rest ih =>
    obtain ⟨k, v⟩ := e
    intro lo hw
    simp only [Table.wfFrom, Bool.and_eq_true, decide_eq_true_eq] at hw
    by_cases h : k = a
    · simp only [Table.erase, h, if_true]
      exact Table.wfFrom_mono d (by omega) _ (ih _ hw.2)
    · simp only [Table.erase, h, if_false, Table.wfFrom, Bool.and_eq_true, decide_eq_true_eq]
      exact ⟨hw.1, ih _ hw.2⟩

theorem Table.wfFrom_insert [DecidableEq α] (d : α) (a : Nat) (x : α) (hx : x ≠ d) (t : Table α)
    (hk : ∀ e ∈ t, e.1 ≠ a) :
    ∀ lo, lo ≤ a → Table.wfFrom d lo t = true → Table.wfFrom d lo (t.insert a x) = true := by
  induction t with
  | nil => intro lo h _; simp [Table.insert, Table.wfFrom, h, hx]
  | cons e rest ih =>
    obtain ⟨k, v⟩ := e
    intro lo hlo hw
    have hne : k ≠ a := hk _ (List.mem_cons_self ..)
    simp only [Table.wfFrom, Bool.and_eq_true, decide_eq_true_eq] at hw
    by_cases h : a < k
    · simp only [Table.insert, h, if_true, Table.wfFrom, Bool.and_eq_true, decide_eq_true_eq]
      exact ⟨⟨hlo, hx⟩, ⟨by omega, hw.1.2⟩, hw.2⟩
    · simp only [Table.insert, h, if_false, Table.wfFrom, Bool.and_eq_true, decide_eq_true_eq]
      exact ⟨hw.1, ih (fun e he => hk e (List.mem_cons_of_mem _ he)) _ (by omega) hw.2⟩

/-- Every write keeps the canonical form. -/
@[simp] theorem Table.wf_set [DecidableEq α] (d : α) (t : Table α) (a : Nat) (x : α) (hw : Table.wf d t = true) :
    Table.wf d (Table.set d t a x) = true := by
  unfold Table.wf Table.set
  split
  · exact Table.wfFrom_erase d a t 0 hw
  · next h =>
    exact Table.wfFrom_insert d a x h _ (Table.erase_keys t a) 0 (Nat.zero_le _) (Table.wfFrom_erase d a t 0 hw)

/-- A write below a bound keeps every key below it. -/
theorem Table.below_set [DecidableEq α] (d : α) (n : Nat) (t : Table α) (a : Nat) (x : α) (ha : a < n)
    (hb : Table.below n t = true) : Table.below n (Table.set d t a x) = true := by
  simp only [Table.below, List.all_eq_true, decide_eq_true_eq] at hb ⊢
  intro e he
  rcases Table.mem_set d t a x e he with rfl | h
  · exact ha
  · exact hb e h

end Sys2Proof.Machine
end

