-- ==== Sys2Proof/Laws/Memory.lean ====
section
/-! SUPPORT. Memory: reading a byte after every memory operation, and every memory operation keeps the canonical form. -/

namespace Sys2Proof.Machine

/-- An unlisted byte reads as 0 (R71). -/
@[simp] theorem Memory.byte_nil (a : Nat) : Memory.byte [] a = 0#8 := rfl

@[simp] theorem Memory.byte_set (m : Memory) (a b : Nat) (v : Byte) :
    Memory.byte (Table.set 0 m a v) b = if b = a then v else m.byte b := Table.get_set 0 m a b v

/-- A byte after a store of bytes from address `a` on. -/
theorem Memory.byte_storeBytes (vs : List Byte) :
    ∀ (m : Memory) (a b : Nat),
      (m.storeBytes a vs).byte b = if a ≤ b ∧ b < a + vs.length then vs.getD (b - a) 0#8 else m.byte b := by
  induction vs with
  | nil => intro m a b; rw [if_neg (by rw [List.length_nil]; omega)]; rfl
  | cons v rest ih =>
    intro m a b
    rw [Memory.storeBytes, ih, Memory.byte_set, List.length_cons]
    by_cases hb : b = a
    · subst hb
      rw [if_neg (by omega), if_pos rfl, if_pos (by omega)]
      simp
    · by_cases h : a + 1 ≤ b ∧ b < a + 1 + rest.length
      · rw [if_pos h, if_pos (by omega), show b - a = (b - (a + 1)) + 1 by omega]
        simp
      · rw [if_neg h, if_neg hb, if_neg (by omega)]

/-- A byte outside the bytes stored. -/
theorem Memory.byte_storeBytes_outside (m : Memory) (a b : Nat) (vs : List Byte) (h : b < a ∨ a + vs.length ≤ b) :
    (m.storeBytes a vs).byte b = m.byte b := by
  rw [Memory.byte_storeBytes, if_neg (by omega)]

@[simp] theorem Memory.wf_storeBytes (vs : List Byte) :
    ∀ (m : Memory) (a : Nat), m.wf = true → (m.storeBytes a vs).wf = true := by
  induction vs with
  | nil => intro m a h; exact h
  | cons v rest ih => intro m a h; exact ih _ _ (Table.wf_set 0 m a v h)

@[simp] theorem Memory.wf_store (m : Memory) (a v : Word) (width : MemWidth) (h : m.wf = true) :
    (m.store a width v).wf = true := Memory.wf_storeBytes _ _ _ h

@[simp] theorem Memory.wf_forget (n : Nat) :
    ∀ (m : Memory) (a f : Nat), m.wf = true → (m.forget a f n).wf = true := by
  induction n with
  | zero => intro m a f h; exact h
  | succ n ih => intro m a f h; exact ih _ _ _ (Table.wf_set 0 m a _ h)

@[simp] theorem Memory.wf_forgetAll (l : List (Nat × Nat)) :
    ∀ (m : Memory) (f : Nat), m.wf = true → (m.forgetAll f l).wf = true := by
  induction l with
  | nil => intro m f h; exact h
  | cons r rest ih => intro m f h; exact ih _ _ (Memory.wf_forget _ _ _ _ h)

@[simp] theorem Memory.wf_placeWords (ws : List Word) :
    ∀ (m : Memory) (k : Nat), m.wf = true → (m.placeWords k ws).wf = true := by
  induction ws with
  | nil => intro m k h; exact h
  | cons w rest ih => intro m k h; exact ih _ _ (Memory.wf_storeBytes _ _ _ h)

@[simp] theorem Memory.wf_nil : Memory.wf [] = true := rfl

/-- Reset memory is in canonical form. -/
theorem Memory.wf_reset : State.reset.imem.wf = true ∧ State.reset.dmem.wf = true := ⟨rfl, rfl⟩

/-- A byte that a free value did not replace. -/
theorem Memory.byte_forget_outside (n : Nat) :
    ∀ (m : Memory) (a f b : Nat), (b < a ∨ a + n ≤ b) → (m.forget a f n).byte b = m.byte b := by
  induction n with
  | zero => intro m a f b _; rfl
  | succ n ih =>
    intro m a f b h
    rw [Memory.forget, ih _ _ _ _ (by omega), Memory.byte_set, if_neg (by omega)]

/-- A byte that none of some accesses addresses. -/
theorem Memory.byte_forgetAll_outside (l : List (Nat × Nat)) :
    ∀ (m : Memory) (f b : Nat), (∀ r ∈ l, b < r.1 ∨ r.1 + r.2 ≤ b) → (m.forgetAll f l).byte b = m.byte b := by
  induction l with
  | nil => intro m f b _; rfl
  | cons r rest ih =>
    intro m f b h
    rw [Memory.forgetAll, ih _ _ _ (fun q hq => h q (List.mem_cons_of_mem _ hq)),
      Memory.byte_forget_outside _ _ _ _ _ (h r List.mem_cons_self)]

theorem Memory.below_storeBytes (n : Nat) (vs : List Byte) :
    ∀ (m : Memory) (a : Nat), a + vs.length ≤ n → Table.below n m = true →
      Table.below n (m.storeBytes a vs) = true := by
  induction vs with
  | nil => intro m a _ h; exact h
  | cons v rest ih =>
    intro m a ha h
    rw [List.length_cons] at ha
    exact ih _ _ (by omega) (Table.below_set 0 n m a v (by omega) h)

theorem Memory.below_forget (n k : Nat) :
    ∀ (m : Memory) (a f : Nat), a + k ≤ n → Table.below n m = true → Table.below n (m.forget a f k) = true := by
  induction k with
  | zero => intro m a f _ h; exact h
  | succ k ih => intro m a f ha h; exact ih _ _ _ (by omega) (Table.below_set 0 n m a _ (by omega) h)

theorem Memory.below_forgetAll (n : Nat) (l : List (Nat × Nat)) :
    ∀ (m : Memory) (f : Nat), (∀ r ∈ l, r.2 = 0 ∨ r.1 + r.2 ≤ n) → Table.below n m = true →
      Table.below n (m.forgetAll f l) = true := by
  induction l with
  | nil => intro m f _ h; exact h
  | cons r rest ih =>
    intro m f hr h
    refine ih _ _ (fun q hq => hr q (List.mem_cons_of_mem _ hq)) ?_
    obtain h0 | h1 := hr r List.mem_cons_self
    · rw [h0]; exact h
    · exact Memory.below_forget _ _ _ _ _ h1 h

/-! ### Words and lanes (R73) -/

@[simp] theorem storeLanes_length (width : MemWidth) (v : Word) : (storeLanes width v).length = widthBytes width := by
  cases width <;> rfl

/-- Byte `i` of the bytes a store writes is byte `i` of the value (R75). -/
theorem storeLanes_getD (width : MemWidth) (v : Word) (i : Nat) (h : i < widthBytes width) :
    (storeLanes width v).getD i 0#8 = v.extractLsb' (8 * i) 8 := by
  cases width <;> simp only [widthBytes] at h
  · obtain rfl : i = 0 := by omega
    rfl
  · rcases (by omega : i = 0 ∨ i = 1) with rfl | rfl <;> rfl
  · rcases (by omega : i = 0 ∨ i = 1 ∨ i = 2 ∨ i = 3) with rfl | rfl | rfl | rfl <;> rfl

/-- A byte after a store (R75). -/
theorem Memory.byte_store (m : Memory) (a v : Word) (width : MemWidth) (b : Nat) :
    (m.store a width v).byte b =
      if a.toNat ≤ b ∧ b < a.toNat + widthBytes width then v.extractLsb' (8 * (b - a.toNat)) 8 else m.byte b := by
  rw [Memory.store, Memory.byte_storeBytes, storeLanes_length]
  split
  · exact storeLanes_getD _ _ _ (by omega)
  · rfl

/-- A memory word as a number. -/
theorem Memory.word_toNat (m : Memory) (k : Nat) :
    (m.word k).toNat =
      (((m.byte (4 * k + 3)).toNat * 2 ^ 8 + (m.byte (4 * k + 2)).toNat) * 2 ^ 8 + (m.byte (4 * k + 1)).toNat) * 2 ^ 8 +
        (m.byte (4 * k)).toNat := by
  simp only [Memory.word, append_toNat]

/-- Lane `i` of a memory word is its byte `i` (R73). -/
theorem Memory.word_lane (m : Memory) (k i : Nat) (h : i < 4) :
    (m.word k).extractLsb' (8 * i) 8 = m.byte (4 * k + i) := by
  apply BitVec.eq_of_toNat_eq
  rw [extract_toNat, Memory.word_toNat]
  have h0 := (m.byte (4 * k)).isLt
  have h1 := (m.byte (4 * k + 1)).isLt
  have h2 := (m.byte (4 * k + 2)).isLt
  have h3 := (m.byte (4 * k + 3)).isLt
  rcases (by omega : i = 0 ∨ i = 1 ∨ i = 2 ∨ i = 3) with rfl | rfl | rfl | rfl <;>
    simp only [Nat.mul_zero, Nat.add_zero, Nat.reduceMul] <;> omega

/-- A halfword of a memory word is two of its bytes (R73). -/
theorem Memory.word_half (m : Memory) (k i : Nat) (h : i < 2) :
    (m.word k).extractLsb' (16 * i) 16 = m.byte (4 * k + 2 * i + 1) ++ m.byte (4 * k + 2 * i) := by
  apply BitVec.eq_of_toNat_eq
  rw [extract_toNat, Memory.word_toNat, append_toNat]
  have h0 := (m.byte (4 * k)).isLt
  have h1 := (m.byte (4 * k + 1)).isLt
  have h2 := (m.byte (4 * k + 2)).isLt
  have h3 := (m.byte (4 * k + 3)).isLt
  rcases (by omega : i = 0 ∨ i = 1) with rfl | rfl <;>
    simp only [Nat.mul_zero, Nat.mul_one, Nat.add_zero, Nat.add_assoc, Nat.reduceAdd] <;> omega

/-- A word is its four lanes. -/
theorem lanes_append (v : Word) :
    v.extractLsb' 24 8 ++ v.extractLsb' 16 8 ++ v.extractLsb' 8 8 ++ v.extractLsb' 0 8 = v := by
  simp only [BitVec.extractLsb'_append_extractLsb'_eq_extractLsb', BitVec.extractLsb'_eq_self]

/-- A word stored is the word read there, and every other word is as before. -/
theorem Memory.word_storeWord (m : Memory) (k j : Nat) (v : Word) :
    Memory.word (m.storeBytes (4 * k) (storeLanes .w v)) j = if j = k then v else m.word j := by
  unfold Memory.word
  simp only [Memory.byte_storeBytes, storeLanes_length, widthBytes]
  by_cases h : j = k
  · subst h
    simp only [show (4 * j ≤ 4 * j + 3 ∧ 4 * j + 3 < 4 * j + 4) = True by simp,
      show (4 * j ≤ 4 * j + 2 ∧ 4 * j + 2 < 4 * j + 4) = True by simp,
      show (4 * j ≤ 4 * j + 1 ∧ 4 * j + 1 < 4 * j + 4) = True by simp,
      show (4 * j ≤ 4 * j ∧ 4 * j < 4 * j + 4) = True by simp, if_true]
    simpa [storeLanes] using lanes_append v
  · rw [if_neg h, if_neg (by omega), if_neg (by omega), if_neg (by omega), if_neg (by omega)]

end Sys2Proof.Machine
end

