-- ==== Sys2Proof/Laws/State.lean ====
section
/-! SUPPORT. The state's updates, one lemma a field: what each shared update changes and what it leaves, so that no later
proof unfolds a record update. -/

namespace Sys2Proof.Machine

/-! ### `writeReg` -/

@[simp] theorem State.writeReg_cfg (s : State) (r : Reg) (v : Word) : (s.writeReg r v).cfg = s.cfg := by
  unfold State.writeReg; split <;> rfl

@[simp] theorem State.writeReg_pc (s : State) (r : Reg) (v : Word) : (s.writeReg r v).pc = s.pc := by
  unfold State.writeReg; split <;> rfl

@[simp] theorem State.writeReg_imem (s : State) (r : Reg) (v : Word) : (s.writeReg r v).imem = s.imem := by
  unfold State.writeReg; split <;> rfl

@[simp] theorem State.writeReg_dmem (s : State) (r : Reg) (v : Word) : (s.writeReg r v).dmem = s.dmem := by
  unfold State.writeReg; split <;> rfl

@[simp] theorem State.writeReg_run (s : State) (r : Reg) (v : Word) : (s.writeReg r v).run = s.run := by
  unfold State.writeReg; split <;> rfl

@[simp] theorem State.writeReg_predictor (s : State) (r : Reg) (v : Word) : (s.writeReg r v).predictor = s.predictor := by
  unfold State.writeReg; split <;> rfl

@[simp] theorem State.writeReg_mul (s : State) (r : Reg) (v : Word) : (s.writeReg r v).mul = s.mul := by
  unfold State.writeReg; split <;> rfl

@[simp] theorem State.writeReg_div (s : State) (r : Reg) (v : Word) : (s.writeReg r v).div = s.div := by
  unfold State.writeReg; split <;> rfl

@[simp] theorem State.writeReg_pipe (s : State) (r : Reg) (v : Word) : (s.writeReg r v).pipe = s.pipe := by
  unfold State.writeReg; split <;> rfl

@[simp] theorem State.writeReg_cycles (s : State) (r : Reg) (v : Word) : (s.writeReg r v).cycles = s.cycles := by
  unfold State.writeReg; split <;> rfl

@[simp] theorem State.writeReg_haltLog (s : State) (r : Reg) (v : Word) : (s.writeReg r v).haltLog = s.haltLog := by
  unfold State.writeReg; split <;> rfl

@[simp] theorem State.writeReg_freeCount (s : State) (r : Reg) (v : Word) : (s.writeReg r v).freeCount = s.freeCount := by
  unfold State.writeReg; split <;> rfl

/-- A register after a write: x0 is not written (R31). -/
@[simp] theorem State.reg_writeReg (s : State) (r q : Reg) (v : Word) :
    (s.writeReg r v).reg q = if q = r ∧ r ≠ 0#5 then v else s.reg q := by
  unfold State.writeReg
  by_cases hr : r = 0#5
  · simp [hr]
  · by_cases hq : q = r
    · subst hq; simp [State.reg, hr]
    · have hn : r.toNat ≠ q.toNat := fun h => hq (BitVec.eq_of_toNat_eq h.symm)
      by_cases h0 : q = 0#5
      · subst h0; simp [State.reg, hr, hq]
      · simp [State.reg, hr, hq, h0, hn]

@[simp] theorem State.holds_writeReg (s : State) (r q : Reg) (v : Word) :
    (s.writeReg r v).holds q = (s.holds q || q == r) := by
  unfold State.writeReg
  by_cases hr : r = 0#5
  · by_cases hq : q = 0#5 <;> simp [hr, hq, State.holds]
  · by_cases hq : q = r
    · subst hq; simp [State.holds, hr]
    · have hn : r.toNat ≠ q.toNat := fun h => hq (BitVec.eq_of_toNat_eq h.symm)
      by_cases h0 : q = 0#5
      · subst h0; simp [State.holds]
      · simp [State.holds, hr, hq, h0, hn]

/-- x0 reads as 0 (R31). -/
@[simp] theorem State.reg_zero (s : State) : s.reg 0#5 = 0#32 := by simp [State.reg]

@[simp] theorem State.holds_zero (s : State) : s.holds 0#5 = true := by simp [State.holds]

/-- A write keeps x0's entry (R31). -/
theorem State.writeReg_zeroReg (s : State) (r : Reg) (v : Word) (h : s.regs[0] = 0) :
    (s.writeReg r v).regs[0] = 0 := by
  unfold State.writeReg
  by_cases hr : r = 0#5
  · simpa [hr] using h
  · have hn : r.toNat ≠ 0 := fun h0 => hr (BitVec.eq_of_toNat_eq (by simpa using h0))
    simpa [hr, Vector.getElem_set, hn] using h

/-- Reading depends on the register file alone. -/
theorem State.reg_congr {s t : State} (h : t.regs = s.regs) (r : Reg) : t.reg r = s.reg r := by
  unfold State.reg; simp [h]

theorem State.holds_congr {s t : State} (h : t.hasValue = s.hasValue) (r : Reg) : t.holds r = s.holds r := by
  unfold State.holds; simp [h]

/-! ### `advance`, `retire` and `haltWith` -/

@[simp] theorem State.advance_cfg (s : State) : s.advance.cfg = s.cfg := rfl
@[simp] theorem State.advance_regs (s : State) : s.advance.regs = s.regs := rfl
@[simp] theorem State.advance_hasValue (s : State) : s.advance.hasValue = s.hasValue := rfl
@[simp] theorem State.advance_pc (s : State) : s.advance.pc = s.pc + 4 := rfl
@[simp] theorem State.advance_imem (s : State) : s.advance.imem = s.imem := rfl
@[simp] theorem State.advance_dmem (s : State) : s.advance.dmem = s.dmem := rfl
@[simp] theorem State.advance_run (s : State) : s.advance.run = s.run := rfl
@[simp] theorem State.advance_predictor (s : State) : s.advance.predictor = s.predictor := rfl
@[simp] theorem State.advance_mul (s : State) : s.advance.mul = s.mul := rfl
@[simp] theorem State.advance_div (s : State) : s.advance.div = s.div := rfl
@[simp] theorem State.advance_pipe (s : State) : s.advance.pipe = s.pipe := rfl
@[simp] theorem State.advance_cycles (s : State) : s.advance.cycles = s.cycles := rfl
@[simp] theorem State.advance_haltLog (s : State) : s.advance.haltLog = s.haltLog := rfl
@[simp] theorem State.advance_freeCount (s : State) : s.advance.freeCount = s.freeCount := rfl
@[simp] theorem State.reg_advance (s : State) (r : Reg) : s.advance.reg r = s.reg r := rfl
@[simp] theorem State.holds_advance (s : State) (r : Reg) : s.advance.holds r = s.holds r := rfl

@[simp] theorem State.retire_cfg (s : State) (rd : Reg) (v : Word) : (s.retire rd v).cfg = s.cfg := by
  simp [State.retire]
@[simp] theorem State.retire_pc (s : State) (rd : Reg) (v : Word) : (s.retire rd v).pc = s.pc + 4 := by
  simp [State.retire]
@[simp] theorem State.retire_imem (s : State) (rd : Reg) (v : Word) : (s.retire rd v).imem = s.imem := by
  simp [State.retire]
@[simp] theorem State.retire_dmem (s : State) (rd : Reg) (v : Word) : (s.retire rd v).dmem = s.dmem := by
  simp [State.retire]
@[simp] theorem State.retire_run (s : State) (rd : Reg) (v : Word) : (s.retire rd v).run = s.run := by
  simp [State.retire]
@[simp] theorem State.retire_predictor (s : State) (rd : Reg) (v : Word) : (s.retire rd v).predictor = s.predictor := by
  simp [State.retire]
@[simp] theorem State.retire_mul (s : State) (rd : Reg) (v : Word) : (s.retire rd v).mul = s.mul := by
  simp [State.retire]
@[simp] theorem State.retire_div (s : State) (rd : Reg) (v : Word) : (s.retire rd v).div = s.div := by
  simp [State.retire]
@[simp] theorem State.retire_pipe (s : State) (rd : Reg) (v : Word) : (s.retire rd v).pipe = s.pipe := by
  simp [State.retire]
@[simp] theorem State.retire_cycles (s : State) (rd : Reg) (v : Word) : (s.retire rd v).cycles = s.cycles := by
  simp [State.retire]
@[simp] theorem State.retire_haltLog (s : State) (rd : Reg) (v : Word) : (s.retire rd v).haltLog = s.haltLog := by
  simp [State.retire]
@[simp] theorem State.retire_freeCount (s : State) (rd : Reg) (v : Word) : (s.retire rd v).freeCount = s.freeCount := by
  simp [State.retire]
@[simp] theorem State.reg_retire (s : State) (rd q : Reg) (v : Word) :
    (s.retire rd v).reg q = if q = rd ∧ rd ≠ 0#5 then v else s.reg q := by
  simp [State.retire]
@[simp] theorem State.holds_retire (s : State) (rd q : Reg) (v : Word) :
    (s.retire rd v).holds q = (s.holds q || q == rd) := by
  simp [State.retire]

/-- A halt by what it shares with the cycle level's (R333, R355). -/
@[simp] theorem State.halt_eq (s : State) : s.halt = s.haltWith (s.storesBehind s.pc) := rfl

@[simp] theorem State.haltWith_cfg (s : State) (younger : List (Nat × Nat)) : (s.haltWith younger).cfg = s.cfg := rfl
@[simp] theorem State.haltWith_regs (s : State) (younger : List (Nat × Nat)) : (s.haltWith younger).regs = s.regs := rfl
@[simp] theorem State.haltWith_hasValue (s : State) (younger : List (Nat × Nat)) : (s.haltWith younger).hasValue = s.hasValue := rfl
@[simp] theorem State.haltWith_pc (s : State) (younger : List (Nat × Nat)) : (s.haltWith younger).pc = s.pc := rfl
@[simp] theorem State.haltWith_imem (s : State) (younger : List (Nat × Nat)) : (s.haltWith younger).imem = s.imem := rfl
@[simp] theorem State.haltWith_predictor (s : State) (younger : List (Nat × Nat)) : (s.haltWith younger).predictor = s.predictor := rfl
@[simp] theorem State.haltWith_mul (s : State) (younger : List (Nat × Nat)) : (s.haltWith younger).mul = s.mul := rfl
@[simp] theorem State.haltWith_div (s : State) (younger : List (Nat × Nat)) : (s.haltWith younger).div = s.div := rfl
@[simp] theorem State.haltWith_pipe (s : State) (younger : List (Nat × Nat)) : (s.haltWith younger).pipe = s.pipe := rfl
@[simp] theorem State.haltWith_cycles (s : State) (younger : List (Nat × Nat)) : (s.haltWith younger).cycles = s.cycles := rfl
@[simp] theorem State.haltWith_dmem (s : State) (younger : List (Nat × Nat)) :
    (s.haltWith younger).dmem = s.dmem.forgetAll (s.freeCount + 32) younger := rfl
@[simp] theorem State.haltWith_run (s : State) (younger : List (Nat × Nat)) : (s.haltWith younger).run = RunStatus.halted := rfl
@[simp] theorem State.haltWith_haltLog (s : State) (younger : List (Nat × Nat)) : (s.haltWith younger).haltLog = s.dump := rfl
@[simp] theorem State.haltWith_freeCount (s : State) (younger : List (Nat × Nat)) :
    (s.haltWith younger).freeCount = s.freeCount + 48 := rfl
@[simp] theorem State.reg_haltWith (s : State) (younger : List (Nat × Nat)) (r : Reg) :
    (s.haltWith younger).reg r = s.reg r := rfl
@[simp] theorem State.holds_haltWith (s : State) (younger : List (Nat × Nat)) (r : Reg) :
    (s.haltWith younger).holds r = s.holds r := rfl

/-- The halt log has one value a register (R356). -/
@[simp] theorem State.dump_length (s : State) : s.dump.length = 32 := by simp [State.dump]

/-- The halt log holds the value of every register that holds one (R356). -/
theorem State.dump_reg (s : State) (r : Reg) (h : s.holds r = true) : s.dump[r.toNat]? = some (s.reg r) := by
  have hr := r.isLt
  have hb : BitVec.ofNat 5 r.toNat = r := by simp
  simp [State.dump, List.getElem?_range hr, State.logValue, h]

/-! ### `placeWord` -/

@[simp] theorem State.placeWord_cfg (s : State) (w : Word) : (s.placeWord w).cfg = s.cfg := rfl
@[simp] theorem State.placeWord_regs (s : State) (w : Word) : (s.placeWord w).regs = s.regs := rfl
@[simp] theorem State.placeWord_hasValue (s : State) (w : Word) : (s.placeWord w).hasValue = s.hasValue := rfl
@[simp] theorem State.placeWord_pc (s : State) (w : Word) : (s.placeWord w).pc = s.pc := rfl
@[simp] theorem State.placeWord_dmem (s : State) (w : Word) : (s.placeWord w).dmem = s.dmem := rfl
@[simp] theorem State.placeWord_run (s : State) (w : Word) : (s.placeWord w).run = RunStatus.running := rfl
@[simp] theorem State.placeWord_predictor (s : State) (w : Word) : (s.placeWord w).predictor = s.predictor := rfl
@[simp] theorem State.placeWord_mul (s : State) (w : Word) : (s.placeWord w).mul = s.mul := rfl
@[simp] theorem State.placeWord_div (s : State) (w : Word) : (s.placeWord w).div = s.div := rfl
@[simp] theorem State.placeWord_pipe (s : State) (w : Word) : (s.placeWord w).pipe = s.pipe := rfl
@[simp] theorem State.placeWord_cycles (s : State) (w : Word) : (s.placeWord w).cycles = s.cycles := rfl
@[simp] theorem State.placeWord_haltLog (s : State) (w : Word) : (s.placeWord w).haltLog = s.haltLog := rfl
@[simp] theorem State.placeWord_freeCount (s : State) (w : Word) : (s.placeWord w).freeCount = s.freeCount := rfl
@[simp] theorem State.placeWord_imem (s : State) (w : Word) :
    (s.placeWord w).imem = s.imem.storeBytes (4 * (s.pc.toNat / 4)) (storeLanes .w w) := rfl

end Sys2Proof.Machine
end

