-- ==== Sys2Proof/Laws/Ops.lean ====
section
/-! SUPPORT. The shared operations: for each, exactly when it answers a next state and which. Later proofs cite these and
unfold no meaning. -/

namespace Sys2Proof.Machine

/-! ### Fault checks -/

@[simp] theorem orFault_none (o : Host.Outcome State Fault Refusal) : orFault none o = o := rfl

@[simp] theorem orFault_some (f : Fault) (o : Host.Outcome State Fault Refusal) : orFault (some f) o = .fault f := rfl

/-- A check that passes (R353). -/
@[simp] theorem orFault_next (c : Option Fault) (o : Host.Outcome State Fault Refusal) (t : State) :
    orFault c o = .next t ↔ c = none ∧ o = .next t := by
  cases c <;> simp [orFault]

@[simp] theorem readFault_eq_none (s : State) (pc : Word) (r : Reg) : s.readFault pc r = none ↔ s.holds r = true := by
  unfold State.readFault; split <;> simp_all

@[simp] theorem readFault_held (s : State) (pc : Word) (r : Reg) (h : s.holds r = true) : s.readFault pc r = none := by
  simp [h]

theorem readFault_unheld (s : State) (pc : Word) (r : Reg) (h : s.holds r = false) :
    s.readFault pc r = some (.uninitialisedRead pc r) := by
  simp [State.readFault, h]

@[simp] theorem readFault2_eq_none (s : State) (pc : Word) (r q : Reg) :
    s.readFault2 pc r q = none ↔ s.holds r = true ∧ s.holds q = true := by
  unfold State.readFault2 State.readFault; split <;> simp_all

@[simp] theorem readFault2_held (s : State) (pc : Word) (r q : Reg) (h : s.holds r = true) (h' : s.holds q = true) :
    s.readFault2 pc r q = none := by
  simp [h, h']

/-- rs1 is checked before rs2 (R357). -/
theorem readFault2_unheld (s : State) (pc : Word) (r q : Reg) (h : s.holds r = false ∨ s.holds q = false) :
    s.readFault2 pc r q = some (.uninitialisedRead pc (if s.holds r then q else r)) := by
  unfold State.readFault2 State.readFault
  cases hr : s.holds r <;> simp_all

/-- A passed access check: aligned and in range (R256). -/
theorem accessFault_eq_none (cfg : Config) (pc a : Word) (width : MemWidth) :
    accessFault cfg pc a width = none ↔ a.toNat % widthBytes width = 0 ∧ a.toNat / 4 < cfg.dmemDepth := by
  by_cases h : a.toNat % widthBytes width = 0 <;> by_cases h' : a.toNat / 4 < cfg.dmemDepth <;>
    simp [accessFault, misalignedFor, inDepth, h, h']

/-- The address of an access that passes its check leaves room for the access in the memory. -/
theorem accessFault_room {cfg : Config} {pc a : Word} {width : MemWidth} (h : accessFault cfg pc a width = none) :
    a.toNat + widthBytes width ≤ 4 * cfg.dmemDepth := by
  obtain ⟨h1, h2⟩ := (accessFault_eq_none ..).mp h
  cases width <;> simp only [widthBytes] at h1 ⊢ <;> omega

/-- The check does not depend on the PC it reports. -/
theorem accessFault_pc (cfg : Config) (pc pc' a : Word) (width : MemWidth) :
    accessFault cfg pc a width = none ↔ accessFault cfg pc' a width = none := by
  simp only [accessFault_eq_none]

theorem fetchFault_eq_none (cfg : Config) (pc : Word) : fetchFault cfg pc = none ↔ pc.toNat / 4 < cfg.imemDepth := by
  by_cases h : pc.toNat / 4 < cfg.imemDepth <;> simp [fetchFault, inDepth, h]

/-! ### The operations -/

theorem next_eq (a t : State) : (Host.Outcome.next a : Host.Outcome State Fault Refusal) = .next t ↔ t = a :=
  ⟨fun h => (Host.Outcome.next.inj h).symm, fun h => h ▸ rfl⟩

theorem aluImm_next (s t : State) (op : AluOp) (rd rs1 : Reg) (b : Word) :
    s.aluImm op rd rs1 b = .next t ↔ s.holds rs1 = true ∧ t = s.retire rd (aluFn op (s.reg rs1) b) := by
  simp only [State.aluImm, orFault_next, readFault_eq_none, next_eq]

theorem aluReg_next (s t : State) (op : AluOp) (rd rs1 rs2 : Reg) :
    s.aluReg op rd rs1 rs2 = .next t ↔
      (s.holds rs1 = true ∧ s.holds rs2 = true) ∧ t = s.retire rd (aluFn op (s.reg rs1) (s.reg rs2)) := by
  simp only [State.aluReg, orFault_next, readFault2_eq_none, next_eq]

theorem mulOp_next (s t : State) (q : MulRequest) (rd rs1 rs2 : Reg) :
    s.mulOp q rd rs1 rs2 = .next t ↔
      (s.holds rs1 = true ∧ s.holds rs2 = true) ∧ t = s.retire rd (mulResult q (s.reg rs1) (s.reg rs2)) := by
  simp only [State.mulOp, orFault_next, readFault2_eq_none, next_eq]

theorem divOp_next (s t : State) (q : DivRequest) (rd rs1 rs2 : Reg) :
    s.divOp q rd rs1 rs2 = .next t ↔
      (s.holds rs1 = true ∧ s.holds rs2 = true) ∧
        t = { s.retire rd (divResult q (s.reg rs1) (s.reg rs2)) with
              div := { s.div with error := divError q.isSigned (s.reg rs1) (s.reg rs2) } } := by
  simp only [State.divOp, orFault_next, readFault2_eq_none, next_eq]

theorem loadOp_next (s t : State) (width : MemWidth) (sign : MemSign) (rd rs1 : Reg) (imm : BitVec 12) :
    s.loadOp width sign rd rs1 imm = .next t ↔
      s.holds rs1 = true ∧ accessFault s.cfg s.pc (s.reg rs1 + sext12 imm) width = none ∧
        t = s.retire rd (s.dmem.load (s.reg rs1 + sext12 imm) width sign) := by
  simp only [State.loadOp, effectiveAddress, orFault_next, readFault_eq_none, next_eq]

theorem storeOp_next (s t : State) (width : MemWidth) (rs2 rs1 : Reg) (imm : BitVec 12) :
    s.storeOp width rs2 rs1 imm = .next t ↔
      (s.holds rs1 = true ∧ s.holds rs2 = true) ∧ accessFault s.cfg s.pc (s.reg rs1 + sext12 imm) width = none ∧
        t = { s with dmem := s.dmem.store (s.reg rs1 + sext12 imm) width (s.reg rs2) }.advance := by
  simp only [State.storeOp, effectiveAddress, orFault_next, readFault2_eq_none, next_eq]

/-- The state a control transfer leaves. -/
def State.transferred (s : State) (rd : Reg) (taken : Bool) (target : Word) : State :=
  { s.writeReg rd (s.pc + 4) with
    pc := resolvedNext taken s.pc target
    predictor := s.predictor.train s.cfg s.pc taken target }

theorem transfer_next (s t : State) (rd : Reg) (taken : Bool) (target : Word) :
    s.transfer rd taken target = .next t ↔
      (taken = true → target.toNat % 4 = 0) ∧ resolvedNext taken s.pc target ≠ 0 ∧ t = s.transferred rd taken target := by
  unfold State.transfer
  split
  · next h =>
    simp only [misalignedPc, Bool.and_eq_true, bne_iff_ne] at h
    simp only [reduceCtorEq, false_iff]
    exact fun hh => h.2 (hh.1 h.1)
  · next h =>
    have ha : taken = true → target.toNat % 4 = 0 := by
      intro ht
      simpa [ht, misalignedPc] using h
    split
    · next h0 => simp [h0]
    · next h0 => rw [next_eq]; exact ⟨fun h => ⟨ha, h0, h⟩, fun h => h.2.2⟩

/-- A taken transfer to a target that is no multiple of 4 stops first (R205, R357). -/
theorem transfer_misaligned (s : State) (rd : Reg) (target : Word) (h : target.toNat % 4 ≠ 0) :
    s.transfer rd true target = .fault (.misalignedFetch s.pc target) := by
  have hm : misalignedPc target = true := by rw [misalignedPc, bne_iff_ne]; exact h
  rw [State.transfer, hm, Bool.and_self, if_pos rfl]

/-- A transfer that resolves to 0 stops (R206). -/
theorem transfer_zero (s : State) (rd : Reg) (taken : Bool) (target : Word) (h : taken = true → target.toNat % 4 = 0)
    (h0 : resolvedNext taken s.pc target = 0) : s.transfer rd taken target = .fault (.redirectToZero s.pc) := by
  have hm : (taken && misalignedPc target) = false := by
    cases taken
    · rfl
    · simpa [misalignedPc] using h rfl
  rw [State.transfer, hm, if_neg (by decide), if_pos h0]

/-- Clearing bit 0 rounds down to an even number (R202). -/
theorem jalrTarget_toNat (base imm : Word) : (jalrTarget base imm).toNat = (base + imm).toNat / 2 * 2 := by
  have h : ∀ v : Word, v &&& 0xFFFFFFFE#32 = (v >>> 1) <<< 1 := by
    intro v
    apply BitVec.eq_of_getLsbD_eq
    intro i hi
    have hc : (0xFFFFFFFE#32).getLsbD i = decide (1 ≤ i) := by
      have : ∀ j : Fin 32, (0xFFFFFFFE#32).getLsbD j.val = decide (1 ≤ j.val) := by decide
      exact this ⟨i, hi⟩
    rw [BitVec.getLsbD_and, hc, BitVec.getLsbD_shiftLeft, BitVec.getLsbD_ushiftRight]
    by_cases h1 : 1 ≤ i
    · simp [hi, h1, Nat.not_lt.mpr h1, Nat.add_sub_of_le h1]
    · simp [h1, show i < 1 by omega]
  have hlt := (base + imm).isLt
  rw [jalrTarget, show (0xFFFFFFFE : Word) = 0xFFFFFFFE#32 from rfl, h, BitVec.toNat_shiftLeft, BitVec.toNat_ushiftRight, Nat.shiftLeft_eq, Nat.shiftRight_eq_div_pow]
  omega

theorem branch_next (s t : State) (kind : BranchKind) (rs1 rs2 : Reg) (offset : BitVec 13) :
    s.branch kind rs1 rs2 offset = .next t ↔
      (s.holds rs1 = true ∧ s.holds rs2 = true) ∧
        s.transfer 0 (branchTaken kind (s.reg rs1) (s.reg rs2)) (s.pc + sext13 offset) = .next t := by
  simp [State.branch, pcTarget]

/-- A step of a running machine that answers a next state: the checks passed, and the decoded word ran. -/
theorem step_next (s t : State) :
    step s = .next t ↔
      s.run = .running ∧ s.pc.toNat / 4 < s.cfg.imemDepth ∧ strictFault s.cfg s.pc s.fetch = none ∧
        runDecoded (decode s.fetch) s = .next t := by
  unfold step sequentialStep
  split
  · next h => simp [h, runInstruction, fetchFault_eq_none]
  · next h => simp [h]
  · next h => simp [h]

end Sys2Proof.Machine
end

