-- ==== Sys2Proof/Laws/Frames.lean ====
section
/-! SUPPORT. The frames: the state each shared operation leaves, in the terms of Safety.lean. -/

namespace Sys2Proof.Machine

/-- Writing back and going on (R33, R37). -/
theorem retire_retires (s : State) (rd : Reg) (v : Word) : Retires s (s.retire rd v) rd v where
  cfg := by simp
  imem := by simp
  mul := by simp
  pipe := by simp
  cycles := by simp
  run := by simp
  haltLog := by simp
  freeCount := by simp
  writes := ⟨fun r => State.reg_retire s rd r v, fun r => State.holds_retire s rd r v⟩
  memory := fun a => by simp
  predictor := by simp
  div := by simp
  pc := by simp

/-- A divide writes back and sets the divider's `error` flag (R301). -/
theorem retire_divides (s : State) (rd : Reg) (v : Word) (e : Bool) :
    Divides s { s.retire rd v with div := { s.div with error := e } } rd v e where
  cfg := by simp
  imem := by simp
  mul := by simp
  pipe := by simp
  cycles := by simp
  run := by simp
  haltLog := by simp
  freeCount := by simp
  writes := ⟨fun r => State.reg_retire s rd r v, fun r => State.holds_retire s rd r v⟩
  memory := fun a => by simp
  predictor := by simp
  div := rfl
  pc := by simp

/-- A control transfer (R203, R204, R218). -/
theorem transferred_transfers (s : State) (rd : Reg) (taken : Bool) (target : Word) :
    Transfers s (s.transferred rd taken target) rd taken target where
  cfg := by simp [State.transferred]
  imem := by simp [State.transferred]
  mul := by simp [State.transferred]
  pipe := by simp [State.transferred]
  cycles := by simp [State.transferred]
  run := by simp [State.transferred]
  haltLog := by simp [State.transferred]
  freeCount := by simp [State.transferred]
  writes := ⟨fun r => State.reg_writeReg s rd r _, fun r => State.holds_writeReg s rd r _⟩
  memory := fun a => by simp [State.transferred]
  div := by simp [State.transferred]
  pc := rfl
  predictor := rfl

/-- A store (R254). -/
theorem store_stores (s : State) (a v : Word) (width : MemWidth) :
    Stores s { s with dmem := s.dmem.store a width v }.advance a.toNat (storeLanes width v) where
  cfg := rfl
  imem := rfl
  mul := rfl
  pipe := rfl
  cycles := rfl
  run := rfl
  haltLog := rfl
  freeCount := rfl
  regs := fun _ => rfl
  held := fun _ => rfl
  stored := fun i h => by
    rw [State.advance_dmem, Memory.store, Memory.byte_storeBytes, if_pos (by omega), Nat.add_sub_cancel_left]
    exact (List.getElem_eq_getD _).symm
  others := fun b h => Memory.byte_storeBytes_outside _ _ _ _ h
  predictor := rfl
  div := rfl
  pc := rfl

/-- A halt (R333). -/
theorem halt_halts (s : State) : Halts s s.halt where
  cfg := rfl
  imem := rfl
  mul := rfl
  pipe := rfl
  cycles := rfl
  run := rfl
  regs := fun _ => rfl
  held := fun _ => rfl
  memory := fun _ h => Memory.byte_forgetAll_outside _ _ _ _ h
  predictor := rfl
  div := rfl
  pc := rfl

end Sys2Proof.Machine
end

