-- ==== Sys2Proof/Laws/Halt.lean ====
section
/-! SUPPORT. What follows a halt: which stores `storesBehind` names, and that they lie within the data memory. -/

namespace Sys2Proof.Machine

/-! ### `settled` and `behind` -/

@[simp] theorem State.settled_cfg (s : State) (pc : Word) : (s.settled pc).cfg = s.cfg := by
  simp only [State.settled]
@[simp] theorem State.settled_imem (s : State) (pc : Word) : (s.settled pc).imem = s.imem := by
  simp only [State.settled]
@[simp] theorem State.settled_predictor (s : State) (pc : Word) : (s.settled pc).predictor = s.predictor := by
  simp only [State.settled]

@[simp] theorem State.settled_pc (s : State) (pc : Word) : (s.settled pc).pc = pc := by
  simp only [State.settled]

@[simp] theorem State.behind_cfg (s : State) (d : DecodedControl) : (s.behind d).cfg = s.cfg := by
  simp [State.behind]

@[simp] theorem State.behind_imem (s : State) (d : DecodedControl) : (s.behind d).imem = s.imem := by
  simp [State.behind]

@[simp] theorem State.behind_pc (s : State) (d : DecodedControl) : (s.behind d).pc = s.pcBehind d := rfl

/-- A register that holds a value reads as itself. -/
theorem State.settled_reg (s : State) (pc : Word) (r : Reg) (h : s.holds r = true) :
    (s.settled pc).reg r = s.reg r := by
  by_cases h0 : r = 0#5
  · simp [h0]
  · have hb : BitVec.ofNat 5 r.toNat = r := by simp
    simp [State.settled, State.reg, h0, State.logValue, h]

/-- An instruction that is no transfer goes on to the next word (R37). -/
theorem State.pcBehind_of_none (s : State) (d : DecodedControl) (h : d.ctrl.branchKind = .none) :
    s.pcBehind d = s.pc + 4 := by
  simp [State.pcBehind, h, branchTaken, resolvedNext]

/-! ### `storesBehind` -/

/-- A store's access lies within the data memory, or has length 0 (R256). -/
theorem State.storeAccess_room (s : State) (d : DecodedControl) :
    (s.storeAccess d).2 = 0 ∨ (s.storeAccess d).1 + (s.storeAccess d).2 ≤ 4 * s.cfg.dmemDepth := by
  simp only [State.storeAccess]
  split
  · next h =>
    unfold storedBytes
    split
    · exact .inr (accessFault_room h)
    · exact .inl rfl
  · exact .inl rfl

/-- What is no store has an access of length 0. -/
theorem State.storeAccess_of_ne (s : State) (d : DecodedControl) (h : d.ctrl.memOp ≠ .store) :
    (s.storeAccess d).2 = 0 := by
  have : storedBytes d.ctrl.memOp d.ctrl.memWidth = 0 := by
    unfold storedBytes
    split
    · next h' => exact absurd h' h
    · rfl
  simp [State.storeAccess, this]

/-- The access of the first word behind is always there. -/
theorem State.storesBehind_first (s : State) (pc : Word) :
    (s.settled (pc + 4)).storeAccess
      (s.settled (pc + 4)).controlAtPc ∈ s.storesBehind pc := by
  unfold State.storesBehind
  exact List.mem_cons_self

theorem State.mem_storesBehind {s : State} {pc : Word} {r : Nat × Nat} (h : r ∈ s.storesBehind pc) :
    let first : State := s.settled (pc + 4)
    let second := first.behind first.controlAtPc
    r = first.storeAccess first.controlAtPc ∨ r = second.storeAccess second.controlAtPc := by
  unfold State.storesBehind at h
  obtain h | h := List.mem_cons.mp h
  · exact .inl h
  · split at h
    · exact .inr (List.mem_singleton.mp h)
    · cases h

/-- Every access behind a halt lies within the data memory, or has length 0. -/
theorem State.storesBehind_room (s : State) (pc : Word) :
    ∀ r ∈ s.storesBehind pc, r.2 = 0 ∨ r.1 + r.2 ≤ 4 * s.cfg.dmemDepth := by
  intro r hr
  obtain rfl | rfl := State.mem_storesBehind hr
  · simpa using State.storeAccess_room (s.settled (pc + 4)) _
  · simpa using State.storeAccess_room ((s.settled (pc + 4)).behind (s.settled (pc + 4)).controlAtPc) _

end Sys2Proof.Machine
end

