-- ==== Sys2Proof/Laws/PerInstr.lean ====
section
/-! SUPPORT. A statement for every instruction, one lemma per constructor: its word has the fixed bits that its row of
spec/opcode_table.json gives. -/

namespace Sys2Proof.Laws.TableWord

/-- `canonical_mask` and `canonical_match` of the instruction's row of spec/opcode_table.json. -/
def canonicalRow : Instr → Word × Word
  | .lui _ _ => (0x0000007F, 0x00000037)
  | .auipc _ _ => (0x0000007F, 0x00000017)
  | .jal _ _ => (0x0000007F, 0x0000006F)
  | .jalr _ _ _ => (0x0000707F, 0x00000067)
  | .beq _ _ _ => (0x0000707F, 0x00000063)
  | .bne _ _ _ => (0x0000707F, 0x00001063)
  | .blt _ _ _ => (0x0000707F, 0x00004063)
  | .bge _ _ _ => (0x0000707F, 0x00005063)
  | .bltu _ _ _ => (0x0000707F, 0x00006063)
  | .bgeu _ _ _ => (0x0000707F, 0x00007063)
  | .lb _ _ _ => (0x0000707F, 0x00000003)
  | .lh _ _ _ => (0x0000707F, 0x00001003)
  | .lw _ _ _ => (0x0000707F, 0x00002003)
  | .lbu _ _ _ => (0x0000707F, 0x00004003)
  | .lhu _ _ _ => (0x0000707F, 0x00005003)
  | .sb _ _ _ => (0x0000707F, 0x00000023)
  | .sh _ _ _ => (0x0000707F, 0x00001023)
  | .sw _ _ _ => (0x0000707F, 0x00002023)
  | .addi _ _ _ => (0x0000707F, 0x00000013)
  | .slti _ _ _ => (0x0000707F, 0x00002013)
  | .sltiu _ _ _ => (0x0000707F, 0x00003013)
  | .xori _ _ _ => (0x0000707F, 0x00004013)
  | .ori _ _ _ => (0x0000707F, 0x00006013)
  | .andi _ _ _ => (0x0000707F, 0x00007013)
  | .slli _ _ _ => (0xFE00707F, 0x00001013)
  | .srli _ _ _ => (0xFE00707F, 0x00005013)
  | .srai _ _ _ => (0xFE00707F, 0x40005013)
  | .add _ _ _ => (0xFE00707F, 0x00000033)
  | .sub _ _ _ => (0xFE00707F, 0x40000033)
  | .sll _ _ _ => (0xFE00707F, 0x00001033)
  | .slt _ _ _ => (0xFE00707F, 0x00002033)
  | .sltu _ _ _ => (0xFE00707F, 0x00003033)
  | .xor _ _ _ => (0xFE00707F, 0x00004033)
  | .srl _ _ _ => (0xFE00707F, 0x00005033)
  | .sra _ _ _ => (0xFE00707F, 0x40005033)
  | .or _ _ _ => (0xFE00707F, 0x00006033)
  | .and _ _ _ => (0xFE00707F, 0x00007033)
  | .mul _ _ _ => (0xFE00707F, 0x02000033)
  | .mulh _ _ _ => (0xFE00707F, 0x02001033)
  | .mulhsu _ _ _ => (0xFE00707F, 0x02002033)
  | .mulhu _ _ _ => (0xFE00707F, 0x02003033)
  | .div _ _ _ => (0xFE00707F, 0x02004033)
  | .divu _ _ _ => (0xFE00707F, 0x02005033)
  | .rem _ _ _ => (0xFE00707F, 0x02006033)
  | .remu _ _ _ => (0xFE00707F, 0x02007033)
  | .ecall => (0xFFFFFFFF, 0x00000073)
  | .ebreak => (0xFFFFFFFF, 0x00100073)
  | .haltSb => (0xFFFFFFFF, 0xFE000FA3)
  | .nop => (0xFFFFFFFF, 0x00000013)
  | .zeroWord => (0xFFFFFFFF, 0x00000000)

/-- The instruction's word, masked, is its row's pattern. -/
def Statement (i : Instr) : Prop := encode i &&& (canonicalRow i).1 = (canonicalRow i).2

/-! ### Masks, format by format -/

/-- A mask of bits 6..0, 14..12 and 31..25 keeps the opcode, funct3 and funct7. -/
theorem and_encR (f7 : BitVec 7) (rs2 rs1 : Reg) (f3 : BitVec 3) (rd : Reg) (op : BitVec 7) :
    encR f7 rs2 rs1 f3 rd op &&& 0xFE00707F = encR f7 0 0 f3 0 op := by
  apply BitVec.eq_of_getLsbD_eq
  intro i hi
  have hm : ∀ j : Fin 32,
      (0xFE00707F : Word).getLsbD j.val = decide (j.val < 7 ∨ (12 ≤ j.val ∧ j.val < 15) ∨ 25 ≤ j.val) := by decide
  rw [BitVec.getLsbD_and, hm ⟨i, hi⟩]
  simp only [encR, BitVec.getLsbD_append]
  by_cases h1 : i < 7
  · simp [h1]
  · by_cases h2 : i < 12
    · simp [h1, show i - 7 < 5 by omega, show ¬12 ≤ i by omega, show ¬25 ≤ i by omega]
    · by_cases h3 : i < 15
      · simp [h1, show ¬i - 7 < 5 by omega, show i - 7 - 5 < 3 by omega, show 12 ≤ i by omega, h3]
      · by_cases h4 : i < 25
        · by_cases h5 : i - 7 - 5 - 3 < 5 <;> by_cases h6 : i - 7 - 5 - 3 - 5 < 5 <;>
            simp [h1, h3, show ¬i - 7 < 5 by omega, show ¬i - 7 - 5 < 3 by omega, show ¬25 ≤ i by omega, h5, h6]
          omega
        · simp [h1, show ¬i - 7 < 5 by omega, show ¬i - 7 - 5 < 3 by omega, show ¬i - 7 - 5 - 3 < 5 by omega,
            show ¬i - 7 - 5 - 3 - 5 < 5 by omega, show 25 ≤ i by omega]

/-- A word masked to its opcode and funct3. -/
theorem and_funct3 (w : Word) (f3 : BitVec 3) (op : BitVec 7) (ho : opcodeOf w = op) (hf : funct3Of w = f3) :
    w &&& 0x0000707F = encR 0 0 0 f3 0 op := by
  subst ho hf
  apply BitVec.eq_of_getLsbD_eq
  intro i hi
  have hm : ∀ j : Fin 32, (0x0000707F : Word).getLsbD j.val = decide (j.val < 7 ∨ (12 ≤ j.val ∧ j.val < 15)) := by
    decide
  rw [BitVec.getLsbD_and, hm ⟨i, hi⟩]
  simp only [encR, BitVec.getLsbD_append, opcodeOf, funct3Of, BitVec.getLsbD_extractLsb']
  by_cases h1 : i < 7
  · simp [h1]
  · by_cases h2 : i < 12
    · simp [h1, show i - 7 < 5 by omega, show ¬12 ≤ i by omega]
    · by_cases h3 : i < 15
      · simp [h1, show ¬i - 7 < 5 by omega, show i - 7 - 5 < 3 by omega, show 12 ≤ i by omega, h3,
          show 12 + (i - 7 - 5) = i by omega]
      · simp [h1, show ¬i - 7 < 5 by omega, show ¬i - 7 - 5 < 3 by omega, h3]

/-- A word masked to its opcode. -/
theorem and_opcode (w : Word) (op : BitVec 7) (ho : opcodeOf w = op) : w &&& 0x0000007F = encR 0 0 0 0 0 op := by
  subst ho
  apply BitVec.eq_of_getLsbD_eq
  intro i hi
  have hm : ∀ j : Fin 32, (0x0000007F : Word).getLsbD j.val = decide (j.val < 7) := by decide
  rw [BitVec.getLsbD_and, hm ⟨i, hi⟩]
  simp only [encR, BitVec.getLsbD_append, opcodeOf, BitVec.getLsbD_extractLsb']
  by_cases h1 : i < 7 <;> simp [h1]

/-! ### One lemma per constructor -/

/-- LUI (R163). -/
theorem lui (rd : Reg) (imm : BitVec 20) : Statement (.lui rd imm) := and_opcode _ _ (opcodeOf_encU ..)

/-- AUIPC (R164). -/
theorem auipc (rd : Reg) (imm : BitVec 20) : Statement (.auipc rd imm) := and_opcode _ _ (opcodeOf_encU ..)

/-- JAL (R207). -/
theorem jal (rd : Reg) (offset : BitVec 21) : Statement (.jal rd offset) := and_opcode _ _ (opcodeOf_encJ ..)

/-- JALR (R208). -/
theorem jalr (rd rs1 : Reg) (imm : BitVec 12) : Statement (.jalr rd rs1 imm) := and_funct3 _ _ _ (opcodeOf_encI ..) (funct3Of_encI ..)

/-- BEQ (R209). -/
theorem beq (rs1 rs2 : Reg) (offset : BitVec 13) : Statement (.beq rs1 rs2 offset) := and_funct3 _ _ _ (opcodeOf_encB ..) (funct3Of_encB ..)

/-- BNE (R210). -/
theorem bne (rs1 rs2 : Reg) (offset : BitVec 13) : Statement (.bne rs1 rs2 offset) := and_funct3 _ _ _ (opcodeOf_encB ..) (funct3Of_encB ..)

/-- BLT (R211). -/
theorem blt (rs1 rs2 : Reg) (offset : BitVec 13) : Statement (.blt rs1 rs2 offset) := and_funct3 _ _ _ (opcodeOf_encB ..) (funct3Of_encB ..)

/-- BGE (R212). -/
theorem bge (rs1 rs2 : Reg) (offset : BitVec 13) : Statement (.bge rs1 rs2 offset) := and_funct3 _ _ _ (opcodeOf_encB ..) (funct3Of_encB ..)

/-- BLTU (R213). -/
theorem bltu (rs1 rs2 : Reg) (offset : BitVec 13) : Statement (.bltu rs1 rs2 offset) := and_funct3 _ _ _ (opcodeOf_encB ..) (funct3Of_encB ..)

/-- BGEU (R214). -/
theorem bgeu (rs1 rs2 : Reg) (offset : BitVec 13) : Statement (.bgeu rs1 rs2 offset) := and_funct3 _ _ _ (opcodeOf_encB ..) (funct3Of_encB ..)

/-- LB (R259). -/
theorem lb (rd rs1 : Reg) (imm : BitVec 12) : Statement (.lb rd rs1 imm) := and_funct3 _ _ _ (opcodeOf_encI ..) (funct3Of_encI ..)

/-- LH (R260). -/
theorem lh (rd rs1 : Reg) (imm : BitVec 12) : Statement (.lh rd rs1 imm) := and_funct3 _ _ _ (opcodeOf_encI ..) (funct3Of_encI ..)

/-- LW (R261). -/
theorem lw (rd rs1 : Reg) (imm : BitVec 12) : Statement (.lw rd rs1 imm) := and_funct3 _ _ _ (opcodeOf_encI ..) (funct3Of_encI ..)

/-- LBU (R262). -/
theorem lbu (rd rs1 : Reg) (imm : BitVec 12) : Statement (.lbu rd rs1 imm) := and_funct3 _ _ _ (opcodeOf_encI ..) (funct3Of_encI ..)

/-- LHU (R263). -/
theorem lhu (rd rs1 : Reg) (imm : BitVec 12) : Statement (.lhu rd rs1 imm) := and_funct3 _ _ _ (opcodeOf_encI ..) (funct3Of_encI ..)

/-- SB (R265). -/
theorem sb (rs2 rs1 : Reg) (imm : BitVec 12) : Statement (.sb rs2 rs1 imm) := and_funct3 _ _ _ (opcodeOf_encS ..) (funct3Of_encS ..)

/-- SH (R266). -/
theorem sh (rs2 rs1 : Reg) (imm : BitVec 12) : Statement (.sh rs2 rs1 imm) := and_funct3 _ _ _ (opcodeOf_encS ..) (funct3Of_encS ..)

/-- SW (R267). -/
theorem sw (rs2 rs1 : Reg) (imm : BitVec 12) : Statement (.sw rs2 rs1 imm) := and_funct3 _ _ _ (opcodeOf_encS ..) (funct3Of_encS ..)

/-- ADDI (R165). -/
theorem addi (rd rs1 : Reg) (imm : BitVec 12) : Statement (.addi rd rs1 imm) := and_funct3 _ _ _ (opcodeOf_encI ..) (funct3Of_encI ..)

/-- SLTI (R166). -/
theorem slti (rd rs1 : Reg) (imm : BitVec 12) : Statement (.slti rd rs1 imm) := and_funct3 _ _ _ (opcodeOf_encI ..) (funct3Of_encI ..)

/-- SLTIU (R167). -/
theorem sltiu (rd rs1 : Reg) (imm : BitVec 12) : Statement (.sltiu rd rs1 imm) := and_funct3 _ _ _ (opcodeOf_encI ..) (funct3Of_encI ..)

/-- XORI (R168). -/
theorem xori (rd rs1 : Reg) (imm : BitVec 12) : Statement (.xori rd rs1 imm) := and_funct3 _ _ _ (opcodeOf_encI ..) (funct3Of_encI ..)

/-- ORI (R169). -/
theorem ori (rd rs1 : Reg) (imm : BitVec 12) : Statement (.ori rd rs1 imm) := and_funct3 _ _ _ (opcodeOf_encI ..) (funct3Of_encI ..)

/-- ANDI (R170). -/
theorem andi (rd rs1 : Reg) (imm : BitVec 12) : Statement (.andi rd rs1 imm) := and_funct3 _ _ _ (opcodeOf_encI ..) (funct3Of_encI ..)

/-- SLLI (R171). -/
theorem slli (rd rs1 : Reg) (shamt : BitVec 5) : Statement (.slli rd rs1 shamt) := and_encR ..

/-- SRLI (R172). -/
theorem srli (rd rs1 : Reg) (shamt : BitVec 5) : Statement (.srli rd rs1 shamt) := and_encR ..

/-- SRAI (R173). -/
theorem srai (rd rs1 : Reg) (shamt : BitVec 5) : Statement (.srai rd rs1 shamt) := and_encR ..

/-- ADD (R174). -/
theorem add (rd rs1 rs2 : Reg) : Statement (.add rd rs1 rs2) := and_encR ..

/-- SUB (R175). -/
theorem sub (rd rs1 rs2 : Reg) : Statement (.sub rd rs1 rs2) := and_encR ..

/-- SLL (R176). -/
theorem sll (rd rs1 rs2 : Reg) : Statement (.sll rd rs1 rs2) := and_encR ..

/-- SLT (R177). -/
theorem slt (rd rs1 rs2 : Reg) : Statement (.slt rd rs1 rs2) := and_encR ..

/-- SLTU (R178). -/
theorem sltu (rd rs1 rs2 : Reg) : Statement (.sltu rd rs1 rs2) := and_encR ..

/-- XOR (R179). -/
theorem xor (rd rs1 rs2 : Reg) : Statement (.xor rd rs1 rs2) := and_encR ..

/-- SRL (R180). -/
theorem srl (rd rs1 rs2 : Reg) : Statement (.srl rd rs1 rs2) := and_encR ..

/-- SRA (R181). -/
theorem sra (rd rs1 rs2 : Reg) : Statement (.sra rd rs1 rs2) := and_encR ..

/-- OR (R182). -/
theorem or (rd rs1 rs2 : Reg) : Statement (.or rd rs1 rs2) := and_encR ..

/-- AND (R183). -/
theorem and (rd rs1 rs2 : Reg) : Statement (.and rd rs1 rs2) := and_encR ..

/-- MUL (R282). -/
theorem mul (rd rs1 rs2 : Reg) : Statement (.mul rd rs1 rs2) := and_encR ..

/-- MULH (R283). -/
theorem mulh (rd rs1 rs2 : Reg) : Statement (.mulh rd rs1 rs2) := and_encR ..

/-- MULHSU (R284). -/
theorem mulhsu (rd rs1 rs2 : Reg) : Statement (.mulhsu rd rs1 rs2) := and_encR ..

/-- MULHU (R285). -/
theorem mulhu (rd rs1 rs2 : Reg) : Statement (.mulhu rd rs1 rs2) := and_encR ..

/-- DIV (R302). -/
theorem div (rd rs1 rs2 : Reg) : Statement (.div rd rs1 rs2) := and_encR ..

/-- DIVU (R303). -/
theorem divu (rd rs1 rs2 : Reg) : Statement (.divu rd rs1 rs2) := and_encR ..

/-- REM (R304). -/
theorem rem (rd rs1 rs2 : Reg) : Statement (.rem rd rs1 rs2) := and_encR ..

/-- REMU (R305). -/
theorem remu (rd rs1 rs2 : Reg) : Statement (.remu rd rs1 rs2) := and_encR ..

/-- ECALL (R330). -/
theorem ecall : Statement (.ecall) := rfl

/-- EBREAK (R331). -/
theorem ebreak : Statement (.ebreak) := rfl

/-- HALT_SB (R332). -/
theorem haltSb : Statement (.haltSb) := rfl

/-- NOP (R334). -/
theorem nop : Statement (.nop) := rfl

/-- ZERO_WORD (R335). -/
theorem zeroWord : Statement (.zeroWord) := rfl

end Sys2Proof.Laws.TableWord
end

