-- ==== Sys2Proof/Laws/Pipeline.lean ====
section
/-! SUPPORT. The cycle level: what a cycle can do, and what the Execution stage can do, said once. -/

namespace Sys2Proof.Machine

/-- A clock cycle that answers a next state: no fault in WB, and either the halt or one cycle of every stage. -/
theorem cycle_next {s t : State} (h : cycle s = .next t) :
    s.run = .running ∧ s.pipe.mw.fault = none ∧
      ((s.pipe.mw.haltFlag = true ∧ t = s.haltCycle) ∨ (s.pipe.mw.haltFlag = false ∧ t = s.clock)) := by
  unfold cycle at h
  split at h
  · cases h
  · cases h
  · split at h
    · cases h
    · split at h <;> cases h
      · exact ⟨‹_›, ‹_›, .inl ⟨‹_›, rfl⟩⟩
      · exact ⟨‹_›, ‹_›, .inr ⟨Bool.eq_false_iff.mpr ‹_›, rfl⟩⟩

theorem flush_eq_true (s : State) : s.flush = true ↔ s.pipe.btReg ≠ 0 := by simp [State.flush]

theorem flush_eq_false (s : State) : s.flush = false ↔ s.pipe.btReg = 0 := by simp [State.flush]

/-- Under flush EX runs a bubble (R387, R418). -/
theorem execute_flush (s : State) (h : s.flush = true) : s.execute = s.exIdle ExMem.bubble 0 := by
  simp only [State.execute, State.exInstr, h, if_true]; rfl

/-- What EX writes for an instruction, case by case (R387 to R390, R287). -/
inductive ExEffect (s : State) (x : IdEx) (a b : Word) : ExOut → Prop where
  /-- A packet an earlier stage marked (R354). -/
  | marked (f : Fault) (v : Word) (h : x.fault = some f) : ExEffect s x a b (s.exIdle (ExMem.marked f x.pc v) v)
  /-- The multiplier's result is taken (R290). -/
  | mulDone (q : MulRequest) (hf : x.fault = none) (hq : mulRequest x.ctrl.aluOp = some q) (hr : s.mul.ready = true) :
      ExEffect s x a b { s.exIdle (ExMem.ofControl x.ctrl x.pc s.mul.output) s.mul.output with mul := s.mul.consume }
  /-- The multiplier works (R287, R290). -/
  | mulWait (q : MulRequest) (hf : x.fault = none) (hq : mulRequest x.ctrl.aluOp = some q) (hr : s.mul.ready = false)
      (hb : s.mul.busy = true) : ExEffect s x a b (s.exHold s.mul.tick (s.div.tick s.cfg.divImpl))
  /-- The multiplier starts (R290). -/
  | mulStart (q : MulRequest) (hf : x.fault = none) (hq : mulRequest x.ctrl.aluOp = some q) (hr : s.mul.ready = false)
      (hb : s.mul.busy = false) : ExEffect s x a b (s.exHold (s.mul.accept q a b) (s.div.tick s.cfg.divImpl))
  /-- The divider's result is taken (R316). -/
  | divDone (q : DivRequest) (hf : x.fault = none) (hm : mulRequest x.ctrl.aluOp = none)
      (hq : divRequest x.ctrl.aluOp = some q) (hr : s.div.ready = true) :
      ExEffect s x a b { s.exIdle (ExMem.ofControl x.ctrl x.pc s.div.output) s.div.output with div := s.div.consume }
  /-- The divider starts (R306). -/
  | divStart (q : DivRequest) (hf : x.fault = none) (hm : mulRequest x.ctrl.aluOp = none)
      (hq : divRequest x.ctrl.aluOp = some q) (hi : s.div.state = .idle) :
      ExEffect s x a b (s.exHold s.mul.tick (s.div.accept q a b))
  /-- The divider works (R287, R310, R311). -/
  | divWait (q : DivRequest) (hf : x.fault = none) (hm : mulRequest x.ctrl.aluOp = none)
      (hq : divRequest x.ctrl.aluOp = some q) (hr : s.div.ready = false) (hi : s.div.state ≠ .idle) :
      ExEffect s x a b (s.exHold s.mul.tick (s.div.tick s.cfg.divImpl))
  /-- A taken transfer to a misaligned target is marked (R205, R354). -/
  | transferMarked (f : Fault) (v : Word) (hf : x.fault = none) (hm : mulRequest x.ctrl.aluOp = none)
      (hd : divRequest x.ctrl.aluOp = none) (hk : x.ctrl.branchKind ≠ .none) :
      ExEffect s x a b (s.exIdle (ExMem.marked f x.pc v) v)
  /-- A transfer (R203, R215, R216, R218). -/
  | transfer (link target : Word) (taken : Bool) (hf : x.fault = none) (hm : mulRequest x.ctrl.aluOp = none)
      (hd : divRequest x.ctrl.aluOp = none) (hk : x.ctrl.branchKind ≠ .none)
      (ha : taken = true → target.toNat % 4 = 0) :
      ExEffect s x a b
        { s.exIdle (ExMem.ofControl x.ctrl x.pc link) link with
          btReg :=
            if resolvedNext taken x.pc target != x.ctrl.predictedNextPc then resolvedNext taken x.pc target else 0
          predictor := s.predictor.train s.cfg x.pc taken target }
  /-- An access with an illegal address is marked (R256, R354). -/
  | memoryMarked (f : Fault) (v : Word) (hf : x.fault = none) (hm : mulRequest x.ctrl.aluOp = none)
      (hd : divRequest x.ctrl.aluOp = none) (hk : x.ctrl.branchKind = .none) (ho : x.ctrl.memOp ≠ .none) :
      ExEffect s x a b (s.exIdle (ExMem.marked f x.pc v) v)
  /-- A load or store (R251, R254). -/
  | memory (address : Word) (hf : x.fault = none) (hm : mulRequest x.ctrl.aluOp = none)
      (hd : divRequest x.ctrl.aluOp = none) (hk : x.ctrl.branchKind = .none) (ho : x.ctrl.memOp ≠ .none)
      (hl : accessFault s.cfg x.pc address x.ctrl.memWidth = none) :
      ExEffect s x a b
        { s.exIdle (ExMem.ofControl x.ctrl x.pc address) address with
          dmemOut := if x.ctrl.memOp = .load then s.dmem.wordAt address else s.pipe.dmemOut
          dmem := if x.ctrl.memOp = .store then s.dmem.store address x.ctrl.memWidth b else s.dmem }
  /-- Every other instruction (R390). -/
  | other (v : Word) (hf : x.fault = none) (hm : mulRequest x.ctrl.aluOp = none) (hd : divRequest x.ctrl.aluOp = none)
      (hk : x.ctrl.branchKind = .none) (ho : x.ctrl.memOp = .none) :
      ExEffect s x a b (s.exIdle (ExMem.ofControl x.ctrl x.pc v) v)

theorem exMultiply_effect {s : State} {x : IdEx} {a b : Word} {q : MulRequest} (hf : x.fault = none)
    (hq : mulRequest x.ctrl.aluOp = some q) : ExEffect s x a b (s.exMultiply x q a b) := by
  unfold State.exMultiply
  cases hr : s.mul.ready
  · cases hb : s.mul.busy
    · exact .mulStart q hf hq hr hb
    · exact .mulWait q hf hq hr hb
  · exact .mulDone q hf hq hr

theorem exDivide_effect {s : State} {x : IdEx} {a b : Word} {q : DivRequest} (hf : x.fault = none)
    (hm : mulRequest x.ctrl.aluOp = none) (hq : divRequest x.ctrl.aluOp = some q) :
    ExEffect s x a b (s.exDivide x q a b) := by
  unfold State.exDivide
  cases hr : s.div.ready
  · by_cases hi : s.div.state = .idle
    · simp only [hi, Bool.false_eq_true, if_false, if_true]; exact .divStart q hf hm hq hi
    · simp only [hi, Bool.false_eq_true, if_false]; exact .divWait q hf hm hq hr hi
  · exact .divDone q hf hm hq hr

theorem exTransfer_effect {s : State} {x : IdEx} {a b link : Word} (hf : x.fault = none)
    (hm : mulRequest x.ctrl.aluOp = none) (hd : divRequest x.ctrl.aluOp = none) (hk : x.ctrl.branchKind ≠ .none) :
    ExEffect s x a b (s.exTransfer x a b link) := by
  unfold State.exTransfer
  simp only
  split
  · exact .transferMarked _ _ hf hm hd hk
  · next hc =>
    refine .transfer link _ _ hf hm hd hk fun ht => ?_
    simpa [ht, misalignedPc] using hc

theorem exMemory_effect {s : State} {x : IdEx} {a b address : Word} (hf : x.fault = none)
    (hm : mulRequest x.ctrl.aluOp = none) (hd : divRequest x.ctrl.aluOp = none) (hk : x.ctrl.branchKind = .none)
    (ho : x.ctrl.memOp ≠ .none) : ExEffect s x a b (s.exMemory x b address) := by
  unfold State.exMemory
  split
  · exact .memoryMarked _ _ hf hm hd hk ho
  · exact .memory address hf hm hd hk ho ‹_›

/-- What EX can do. -/
theorem exOn_effect (s : State) (x : IdEx) (a b : Word) : ExEffect s x a b (s.exOn x a b) := by
  unfold State.exOn
  simp only
  split
  · exact .marked _ _ ‹_›
  · exact exMultiply_effect ‹_› ‹_›
  · exact exDivide_effect ‹_› ‹_› ‹_›
  · split
    · exact exTransfer_effect ‹_› ‹_› ‹_› ‹_›
    · next hk =>
      have hk := Decidable.not_not.mp hk
      split
      · exact exMemory_effect ‹_› ‹_› ‹_› hk ‹_›
      · next ho => exact .other _ ‹_› ‹_› ‹_› hk (Decidable.not_not.mp ho)

theorem execute_effect (s : State) :
    ExEffect s s.exInstr (forwarded s.pipe s.exInstr.fwd1 s.exInstr.rs1Val)
      (forwarded s.pipe s.exInstr.fwd2 s.exInstr.rs2Val) s.execute := exOn_effect ..

/-- A unit that holds EX leaves a bubble, and the instruction in EX is an unmarked one of its class (R287, R289). -/
theorem ExEffect.of_hold {s : State} {x : IdEx} {a b : Word} {o : ExOut} (h : ExEffect s x a b o) (hh : o.hold = true) :
    x.fault = none ∧ (∃ m d, o = s.exHold m d) ∧
      ((mulRequest x.ctrl.aluOp).isSome = true ∨ (divRequest x.ctrl.aluOp).isSome = true) := by
  cases h with
  | mulWait q hf hq | mulStart q hf hq => exact ⟨hf, ⟨_, _, rfl⟩, .inl (by rw [hq]; rfl)⟩
  | divWait q hf hm hq | divStart q hf hm hq => exact ⟨hf, ⟨_, _, rfl⟩, .inr (by rw [hq]; rfl)⟩
  | _ => cases hh

/-- What EX forwards is what it passes to MEM, when it passes an instruction (R390). -/
theorem ExEffect.bypass {s : State} {x : IdEx} {a b : Word} {o : ExOut} (h : ExEffect s x a b o)
    (hh : o.hold = false) : o.bypEx = o.em.result := by
  cases h with
  | mulWait | mulStart | divWait | divStart => cases hh
  | _ => rfl

/-- A flush never meets a held EX (R397). -/
theorem flush_of_hold {s : State} (h : s.execute.hold = true) : s.flush = false := by
  cases hf : s.flush
  · rfl
  · rw [execute_flush s hf] at h; cases h

end Sys2Proof.Machine
end

