-- ==== Sys2Proof/Laws/Predictor.lean ====
section
/-! SUPPORT. The predictor: reading its tables after an update, and every update keeps its invariant. -/

namespace Sys2Proof.Machine

theorem btbIndex_lt (cfg : Config) (p : Word) : btbIndex cfg p < 2 ^ cfg.btbBits := Nat.mod_lt _ (Nat.two_pow_pos _)

theorem counterIndex_lt (cfg : Config) (p : Word) : counterIndex cfg p < 2 ^ cfg.ctrBits :=
  Nat.mod_lt _ (Nat.two_pow_pos _)

/-- `sat(c, up)` as a number (R225). -/
theorem sat_val (c : Counter) (up : Bool) : (Counter.sat c up).val = if up then min 3 (c.val + 1) else c.val - 1 := by
  revert c up; decide

/-- A counter after one of its table moved (R225). -/
theorem counterAt_train (t : Table Counter) (i j : Nat) (up : Bool) :
    counterAt (trainCounter t i up) j = if j = i then Counter.sat (counterAt t i) up else counterAt t j :=
  Table.get_set 0 t i j _

@[simp] theorem trainCounter_wf (t : Table Counter) (i : Nat) (up : Bool) (h : Table.wf 0 t = true) :
    Table.wf 0 (trainCounter t i up) = true := Table.wf_set 0 t i _ h

theorem trainCounter_below (t : Table Counter) (n i : Nat) (up : Bool) (hi : i < n) (h : Table.below n t = true) :
    Table.below n (trainCounter t i up) = true := Table.below_set 0 n t i _ hi h

/-- The direction update leaves the BTB (R218). -/
@[simp] theorem trainDirection_btb (pr : Predictor) (cfg : Config) (p : Word) (taken : Bool) :
    (pr.trainDirection cfg p taken).btb = pr.btb := by
  unfold Predictor.trainDirection; split <;> rfl

/-- The BTB after a transfer (R218, R222). -/
theorem train_btb (pr : Predictor) (cfg : Config) (p target : Word) (taken : Bool) :
    (pr.train cfg p taken target).btb = if taken then (pr.writeBtb cfg p target).btb else pr.btb := by
  unfold Predictor.train; rw [trainDirection_btb]; split <;> rfl

/-- The index of the global table is within it. -/
theorem globalIndex_lt (pr : Predictor) (cfg : Config) (p : Word) (h : pr.ghr < 2 ^ cfg.ghrBits) :
    pr.globalIndex cfg p < 2 ^ cfg.ghrBits := by
  unfold Predictor.globalIndex; split
  · exact Nat.mod_lt _ (Nat.two_pow_pos _)
  · exact h

@[simp] theorem writeBtb_btb (pr : Predictor) (cfg : Config) (p target : Word) :
    (pr.writeBtb cfg p target).btb =
      Table.set BtbEntry.invalid pr.btb (btbIndex cfg p) { valid := true, tag := p, target := target } := rfl

theorem writeBtb_inv {cfg : Config} {pr : Predictor} (h : PredictorInv cfg pr) (p target : Word)
    (ht : Aligned target) : PredictorInv cfg (pr.writeBtb cfg p target) :=
  { h with
    btbWf := by rw [writeBtb_btb]; exact Table.wf_set _ _ _ _ h.btbWf
    btbEntries := fun k e he => by
      rw [writeBtb_btb] at he
      rcases Table.mem_set _ _ _ _ _ he with heq | hm
      · cases heq; exact ⟨rfl, ht⟩
      · exact h.btbEntries k e hm }

theorem trainDirection_inv {cfg : Config} {pr : Predictor} (h : PredictorInv cfg pr) (p : Word) (taken : Bool) :
    PredictorInv cfg (pr.trainDirection cfg p taken) := by
  have hg := globalIndex_lt pr cfg p h.ghrBound
  have hc := counterIndex_lt cfg p
  unfold Predictor.trainDirection
  split
  · exact { h with ctrWf := trainCounter_wf _ _ _ h.ctrWf, ctrBelow := trainCounter_below _ _ _ _ hc h.ctrBelow }
  · refine { h with
      localWf := trainCounter_wf _ _ _ h.localWf
      localBelow := trainCounter_below _ _ _ _ hc h.localBelow
      globalWf := trainCounter_wf _ _ _ h.globalWf
      globalBelow := trainCounter_below _ _ _ _ hg h.globalBelow
      ghrBound := Nat.mod_lt _ (Nat.two_pow_pos _)
      chooserWf := ?_
      chooserBelow := ?_ }
    · show Table.wf 0 (ite _ _ _) = true
      split
      · exact trainCounter_wf _ _ _ h.chooserWf
      · exact h.chooserWf
    · show Table.below _ (ite _ _ _) = true
      split
      · exact trainCounter_below _ _ _ _ hc h.chooserBelow
      · exact h.chooserBelow

/-- Every update keeps the predictor's invariant. -/
theorem train_inv {cfg : Config} {pr : Predictor} (h : PredictorInv cfg pr) (p target : Word) (taken : Bool)
    (ht : taken = true → Aligned target) : PredictorInv cfg (pr.train cfg p taken target) := by
  unfold Predictor.train
  refine trainDirection_inv ?_ p taken
  split
  · next h1 => exact writeBtb_inv h p target (ht h1)
  · exact h

/-- A valid entry is listed. -/
theorem entry_mem (cfg : Config) (pr : Predictor) (p : Word) (h : (pr.entry cfg p).valid = true) :
    (btbIndex cfg p, pr.entry cfg p) ∈ pr.btb := by
  unfold Predictor.entry at h ⊢
  generalize btbIndex cfg p = i at *
  generalize pr.btb = t at *
  induction t with
  | nil => cases h
  | cons e rest ih =>
    obtain ⟨k, v⟩ := e
    by_cases hk : k = i
    · subst hk; simp [Table.get]
    · simp only [Table.get, hk, if_false] at h ⊢
      exact List.mem_cons_of_mem _ (ih h)

/-- A prediction from a PC that is a multiple of 4 is a multiple of 4 (R39, R224). -/
theorem predict_aligned {cfg : Config} {pr : Predictor} (h : PredictorInv cfg pr) (p : Word) (hp : Aligned p) :
    Aligned (pr.predict cfg p) := by
  unfold Predictor.predict
  split
  · next hc =>
    simp only [Predictor.hit, Bool.and_eq_true] at hc
    exact (h.btbEntries _ _ (entry_mem cfg pr p hc.1.1)).2
  · unfold Aligned at *; rw [BitVec.toNat_add]; change (_ + 4) % _ % _ = _; omega

end Sys2Proof.Machine
end

