-- ==== Sys2Proof/Laws/Step.lean ====
section
/-! SUPPORT. What a step can do, said once: every next state of an instruction is one of six, and so is every next state of a
step. Invariants are proved from this and unfold no meaning. -/

namespace Sys2Proof.Machine

/-- The states an instruction can leave. -/
inductive Effect (s : State) : State → Prop where
  /-- Write a register and go on (R33, R37). -/
  | retire (rd : Reg) (v : Word) : Effect s (s.retire rd v)
  /-- A divide: the same, with the divider's `error` flag (R301). -/
  | divide (rd : Reg) (v : Word) (e : Bool) : Effect s { s.retire rd v with div := { s.div with error := e } }
  /-- A control transfer to a legal target (R203 to R206). -/
  | transfer (rd : Reg) (taken : Bool) (target : Word) (aligned : taken = true → target.toNat % 4 = 0)
      (notZero : resolvedNext taken s.pc target ≠ 0) : Effect s (s.transferred rd taken target)
  /-- A store to a legal address (R254, R256). -/
  | store (a v : Word) (width : MemWidth) (legal : accessFault s.cfg s.pc a width = none) :
      Effect s { s with dmem := s.dmem.store a width v }.advance
  /-- A halt (R333). -/
  | halt : Effect s s.halt
  /-- A no-op (R334, R335, R337). -/
  | advance : Effect s s.advance

theorem aluImm_effect {s t : State} {op : AluOp} {rd rs1 : Reg} {b : Word} (h : s.aluImm op rd rs1 b = .next t) :
    Effect s t := by
  obtain ⟨-, rfl⟩ := (aluImm_next ..).mp h; exact .retire ..

theorem aluReg_effect {s t : State} {op : AluOp} {rd rs1 rs2 : Reg} (h : s.aluReg op rd rs1 rs2 = .next t) :
    Effect s t := by
  obtain ⟨-, rfl⟩ := (aluReg_next ..).mp h; exact .retire ..

theorem mulOp_effect {s t : State} {q : MulRequest} {rd rs1 rs2 : Reg} (h : s.mulOp q rd rs1 rs2 = .next t) :
    Effect s t := by
  obtain ⟨-, rfl⟩ := (mulOp_next ..).mp h; exact .retire ..

theorem divOp_effect {s t : State} {q : DivRequest} {rd rs1 rs2 : Reg} (h : s.divOp q rd rs1 rs2 = .next t) :
    Effect s t := by
  obtain ⟨-, rfl⟩ := (divOp_next ..).mp h; exact .divide ..

theorem loadOp_effect {s t : State} {width : MemWidth} {sign : MemSign} {rd rs1 : Reg} {imm : BitVec 12}
    (h : s.loadOp width sign rd rs1 imm = .next t) : Effect s t := by
  obtain ⟨-, -, rfl⟩ := (loadOp_next ..).mp h; exact .retire ..

theorem storeOp_effect {s t : State} {width : MemWidth} {rs2 rs1 : Reg} {imm : BitVec 12}
    (h : s.storeOp width rs2 rs1 imm = .next t) : Effect s t := by
  obtain ⟨-, ha, rfl⟩ := (storeOp_next ..).mp h; exact .store _ _ _ ha

theorem transfer_effect {s t : State} {rd : Reg} {taken : Bool} {target : Word}
    (h : s.transfer rd taken target = .next t) : Effect s t := by
  obtain ⟨ha, h0, rfl⟩ := (transfer_next ..).mp h; exact .transfer _ _ _ ha h0

theorem branch_effect {s t : State} {kind : BranchKind} {rs1 rs2 : Reg} {offset : BitVec 13}
    (h : s.branch kind rs1 rs2 offset = .next t) : Effect s t :=
  transfer_effect ((branch_next ..).mp h).2

/-- What an instruction can do. -/
theorem exec_effect {i : Instr} {s t : State} (h : exec i s = .next t) : Effect s t := by
  cases i with
  | lui | auipc => cases h; exact .retire ..
  | jal => exact transfer_effect h
  | jalr => exact transfer_effect ((orFault_next ..).mp h).2
  | beq | bne | blt | bge | bltu | bgeu => exact branch_effect h
  | lb | lh | lw | lbu | lhu => exact loadOp_effect h
  | sb | sh | sw => exact storeOp_effect h
  | addi | slti | sltiu | xori | ori | andi | slli | srli | srai => exact aluImm_effect h
  | add | sub | sll | slt | sltu | xor | srl | sra | or | and => exact aluReg_effect h
  | mul | mulh | mulhsu | mulhu => exact mulOp_effect h
  | div | divu | rem | remu => exact divOp_effect h
  | ecall | ebreak | haltSb => cases h; exact .halt
  | nop | zeroWord => cases h; exact .advance

/-- What a step can do, and when it does. -/
theorem step_effect {s t : State} (h : step s = .next t) :
    s.run = .running ∧ s.pc.toNat / 4 < s.cfg.imemDepth ∧ Effect s t := by
  obtain ⟨hr, hp, -, hd⟩ := (step_next _ _).mp h
  refine ⟨hr, hp, ?_⟩
  cases hw : decode s.fetch with
  | instr i => rw [hw] at hd; exact exec_effect hd
  | noRow w => rw [hw] at hd; cases hd; exact .advance

end Sys2Proof.Machine
end

