-- ==== Sys2Proof/Laws/Units.lean ====
section
/-! SUPPORT. The two units: one iteration of each divider variant as a step of long division, and the multiplier's cycles. -/

namespace Sys2Proof.Machine

/-- How many of the first `n` positive multiples of `d` fit into `r`. -/
theorem countP_multiples (d r : Nat) (hd : 0 < d) (n : Nat) :
    (List.range n).countP (fun j => decide ((j + 1) * d ≤ r)) = min n (r / d) := by
  induction n with
  | zero => simp
  | succ n ih =>
    rw [List.range_succ, List.countP_append, ih]
    by_cases h : (n + 1) * d ≤ r
    · have := (Nat.le_div_iff_mul_le hd).mpr h
      simp [h]; omega
    · have : ¬ (n + 1) ≤ r / d := by rw [Nat.le_div_iff_mul_le hd]; exact h
      simp [h]; omega

/-- Digit selection is division where the digit has four bits (R314). -/
theorem quotientDigit_eq (d : Word) (r : BitVec 36) (hd : 0 < d.toNat) (h : r.toNat / d.toNat < 16) :
    quotientDigit d r = r.toNat / d.toNat := by
  rw [quotientDigit, countP_multiples _ _ hd]; omega

/-- Putting a field under bits that are clear. -/
theorem shifted_or (b x y : Nat) (h : y < 2 ^ b) : x * 2 ^ b ||| y = x * 2 ^ b + y := by
  rw [← Nat.shiftLeft_eq, Nat.shiftLeft_add_eq_or_of_lt h]

/-- One step of long division in radix `2 ^ b`: `b` bits of the dividend enter the remainder at the top of `quot`, and a
digit of the quotient enters at its bottom. -/
def longDivisionStep (b d : Nat) (p : Nat × Nat) : Nat × Nat :=
  let m := p.1 * 2 ^ b + p.2 / 2 ^ (32 - b)
  (m % d, p.2 % 2 ^ (32 - b) * 2 ^ b + m / d)

/-- The restoring iteration is a step in radix 2 (R313). -/
theorem restoringStep_eq (d : Word) (rem : BitVec 33) (quot : Word) (h : rem.toNat < d.toNat) :
    ((restoringStep d rem quot).1.toNat, (restoringStep d rem quot).2.toNat) =
      longDivisionStep 1 d.toNat (rem.toNat, quot.toNat) := by
  have hq := quot.isLt
  have hd := d.isLt
  have hr1 : ((rem <<< 1) ||| (quot.extractLsb' 31 1).setWidth 33).toNat = rem.toNat * 2 ^ 1 + quot.toNat / 2 ^ 31 := by
    rw [BitVec.toNat_or, BitVec.toNat_shiftLeft, Nat.shiftLeft_eq, Nat.mod_eq_of_lt (by omega), BitVec.toNat_setWidth,
      extract_toNat, Nat.mod_eq_of_lt (b := 2 ^ 33) (by omega), Nat.mod_eq_of_lt (by omega), shifted_or 1 _ _ (by omega)]
  have hq1 : (quot <<< 1).toNat = quot.toNat % 2 ^ 31 * 2 ^ 1 := by
    rw [BitVec.toNat_shiftLeft, Nat.shiftLeft_eq]; omega
  have hq2 : ((quot <<< 1) ||| 1).toNat = quot.toNat % 2 ^ 31 * 2 ^ 1 + 1 := by
    rw [BitVec.toNat_or, hq1]; exact shifted_or 1 _ 1 (by omega)
  simp only [restoringStep, longDivisionStep]
  generalize (rem <<< 1) ||| (quot.extractLsb' 31 1).setWidth 33 = r at *
  have hm : (r - d.setWidth 33).msb = decide (r.toNat < d.toNat) := by
    rw [BitVec.msb_eq_decide, BitVec.toNat_sub, BitVec.toNat_setWidth, Nat.mod_eq_of_lt (a := d.toNat) (by omega)]
    congr 1; simp only [eq_iff_iff]; omega
  rw [hm]
  by_cases hc : r.toNat < d.toNat
  · simp only [hc, decide_true, if_true]
    rw [hq1, ← hr1, Nat.mod_eq_of_lt hc, Nat.div_eq_of_lt hc]; simp
  · simp only [hc, decide_false, Bool.false_eq_true, if_false]
    have hlt : r.toNat - d.toNat < d.toNat := by omega
    have e1 : r.toNat % d.toNat = r.toNat - d.toNat := by rw [Nat.mod_eq_sub_mod (by omega), Nat.mod_eq_of_lt hlt]
    have e2 : r.toNat / d.toNat = 1 := by rw [Nat.div_eq_sub_div (by omega) (by omega), Nat.div_eq_of_lt hlt]
    rw [← hr1, hq2, e1, e2, BitVec.toNat_sub, BitVec.toNat_setWidth, Nat.mod_eq_of_lt (a := d.toNat) (by omega)]
    congr 1; omega

/-- The radix-16 iteration is a step in radix 16 (R314). -/
theorem radix16Step_eq (d : Word) (rem : BitVec 36) (quot : Word) (h : rem.toNat < d.toNat) :
    ((radix16Step d rem quot).1.toNat, (radix16Step d rem quot).2.toNat) =
      longDivisionStep 4 d.toNat (rem.toNat, quot.toNat) := by
  have hq := quot.isLt
  have hd := d.isLt
  have hr1 : ((rem <<< 4) ||| (quot.extractLsb' 28 4).setWidth 36).toNat = rem.toNat * 2 ^ 4 + quot.toNat / 2 ^ 28 := by
    rw [BitVec.toNat_or, BitVec.toNat_shiftLeft, Nat.shiftLeft_eq, Nat.mod_eq_of_lt (by omega), BitVec.toNat_setWidth,
      extract_toNat, Nat.mod_eq_of_lt (b := 2 ^ 36) (by omega), Nat.mod_eq_of_lt (by omega), shifted_or 4 _ _ (by omega)]
  have hq1 : (quot <<< 4).toNat = quot.toNat % 2 ^ 28 * 2 ^ 4 := by
    rw [BitVec.toNat_shiftLeft, Nat.shiftLeft_eq]; omega
  simp only [radix16Step, longDivisionStep]
  generalize (rem <<< 4) ||| (quot.extractLsb' 28 4).setWidth 36 = r at *
  have hk : r.toNat / d.toNat < 16 := by rw [Nat.div_lt_iff_lt_mul (by omega)]; omega
  rw [quotientDigit_eq d r (by omega) hk, ← hr1]
  have hmod := Nat.div_add_mod r.toNat d.toNat
  have hml := Nat.mod_lt r.toNat (y := d.toNat) (by omega)
  have hcm : r.toNat / d.toNat * d.toNat = d.toNat * (r.toNat / d.toNat) := Nat.mul_comm _ _
  have hrl := r.isLt
  congr 1
  · rw [BitVec.toNat_sub, BitVec.toNat_ofNat, Nat.mod_eq_of_lt (a := r.toNat / d.toNat * d.toNat) (by omega)]
    omega
  · rw [BitVec.toNat_or, hq1, BitVec.toNat_ofNat, Nat.mod_eq_of_lt (a := r.toNat / d.toNat) (by omega)]
    exact shifted_or 4 _ _ (by omega)

/-- Only an operation that is asked of the multiplier is none of the divider's (R131). -/
theorem divRequest_of_mulRequest {op : AluOp} (h : (mulRequest op).isSome = true) : divRequest op = none := by
  cases op <;> simp_all [mulRequest, divRequest]

/-- A cycle of the multiplier keeps what it was asked. -/
theorem Multiplier.tick_request (m : Multiplier) :
    m.tick.busy = m.busy ∧ m.tick.aSigned = m.aSigned ∧ m.tick.bSigned = m.bSigned ∧ m.tick.wantHigh = m.wantHigh := by
  unfold Multiplier.tick
  split
  · exact ⟨rfl, rfl, rfl, rfl⟩
  · split <;> exact ⟨rfl, rfl, rfl, rfl⟩

/-- A cycle of the divider neither starts nor ends its work at IDLE. -/
theorem Divider.tick_idle (d : Divider) (impl : DivImpl) : (d.tick impl).state = .idle ↔ d.state = .idle := by
  unfold Divider.tick
  split
  · next h => simp [Divider.prepare, h]
  · next h => simp only [Divider.iterate, h]; split <;> simp
  · rfl

end Sys2Proof.Machine
end

