-- ==== Sys2Proof/Tests/Slice0.lean ====
section
/-! SUPPORT. The model's own tests: words written out from the formats of R102 and the opcode table, the vectors of
95_test_vectors.md, an ill-formed term for each check of WellFormed, and for every statement with hypotheses a concrete state
and operands that meet them. -/

namespace Sys2Proof.Tests

open Sys2Proof.Machine

/-! ### Decoding: every constructor, from its format's fields -/

theorem test_decode_upper :
    decode 0b11111111111111111111_00101_0110111 = .instr (.lui 5 1048575) ∧
    decode 0b00000000000000000001_00101_0010111 = .instr (.auipc 5 1) := by
  decide

theorem test_decode_jumps :
    decode 0b11111111110111111111_00000_1101111 = .instr (.jal 0 (-4)) ∧
    decode 0b000000000100_00101_000_00001_1100111 = .instr (.jalr 1 5 4) := by
  decide

theorem test_decode_branches :
    decode 0b0000000_11110_00011_000_00001_1100011 = .instr (.beq 3 30 2048) ∧
    decode 0b0111111_00010_00001_001_11111_1100011 = .instr (.bne 1 2 4094) ∧
    decode 0b1111111_01001_10001_100_11111_1100011 = .instr (.blt 17 9 (-2)) ∧
    decode 0b0000000_00010_00001_101_01000_1100011 = .instr (.bge 1 2 8) ∧
    decode 0b0000000_00010_00001_110_01000_1100011 = .instr (.bltu 1 2 8) ∧
    decode 0b1000000_00010_00001_111_00000_1100011 = .instr (.bgeu 1 2 (-4096)) := by
  decide

theorem test_decode_loads :
    decode 0b000000000000_00001_000_00011_0000011 = .instr (.lb 3 1 0) ∧
    decode 0b100000000000_10000_001_11111_0000011 = .instr (.lh 31 16 (-2048)) ∧
    decode 0b000000000100_00001_010_00011_0000011 = .instr (.lw 3 1 4) ∧
    decode 0b011111111111_01111_100_01000_0000011 = .instr (.lbu 8 15 2047) ∧
    decode 0b111111111110_00001_101_00011_0000011 = .instr (.lhu 3 1 (-2)) := by
  decide

theorem test_decode_stores :
    decode 0b1111111_00010_00001_000_11111_0100011 = .instr (.sb 2 1 (-1)) ∧
    decode 0b0000000_00010_00001_001_00010_0100011 = .instr (.sh 2 1 2) ∧
    decode 0b0111111_00010_00001_010_11100_0100011 = .instr (.sw 2 1 2044) := by
  decide

theorem test_decode_immediates :
    decode 0b100000000000_00110_000_00101_0010011 = .instr (.addi 5 6 (-2048)) ∧
    decode 0b111111111111_00110_010_00101_0010011 = .instr (.slti 5 6 (-1)) ∧
    decode 0b111111111111_00110_011_00101_0010011 = .instr (.sltiu 5 6 (-1)) ∧
    decode 0b111111111111_00110_100_00101_0010011 = .instr (.xori 5 6 (-1)) ∧
    decode 0b011111111111_00110_110_00101_0010011 = .instr (.ori 5 6 2047) ∧
    decode 0b111111111111_00110_111_00101_0010011 = .instr (.andi 5 6 (-1)) := by
  decide

theorem test_decode_shifts :
    decode 0b0000000_11111_00110_001_00101_0010011 = .instr (.slli 5 6 31) ∧
    decode 0b0000000_11111_00110_101_00101_0010011 = .instr (.srli 5 6 31) ∧
    decode 0b0100000_11111_00110_101_00101_0010011 = .instr (.srai 5 6 31) := by
  decide

theorem test_decode_registers :
    decode 0b0000000_00010_00001_000_00011_0110011 = .instr (.add 3 1 2) ∧
    decode 0b0100000_00100_00000_000_00101_0110011 = .instr (.sub 5 0 4) ∧
    decode 0b0000000_01001_01000_001_00111_0110011 = .instr (.sll 7 8 9) ∧
    decode 0b0000000_11101_11110_010_11111_0110011 = .instr (.slt 31 30 29) ∧
    decode 0b0000000_11111_00000_011_00001_0110011 = .instr (.sltu 1 0 31) ∧
    decode 0b0000000_00101_01010_100_10100_0110011 = .instr (.xor 20 10 5) ∧
    decode 0b0000000_00001_00010_101_00100_0110011 = .instr (.srl 4 2 1) ∧
    decode 0b0100000_00110_00111_101_01011_0110011 = .instr (.sra 11 7 6) ∧
    decode 0b0000000_00011_11000_110_01100_0110011 = .instr (.or 12 24 3) ∧
    decode 0b0000000_00100_00101_111_00110_0110011 = .instr (.and 6 5 4) := by
  decide

theorem test_decode_multiply :
    decode 0b0000001_00010_00001_000_00011_0110011 = .instr (.mul 3 1 2) ∧
    decode 0b0000001_00010_00001_001_00100_0110011 = .instr (.mulh 4 1 2) ∧
    decode 0b0000001_00010_00010_010_00110_0110011 = .instr (.mulhsu 6 2 2) ∧
    decode 0b0000001_00010_00010_011_00101_0110011 = .instr (.mulhu 5 2 2) := by
  decide

theorem test_decode_divide :
    decode 0b0000001_00010_00001_100_00111_0110011 = .instr (.div 7 1 2) ∧
    decode 0b0000001_00000_00001_101_01001_0110011 = .instr (.divu 9 1 0) ∧
    decode 0b0000001_00010_00001_110_01000_0110011 = .instr (.rem 8 1 2) ∧
    decode 0b0000001_01100_01011_111_10000_0110011 = .instr (.remu 16 11 12) := by
  decide

theorem test_decode_exact_words :
    decode 0b00000000000000000000000001110011 = .instr .ecall ∧
    decode 0b00000000000100000000000001110011 = .instr .ebreak ∧
    decode 0b11111110000000000000111110100011 = .instr .haltSb ∧
    decode 0b00000000000000000000000000010011 = .instr .nop ∧
    decode 0b00000000000000000000000000000000 = .instr .zeroWord := by
  decide

/-- Aliasing words (95_test_vectors.md 2.1): they run as their row, and only their canonical forms pass STRICT_DECODE. -/
theorem test_decode_aliases :
    decode 0x41F31293 = .instr (.slli 5 6 31) ∧ isCanonical 0x41F31293 = false ∧
    decode 0x0200D293 = .instr (.srli 5 1 0) ∧ isCanonical 0x0200D293 = false ∧ isCanonical 0x01F31293 = true := by
  decide

/-- Words with no row (S3, S15), and bytes that hold no whole instruction. -/
theorem test_decode_noRow :
    decode 0x0FF0000F = .noRow 0x0FF0000F ∧ decode 0xC00022F3 = .noRow 0xC00022F3 ∧
    decode 0x100322AF = .noRow 0x100322AF ∧ decode 0x000000F3 = .noRow 0x000000F3 ∧
    decode 0x00200073 = .noRow 0x00200073 ∧ decodeBytes [0x93, 0x00, 0x50] = none ∧
    decodeBytes [0x93, 0x00, 0x50, 0x00, 0x13] = some (.instr (.addi 1 0 5), [0x13]) ∧
    decodeTableWord 32 0x00500093 = some (.addi 1 0 5) ∧ decodeTableWord 32 0x0FF0000F = none := by
  decide

/-! ### WellFormed: an ill-formed term for each check -/

theorem test_illFormed_oddOffset :
    (Instr.jal 1 3).wellFormed = false ∧ (Instr.beq 1 2 1).wellFormed = false ∧ (Instr.bne 1 2 3).wellFormed = false ∧
    (Instr.blt 1 2 (-1)).wellFormed = false ∧ (Instr.bge 1 2 5).wellFormed = false ∧
    (Instr.bltu 1 2 4095).wellFormed = false ∧ (Instr.bgeu 1 2 7).wellFormed = false := by
  decide

theorem test_illFormed_exactWords :
    (Instr.addi 0 0 0).wellFormed = false ∧ encode (.addi 0 0 0) = encode .nop ∧
    (Instr.sb 0 0 (-1)).wellFormed = false ∧ encode (.sb 0 0 (-1)) = encode .haltSb ∧
    (Instr.addi 0 0 1).wellFormed = true ∧ (Instr.sb 0 1 (-1)).wellFormed = true := by
  decide

/-! ### Effects (95_test_vectors.md 2.2 to 2.6) -/

/-- The reset state with a PC and values of x1 and x2. -/
def machine (pc a b : Word) : State :=
  { State.reset with pc := pc, regs := (State.reset.regs.set 1 a).set 2 b }

/-- The PC and a register of a next state. -/
def result (o : Host.Outcome State Fault Refusal) (r : Reg) : Option (Word × Word) :=
  match o with
  | .next t => some (t.pc, t.reg r)
  | _ => none

/-- The fault of an outcome. -/
def stopOf (o : Host.Outcome State Fault Refusal) : Option Fault :=
  match o with
  | .fault f => some f
  | _ => none

/-- A word of data memory of a next state. -/
def stored (o : Host.Outcome State Fault Refusal) (k : Nat) : Option Word :=
  match o with
  | .next t => some (t.dmem.word k)
  | _ => none

theorem test_immediates :
    result (exec (.addi 5 1 (-2048)) (machine 0x20 5 0)) 5 = some (0x24, 0xFFFFF805) ∧
    result (exec (.slti 5 1 (-1)) (machine 0x20 5 0)) 5 = some (0x24, 0) ∧
    result (exec (.sltiu 5 1 (-1)) (machine 0x20 5 0)) 5 = some (0x24, 1) ∧
    result (exec (.xori 5 1 (-1)) (machine 0x20 5 0)) 5 = some (0x24, 0xFFFFFFFA) ∧
    result (exec (.ori 5 1 0x7FF) (machine 0x20 5 0)) 5 = some (0x24, 0x7FF) ∧
    result (exec (.andi 5 1 (-1)) (machine 0x20 5 0)) 5 = some (0x24, 5) ∧
    result (exec (.slli 5 1 31) (machine 0x20 5 0)) 5 = some (0x24, 0x80000000) ∧
    result (exec (.srli 5 1 1) (machine 0x20 5 0)) 5 = some (0x24, 2) ∧
    result (exec (.srai 5 1 4) (machine 0x20 0x80000000 0)) 5 = some (0x24, 0xF8000000) ∧
    result (exec (.addi 0 1 7) (machine 0x20 5 0)) 0 = some (0x24, 0) := by
  decide

theorem test_upper :
    result (exec (.lui 5 0xFFFFF) (machine 0x10 0 0)) 5 = some (0x14, 0xFFFFF000) ∧
    result (exec (.auipc 5 1) (machine 0x10 0 0)) 5 = some (0x14, 0x1010) := by
  decide

theorem test_registers :
    result (exec (.add 5 1 2) (machine 0 0x7FFFFFFF 1)) 5 = some (4, 0x80000000) ∧
    result (exec (.add 1 1 1) (machine 0 0x40000000 1)) 1 = some (4, 0x80000000) ∧
    result (exec (.sub 5 1 2) (machine 0 0x80000000 1)) 5 = some (4, 0x7FFFFFFF) ∧
    result (exec (.sll 5 1 2) (machine 0 0x12345678 0x24)) 5 = some (4, 0x23456780) ∧
    result (exec (.srl 5 1 2) (machine 0 0x80000000 31)) 5 = some (4, 1) ∧
    result (exec (.sra 5 1 2) (machine 0 0x7FFFFFFF 33)) 5 = some (4, 0x3FFFFFFF) ∧
    result (exec (.slt 5 1 2) (machine 0 0xFFFFFFFF 0)) 5 = some (4, 1) ∧
    result (exec (.sltu 5 1 2) (machine 0 0xFFFFFFFF 0)) 5 = some (4, 0) ∧
    result (exec (.xor 5 1 2) (machine 0 0xF0F0F0F0 0xFFFF0000)) 5 = some (4, 0x0F0FF0F0) ∧
    result (exec (.or 5 1 2) (machine 0 0xF0F0F0F0 0x0F0F0F0F)) 5 = some (4, 0xFFFFFFFF) ∧
    result (exec (.and 5 1 2) (machine 0 0xF0F0F0F0 0xFFFF0000)) 5 = some (4, 0xF0F00000) := by
  decide

theorem test_transfers :
    result (exec (.beq 1 2 8) (machine 0x20 5 5)) 0 = some (0x28, 0) ∧
    result (exec (.bne 1 2 8) (machine 0x20 5 5)) 0 = some (0x24, 0) ∧
    result (exec (.blt 1 2 8) (machine 0x20 0xFFFFFFFF 0)) 0 = some (0x28, 0) ∧
    result (exec (.bltu 1 2 8) (machine 0x20 0xFFFFFFFF 0)) 0 = some (0x24, 0) ∧
    result (exec (.bge 1 2 8) (machine 0x20 0x80000000 0x80000000)) 0 = some (0x28, 0) ∧
    result (exec (.bgeu 1 2 (-4096)) (machine 0x2000 1 0)) 0 = some (0x1000, 0) ∧
    result (exec (.jal 1 16) (machine 0x40 0 0)) 1 = some (0x50, 0x44) ∧
    result (exec (.jal 0 (-4)) (machine 0x40 0 0)) 0 = some (0x3C, 0) ∧
    result (exec (.jalr 1 2 4) (machine 0x40 0 0x101)) 1 = some (0x104, 0x44) ∧
    result (exec (.jalr 1 1 0) (machine 0x40 0x80 0)) 1 = some (0x80, 0x44) := by
  decide

theorem test_transferFaults :
    stopOf (exec (.bne 1 2 4094) (machine 0x20 1 2)) = some (.misalignedFetch 0x20 0x101E) ∧
    result (exec (.bne 1 2 4094) (machine 0x20 1 1)) 0 = some (0x24, 0) ∧
    stopOf (exec (.jal 1 (-0x40)) (machine 0x40 0 0)) = some (.redirectToZero 0x40) ∧
    stopOf (exec (.jalr 1 2 0) (machine 0x40 0 0x102)) = some (.misalignedFetch 0x40 0x102) := by
  decide

/-- `machine` with data word 2 holding 0x11223344. -/
def withData (pc a b : Word) : State :=
  { machine pc a b with dmem := [(8, 0x44), (9, 0x33), (10, 0x22), (11, 0x11)] }

theorem test_loads :
    result (exec (.lw 5 1 0) (withData 0 8 0)) 5 = some (4, 0x11223344) ∧
    result (exec (.lw 5 2 (-4)) (withData 0 0 12)) 5 = some (4, 0x11223344) ∧
    result (exec (.lb 5 1 1) (withData 0 8 0)) 5 = some (4, 0x33) ∧
    result (exec (.lbu 5 1 3) (withData 0 8 0)) 5 = some (4, 0x11) ∧
    result (exec (.lh 5 1 2) (withData 0 8 0)) 5 = some (4, 0x1122) ∧
    result (exec (.lhu 5 1 0) (withData 0 8 0)) 5 = some (4, 0x3344) ∧
    result (exec (.lb 5 1 0) { withData 0 8 0 with dmem := [(8, 0x80)] }) 5 = some (4, 0xFFFFFF80) ∧
    result (exec (.lh 5 1 0) { withData 0 8 0 with dmem := [(9, 0x80)] }) 5 = some (4, 0xFFFF8000) := by
  decide

theorem test_stores :
    stored (exec (.sb 2 1 1) (withData 0 8 0xFFFFFF80)) 2 = some 0x11228044 ∧
    stored (exec (.sh 2 1 2) (withData 0 8 0xFFFF8000)) 2 = some 0x80003344 ∧
    stored (exec (.sw 2 1 4) (withData 0 8 0xFFFF8000)) 3 = some 0xFFFF8000 := by
  decide

theorem test_accessFaults :
    stopOf (exec (.lw 5 1 6) (machine 0 0 0)) = some (.misalignedAccess 0 6) ∧
    stopOf (exec (.sh 2 1 5) (machine 0 0 0)) = some (.misalignedAccess 0 5) ∧
    result (exec (.lb 5 1 7) (machine 0 0 0)) 5 = some (4, 0) := by
  decide

theorem test_multiply :
    result (exec (.mul 5 1 2) (machine 0 7 0xFFFFFFFA)) 5 = some (4, 0xFFFFFFD6) ∧
    result (exec (.mulh 5 1 2) (machine 0 0x80000000 0x80000000)) 5 = some (4, 0x40000000) ∧
    result (exec (.mulhsu 5 1 2) (machine 0 0x80000000 0xFFFFFFFF)) 5 = some (4, 0x80000000) ∧
    result (exec (.mulhu 5 1 2) (machine 0 0xFFFFFFFF 0xFFFFFFFF)) 5 = some (4, 0xFFFFFFFE) := by
  decide

theorem test_divide :
    result (exec (.div 5 1 2) (machine 0 (-20) 6)) 5 = some (4, 0xFFFFFFFD) ∧
    result (exec (.div 5 1 2) (machine 0 0x80000000 0xFFFFFFFF)) 5 = some (4, 0x80000000) ∧
    result (exec (.rem 5 1 2) (machine 0 (-20) 6)) 5 = some (4, 0xFFFFFFFE) ∧
    result (exec (.rem 5 1 2) (machine 0 5 0)) 5 = some (4, 5) ∧
    result (exec (.divu 5 1 2) (machine 0 0xFFFFFFFF 0x10)) 5 = some (4, 0x0FFFFFFF) ∧
    result (exec (.divu 5 1 2) (machine 0 5 0)) 5 = some (4, 0xFFFFFFFF) ∧
    result (exec (.remu 5 1 2) (machine 0 0x80000000 0xFFFFFFFF)) 5 = some (4, 0x80000000) := by
  decide

/-- Iterations 29 and 31 of DIVU 13 / 5, and iteration 8 of DIVU 100 / 7 (95_test_vectors.md 2.6). -/
theorem test_dividerIterations :
    restoringStep 5 0 0xD0000000 = (1, 0xA0000000) ∧ restoringStep 5 3 0x40000000 = (1, 0x80000001) ∧
    radix16Step 7 6 0x40000000 = (2, 0x0000000E) := by
  decide

/-- The first rows of the halt log (S13), and the image lines (S12). -/
theorem test_texts :
    haltLine 3 12 = "x3 = 0x0000000c".toList ∧ haltLine 31 0xABCDEF09 = "x31 = 0xabcdef09".toList ∧
    imageWord "002081b3".toList = some 0x002081B3 ∧ imageWord "002081B3".toList = none ∧
    imageWord "2081b3".toList = none := by
  decide

/-- The first three takings of a branch (95_test_vectors.md 2.3): the counter after each, and the prediction. -/
theorem test_predictor :
    (let one := Predictor.reset.train Config.default 0x10 true 8
     let two := one.train Config.default 0x10 true 8
     one.predict Config.default 0x10 = 0x14 ∧ two.predict Config.default 0x10 = 8 ∧
       counterAt two.ctr 4 = 2 ∧ counterAt (two.train Config.default 0x10 false 8).ctr 4 = 1) := by
  decide

/-- Words that are not in the table advance the PC, and a halt ends the run. -/
theorem test_steps :
    result (step ((machine 8 0 0).withFetchWord 32 0x0FF0000F)) 5 = some (12, 0) ∧
    result (step ((machine 8 0 0).withFetchWord 32 0x00500093)) 1 = some (12, 5) ∧
    result (step ((machine 8 0 0).withFetchWord 32 0x00000073)) 1 = some (8, 0) := by
  decide

/-! ### Witnesses: for every statement with hypotheses, a state and operands that meet them -/

theorem witness_DecodeEncodeRoundTrip :
    (Instr.bgeu 31 2 (-4096)).wellFormed = true ∧ (Instr.jal 1 (-2)).wellFormed = true ∧
    (Instr.addi 0 0 1).wellFormed = true ∧ (Instr.sb 0 0 (-2)).wellFormed = true ∧ (Instr.lui 0 0).wellFormed = true := by
  decide

theorem witness_ControlTableRowsDisjoint :
    (controlTable[18]).hits 0x00500093 = true ∧ (controlTable[15]).hits 0xFE000FA3 = true ∧
    isHaltWord 0xFE000FA3 = true := by
  decide

/-- Each clause at both ends of its range of funct3. -/
theorem witness_ReservedWordsHaveNoRow :
    [0x0000000F#32, 0x000000F3, 0x00001067, 0x00007067, 0x00002063, 0x00003063, 0x00003003, 0x00006003, 0x00007003,
      0x00003023, 0x00007023, 0x40001033, 0x40007033, 0x42000033, 0x42007033].all
      (fun w => w != 0 && !isHaltWord w) = true ∧
    opcodeOf 0x0000000F ∉ [0b0110111#7, 0b0010111#7, 0b1101111#7, 0b1100111#7, 0b1100011#7, 0b0000011#7, 0b0100011#7,
        0b0010011#7, 0b0110011#7] ∧
    opcodeOf 0x000000F3 ∉ [0b0110111#7, 0b0010111#7, 0b1101111#7, 0b1100111#7, 0b1100011#7, 0b0000011#7, 0b0100011#7,
        0b0010011#7, 0b0110011#7] ∧
    [0x00001067#32, 0x00007067].map (fun w => (opcodeOf w, funct3Of w)) = [(0b1100111, 1), (0b1100111, 7)] ∧
    [0x00002063#32, 0x00003063].map (fun w => (opcodeOf w, funct3Of w)) = [(0b1100011, 2), (0b1100011, 3)] ∧
    [0x00003003#32, 0x00006003, 0x00007003].map (fun w => (opcodeOf w, funct3Of w)) =
      [(0b0000011, 3), (0b0000011, 6), (0b0000011, 7)] ∧
    [0x00003023#32, 0x00007023].map (fun w => (opcodeOf w, funct3Of w)) = [(0b0100011, 3), (0b0100011, 7)] ∧
    [0x40001033#32, 0x40007033].map (fun w => (opcodeOf w, funct3Of w, bit30Of w, bit25Of w)) =
      [(0b0110011, 1, true, false), (0b0110011, 7, true, false)] ∧
    [0x42000033#32, 0x42007033].map (fun w => (opcodeOf w, funct3Of w, bit30Of w, bit25Of w)) =
      [(0b0110011, 0, true, true), (0b0110011, 7, true, true)] := by
  decide

theorem witness_HaltFlagExactly :
    (decodeControl 0x00000073).ctrl.haltFlag = true ∧ (decodeControl 0xFE000FA3).ctrl.haltFlag = true ∧
    (decodeControl 0x00200073).ctrl.haltFlag = false := by
  decide

/-- A branch, a store, a halt, a word with no row and a word whose rd field is 0; and a word that writes rd. -/
theorem witness_DestRegIsZeroWithoutWriteback :
    opcodeOf 0x0020D463 = 0b1100011#7 ∧ opcodeOf 0x00209123 = 0b0100011#7 ∧ isHaltWord 0x00100073 = true ∧
    decode 0x0FF0000F = .noRow 0x0FF0000F ∧ rdOf 0xFFDFF06F = 0 ∧
    decode 0x00500093 = .instr (.addi 1 0 5) ∧ isHaltWord 0x00500093 = false ∧ opcodeOf 0x00500093 ≠ 0b1100011#7 ∧
    opcodeOf 0x00500093 ≠ 0b0100011#7 := by
  decide

theorem witness_UsedFlagsFollowTheRow :
    isHaltWord 0x00000073 = true ∧ decode 0x0FF0000F = .noRow 0x0FF0000F ∧ (0x002081B3 : Word) ≠ 0 ∧
    isHaltWord 0x002081B3 = false ∧ decode 0x002081B3 = .instr (.add 3 1 2) := by
  decide

/-- A running machine about to run a word, and the same under STRICT_DECODE. -/
def about (w : Word) : State := (machine 8 5 6).placeWord w

def aboutStrict (w : Word) : State := { about w with cfg := { Config.default with strictDecode := true } }

theorem witness_StepRunsTheDecodedInstruction :
    (about 0x00500093).run = .running ∧ (about 0x00500093).pc.toNat / 4 < (about 0x00500093).cfg.imemDepth ∧
    (about 0x00500093).cfg.strictDecode = false ∧ decode ((about 0x00500093).imem.word 2) = .instr (.addi 1 0 5) ∧
    (aboutStrict 0x00500093).run = .running ∧ (aboutStrict 0x00500093).cfg.strictDecode = true ∧
    isCanonical ((aboutStrict 0x00500093).imem.word 2) = true ∧
    (about 0x0FF0000F).run = .running ∧ decode ((about 0x0FF0000F).imem.word 2) = .noRow 0x0FF0000F := by
  decide

/-- One word of instruction memory, and the PC on the word behind it. -/
def beyond : State := { machine 4 0 0 with cfg := { Config.default with imemBits := 0, dmemBits := 0 } }

theorem witness_StepChecksInOrder :
    beyond.run = .running ∧ beyond.pc.toNat / 4 = beyond.cfg.imemDepth ∧
    (about 0x00000073).run = .running ∧ isHaltWord ((about 0x00000073).imem.word 2) = true ∧
    (aboutStrict 0x41F31293).run = .running ∧ (aboutStrict 0x41F31293).cfg.strictDecode = true ∧
    isCanonical ((aboutStrict 0x41F31293).imem.word 2) = false ∧
    (about 0).halt.run = .halted ∧ ((about 0).conclude (.fault (.redirectToZero 8))).run = .faulted (.redirectToZero 8) := by
  decide

theorem witness_PlacedWordIsFetched : 7 < 4 * ((machine 8 0 0).pc.toNat / 4) ∧ 4 * ((machine 8 0 0).pc.toNat / 4) + 4 ≤ 12 := by
  decide

/-- Sources that hold values: for AddAndCompareImmediateResults, LogicImmediateResults, ShiftImmediateResults,
AddAndCompareRegisterResults, LogicRegisterResults, ShiftRegisterResults, MultiplyResults and DivideResults. -/
theorem witness_heldSources :
    (machine 8 5 6).holds 1 = true ∧ (machine 8 5 6).holds 2 = true ∧ (machine 8 5 6).holds 0 = true ∧
    (machine 8 5 6).holds 31 = true := by
  decide

theorem witness_QuotientTimesDivisorPlusRemainder :
    (5 : Reg) ≠ 0 ∧ (machine 8 13 6).reg 2 ≠ 0 ∧
    result (exec (.div 5 1 2) (machine 8 13 6)) 5 = some (12, 2) ∧
    result (exec (.rem 5 1 2) (machine 8 13 6)) 5 = some (12, 1) ∧
    result (exec (.divu 5 1 2) (machine 8 13 6)) 5 = some (12, 2) ∧
    result (exec (.remu 5 1 2) (machine 8 13 6)) 5 = some (12, 1) := by
  decide

theorem witness_MultiplierLatency : Multiplier.reset.busy = false ∧ Multiplier.reset.ready = false := by
  decide

theorem witness_DividerSpecialCases : ((0 : Word) = 0 ∨ (0 : Word) = 1) ∧ ((1 : Word) = 0 ∨ (1 : Word) = 1) := by
  decide

/-- Both ends of the cycle count, with the smallest divisor that is no special case and with -1. -/
theorem witness_DividerEngineComputesTheResultTable :
    (2 : Word) ≠ 0 ∧ (2 : Word) ≠ 1 ∧ (0xFFFFFFFF : Word) ≠ 0 ∧ (0xFFFFFFFF : Word) ≠ 1 ∧
    0 ≤ DivImpl.restoring.iterations ∧ 8 ≤ DivImpl.srt16.iterations := by
  decide

/-- JAL forward and to the top of memory; JALR to a sum whose bit 0 is cleared. -/
theorem witness_JumpResults :
    ((0x40 : Word) + (16 : BitVec 21).signExtend 32).toNat % 4 = 0 ∧ (0x40 : Word) + (16 : BitVec 21).signExtend 32 ≠ 0 ∧
    ((0x3C : Word) + (-0x40 : BitVec 21).signExtend 32).toNat = 0xFFFFFFFC ∧
    (machine 0x40 0 0x101).holds 2 = true ∧
    (0x104 : Word).toNat = ((machine 0x40 0 0x101).reg 2 + (4 : BitVec 12).signExtend 32).toNat / 2 * 2 ∧
    (0x104 : Word).toNat % 4 = 0 ∧ (0x104 : Word) ≠ 0 := by
  decide

/-- For each condition of BranchResults and BranchFaults, values that make it true and values that make it false, with a legal
target (taken) and a legal next PC (not taken). -/
theorem witness_BranchResults :
    (machine 0x20 5 5).holds 1 = true ∧ (machine 0x20 5 5).holds 2 = true ∧
    (machine 0x20 5 5).reg 1 = (machine 0x20 5 5).reg 2 ∧ (machine 0x20 5 6).reg 1 ≠ (machine 0x20 5 6).reg 2 ∧
    ((0xFFFFFFFF : Word).toInt < (0 : Word).toInt) ∧ ¬((0 : Word).toInt < (0 : Word).toInt) ∧
    ((0 : Word).toNat < (0xFFFFFFFF : Word).toNat) ∧ ¬((0xFFFFFFFF : Word).toNat < (0 : Word).toNat) ∧
    ((0x20 : Word) + (8 : BitVec 13).signExtend 32).toNat % 4 = 0 ∧ (0x20 : Word) + (8 : BitVec 13).signExtend 32 ≠ 0 ∧
    (0xFFFFFFF8 : Word) + 4 ≠ 0 := by
  decide

/-- Targets that are no multiple of 4, targets that are 0, and a fall-through to 0. -/
theorem witness_TransferFaults :
    ((0x40 : Word) + (2 : BitVec 21).signExtend 32).toNat % 4 ≠ 0 ∧ (0x40 : Word) + (-0x40 : BitVec 21).signExtend 32 = 0 ∧
    (0x102 : Word).toNat = ((machine 0x40 0 0x102).reg 2 + (1 : BitVec 12).signExtend 32).toNat / 2 * 2 ∧
    (0x102 : Word).toNat % 4 ≠ 0 ∧
    (0 : Word).toNat = ((machine 0x40 0 0).reg 2 + (1 : BitVec 12).signExtend 32).toNat / 2 * 2 ∧
    ((0x20 : Word) + (4094 : BitVec 13).signExtend 32).toNat % 4 ≠ 0 ∧
    (0x20 : Word) + (-0x20 : BitVec 13).signExtend 32 = 0 ∧ (0xFFFFFFFC : Word) + 4 = 0 := by
  decide

/-- The last byte, halfword and word of the default data memory, and address 0: for LoadResults and StoreResults. -/
theorem witness_accesses :
    (machine 0 0 0).holds 1 = true ∧ (machine 0 0 0).holds 2 = true ∧
    ((machine 0 0 0).reg 1 + (-1 : BitVec 12).signExtend 32).toNat % 1 = 0 ∧
    ((machine 0 0 0).reg 1 + (-1 : BitVec 12).signExtend 32).toNat / 4 < (machine 0 0 0).cfg.dmemDepth ∧
    ((machine 0 0 0).reg 1 + (-2 : BitVec 12).signExtend 32).toNat % 2 = 0 ∧
    ((machine 0 0 0).reg 1 + (-4 : BitVec 12).signExtend 32).toNat % 4 = 0 ∧
    ((machine 0 0 0).reg 1 + (-4 : BitVec 12).signExtend 32).toNat / 4 < (machine 0 0 0).cfg.dmemDepth ∧
    ((machine 0 0 0).reg 1 + (0 : BitVec 12).signExtend 32).toNat / 4 < (machine 0 0 0).cfg.dmemDepth := by
  decide

/-- Misaligned addresses, and the first address behind a data memory of one word. -/
theorem witness_AccessFaults :
    beyond.holds 1 = true ∧ beyond.holds 2 = true ∧
    (1 : Word) = beyond.reg 1 + (1 : BitVec 12).signExtend 32 ∧ (1 : Word).toNat % 2 ≠ 0 ∧
    (2 : Word) = beyond.reg 1 + (2 : BitVec 12).signExtend 32 ∧ (2 : Word).toNat % 4 ≠ 0 ∧
    (4 : Word) = beyond.reg 1 + (4 : BitVec 12).signExtend 32 ∧ beyond.cfg.dmemDepth = (4 : Word).toNat / 4 ∧
    (4 : Word).toNat % 2 = 0 ∧ (4 : Word).toNat % 4 = 0 := by
  decide

theorem witness_MemReadIsTheBytes : (2 : Word).toNat % 2 = 0 ∧ (0xFFFFFFFC : Word).toNat % 4 = 0 := by
  decide

theorem witness_LoadAfterStore :
    misalignedFor .b 0xFFFFFFFF = false ∧ misalignedFor .h 2 = false ∧ misalignedFor .w 4 = false ∧
    ((4 : Word).toNat ≤ 7 ∧ 7 < (4 : Word).toNat + widthBytes .w) ∧
    ¬((4 : Word).toNat ≤ 8 ∧ 8 < (4 : Word).toNat + widthBytes .w) := by
  decide

theorem witness_HaltWordsEndTheRun :
    Instr.haltSb ∈ [Instr.ecall, .ebreak, .haltSb] ∧ (machine 8 5 6).holds 31 = true ∧
    opcodeOf ((machine 8 5 6).imem.word (((machine 8 5 6).pc + 4).toNat / 4)) ∉
      [0b0100011#7, 0b1100011#7, 0b1101111#7, 0b1100111#7] ∧
    opcodeOf ((machine 8 5 6).imem.word (((machine 8 5 6).pc + 8).toNat / 4)) ≠ 0b0100011#7 := by
  decide

/-- A state at 8 with two words behind it, at 12 and 16. -/
def withBehind (w w' : Word) : State :=
  { machine 8 16 6 with imem := (Memory.storeBytes [] 12 (storeLanes .w w)).storeBytes 16 (storeLanes .w w') }

/-- `ecall; sw x2, 4(x1)` and `ecall; addi x2, x1, 8; sw x1, 4(x2)` with x1 = 16: the bytes from 20 and from 28 on. -/
theorem witness_StoresBehindAHalt :
    (Instr.sw, MemWidth.w) ∈ [(Instr.sb, MemWidth.b), (.sh, .h), (.sw, .w)] ∧
    ((withBehind 0x0020A223 0).pc + 4).toNat / 4 < (withBehind 0x0020A223 0).cfg.imemDepth ∧
    decode ((withBehind 0x0020A223 0).imem.word 3) = .instr (.sw 2 1 4) ∧ (withBehind 0x0020A223 0).holds 1 = true ∧
    (20 : Word) = (withBehind 0x0020A223 0).reg 1 + (4 : BitVec 12).signExtend 32 ∧
    (20 : Word).toNat % widthBytes .w = 0 ∧ (20 : Word).toNat / 4 < Config.default.dmemDepth ∧
    (Instr.addi 2 1 8).wellFormed = true ∧ encode (.addi 2 1 8) = 0x00808113 ∧
    (withBehind 0x00808113 0x00112223).imem.word 3 = encode (.addi 2 1 8) ∧
    (withBehind 0x00808113 0x00112223).imem.word 4 = 0x00112223 ∧ decode 0x00112223 = .instr (.sw 1 2 4) ∧
    exec (.addi 2 1 8) { withBehind 0x00808113 0x00112223 with pc := 12 } =
      .next (({ withBehind 0x00808113 0x00112223 with pc := 12 } : State).retire 2 24) ∧
    (({ withBehind 0x00808113 0x00112223 with pc := 12 } : State).retire 2 24).run = .running ∧
    (({ withBehind 0x00808113 0x00112223 with pc := 12 } : State).retire 2 24).pc.toNat / 4 = 4 ∧
    mulRequest (decodeControl 0x00808113).ctrl.aluOp = none ∧ divRequest (decodeControl 0x00808113).ctrl.aluOp = none ∧
    (decodeControl 0x00808113).ctrl.memOp ≠ .load ∧
    (({ withBehind 0x00808113 0x00112223 with pc := 12 } : State).retire 2 24).holds 2 = true ∧
    (28 : Word) = (({ withBehind 0x00808113 0x00112223 with pc := 12 } : State).retire 2 24).reg 2 +
      (4 : BitVec 12).signExtend 32 ∧
    (28 : Word).toNat % widthBytes .w = 0 ∧ (28 : Word).toNat / 4 < Config.default.dmemDepth := by
  refine ⟨.tail _ (.tail _ (.head _)), by decide, by decide, by decide, by decide, by decide, by decide, by decide,
    by decide, by decide, by decide, by decide, rfl, ?_⟩
  decide

/-- A run of zero words in an instruction memory of four words. -/
def shortState : State := { machine 8 5 6 with cfg := { Config.default with imemBits := 2 } }

theorem witness_RunPastTheEndFaults :
    shortState.run = .running ∧ shortState.cfg.imemBits ≤ 29 ∧ Aligned shortState.pc ∧
    shortState.pc.toNat / 4 ≤ shortState.cfg.imemDepth ∧
    (∀ k, shortState.pc.toNat / 4 ≤ k → k < shortState.cfg.imemDepth → shortState.imem.word k = 0) :=
  ⟨by decide, by decide, by unfold Aligned; decide, by decide,
    fun _ _ _ => show (0#8 ++ 0#8 ++ 0#8 ++ 0#8 : Word) = 0 by decide⟩


theorem witness_NopAndZeroWordOnlyAdvance : Instr.zeroWord ∈ [Instr.nop, .zeroWord] := by
  decide

/-- The reset state under `RF_INIT = UNDEFINED`. -/
def unwritten : State := State.resetWith Config.default .undefined [] []

theorem witness_UnwrittenSourceFaults :
    unwritten.holds 1 = false ∧ unwritten.holds 31 = false ∧ unwritten.holds 0 = true ∧
    (unwritten.writeReg 1 5).holds 1 = true ∧ (unwritten.writeReg 1 5).holds 2 = false := by
  decide

theorem about_held (w : Word) : AllHeld (about w) := fun r => by
  have h : ∀ q : Reg, (about 0).holds q = true := by decide
  exact h r

theorem witness_HeldRegistersStayHeld :
    AllHeld (about 0x00500093) ∧ (about 0x00500093).run = .running ∧
    result (step (about 0x00500093)) 1 = some (12, 5) ∧ result (cycle (about 0x00500093)) 1 = some (12, 5) ∧
    FetchPacket.reset.fault = none := by
  refine ⟨about_held _, ?_⟩
  decide

theorem witness_InstructionMemoryNeverChanges :
    step (about 0x00500093) = .next ((about 0x00500093).retire 1 5) ∧
    cycle (about 0x00500093) = .next (about 0x00500093).clock := by
  refine ⟨rfl, rfl⟩

theorem witness_OnlyStoresChangeMemory :
    stored (exec (.sw 2 1 3) (machine 8 5 6)) 2 = some 6 ∧ (machine 8 5 6).dmem.word 2 = 0 ∧
    (match exec (.jal 0 8) (machine 8 5 6) with
      | .next t => decide (t.predictor ≠ (machine 8 5 6).predictor)
      | _ => false) = true := by
  decide

theorem witness_ResetValues : (31 : Reg) ≠ 0 ∧ RfInit.zero = RfInit.zero := by
  decide

/-- The same index 64 entries on, and another one. -/
theorem witness_BtbRoundTrip :
    (0x108 : Word).toNat / 4 % 2 ^ Config.default.btbBits = (8 : Word).toNat / 4 % 2 ^ Config.default.btbBits ∧
    (4 : Word).toNat / 4 % 2 ^ Config.default.btbBits ≠ (8 : Word).toNat / 4 % 2 ^ Config.default.btbBits := by
  decide

/-- The counter that moves and one that does not. -/
theorem witness_TwoBitCounterUpdate :
    Config.default.predictor = .twoBit ∧ 63 = (0xFC : Word).toNat / 4 % 2 ^ Config.default.ctrBits ∧
    ¬ 0 = (0xFC : Word).toNat / 4 % 2 ^ Config.default.ctrBits := by
  decide

theorem witness_TournamentUpdate :
    PredictorKind.tournament ≠ .twoBit ∧ PredictorKind.tournamentGshare ≠ .twoBit ∧
    (0 : Nat) = Predictor.reset.ghr ∧
    63 = (Predictor.reset.ghr ^^^ ((0xFC : Word).toNat / 4 % 2 ^ Config.default.ctrBits)) % 2 ^ Config.default.ghrBits := by
  decide

theorem witness_PredictionIsGated : Config.default.predictor = .twoBit := by
  decide

/-! ### States of the pipeline -/

/-- A machine with given pipeline registers. -/
def piped (p : Pipeline) : State := { machine 8 5 6 with pipe := p }

/-- A packet of EX with a given control, destined for x1. -/
def packet (alu : AluOp) (mem : MemOp) (kind : BranchKind) (dest : Reg) : IdEx :=
  { IdEx.bubble with
    ctrl := { ControlPacket.inert with aluOp := alu, memOp := mem, branchKind := kind, destReg := dest } }

/-- `lw x1, 0(x0)` in EX and `add x2, x1, x1` in ID. -/
def loadUseState : State :=
  piped { Pipeline.reset with
    de := packet .add .load .none 1, ifid := { FetchPacket.reset with inst := 0x00108133, pc := 4 } }

/-- `addi x1, x0, 0` in EX and `add x2, x1, x1` in ID. -/
def forwardState : State :=
  piped { Pipeline.reset with
    de := packet .add .none .none 1, ifid := { FetchPacket.reset with inst := 0x00108133, pc := 4 } }

/-- A multiply that the unit works on. -/
def multiplyState : State :=
  { piped { Pipeline.reset with de := packet .mul .none .none 1 } with
    mul := Multiplier.reset.accept { aSigned := false, bSigned := false, wantHigh := false } 5 6 }

/-- A corrected PC of 0x40 under flush. -/
def flushState : State := piped { Pipeline.reset with btReg := 0x40 }

/-- A halt in WB behind a store in MEM and a store in EX. -/
def haltState : State :=
  piped { Pipeline.reset with
    mw := { MemWb.reset with haltFlag := true }
    em := { ExMem.bubble with memOp := .store, memWidth := .w, result := 8 }
    de := packet .add .store .none 0 }

theorem machine_predictorInv (p : Pipeline) : PredictorInv (piped p).cfg (piped p).predictor where
  btbWf := rfl
  btbEntries := fun k e h => by cases h
  ctrWf := rfl
  localWf := rfl
  globalWf := rfl
  chooserWf := rfl
  ctrBelow := rfl
  localBelow := rfl
  globalBelow := rfl
  chooserBelow := rfl
  ghrBound := (by decide : 0 < 2 ^ Config.default.ghrBits)

theorem piped_inv (p : Pipeline) : Inv (piped p) where
  imemWf := rfl
  dmemWf := rfl
  imemBelow := rfl
  dmemBelow := rfl
  zeroReg := rfl
  pcAligned := (rfl : (8 : Word).toNat % 4 = 0)
  predictor := machine_predictorInv p

theorem loadUse_pipeInv : PipeInv loadUseState where
  toInv := piped_inv _
  prevAligned := rfl
  ifidAligned := rfl
  savedAligned := rfl
  deAligned := rfl
  emAligned := rfl
  mwAligned := rfl
  btAligned := rfl
  stallNoFlush := fun _ => rfl
  deControl := ⟨by decide, by decide, by decide, by decide⟩
  deMarked := by decide
  emInert := by decide
  emStoreDest := by decide
  emAccess := by decide
  mwInert := by decide
  mulBusy := by decide
  mulReady := by decide
  mulHeld := by decide
  divHeld := by decide
  divCount := by decide

theorem multiply_pipeInv : PipeInv multiplyState where
  imemWf := rfl
  dmemWf := rfl
  imemBelow := rfl
  dmemBelow := rfl
  zeroReg := rfl
  pcAligned := rfl
  predictor := machine_predictorInv Pipeline.reset
  prevAligned := rfl
  ifidAligned := rfl
  savedAligned := rfl
  deAligned := rfl
  emAligned := rfl
  mwAligned := rfl
  btAligned := rfl
  stallNoFlush := fun _ => rfl
  deControl := ⟨by decide, by decide, by decide, by decide⟩
  deMarked := by decide
  emInert := by decide
  emStoreDest := by decide
  emAccess := by decide
  mwInert := by decide
  mulBusy := by decide
  mulReady := by decide
  mulHeld := by decide
  divHeld := by decide
  divCount := by decide

theorem witness_FlushSquashesTwo :
    flushState.run = .running ∧ flushState.pipe.mw.fault = none ∧ flushState.pipe.mw.haltFlag = false ∧
    flushState.pipe.btReg ≠ 0 ∧ cycle flushState = .next flushState.clock := by
  refine ⟨by decide, by decide, by decide, by decide, rfl⟩

/-- Both units in EX: idle, working and ready. -/
theorem witness_UnitHold :
    multiplyState.execute.hold = true ∧ multiplyState.flush = false ∧ multiplyState.pipe.de.fault = none ∧
    (mulRequest multiplyState.pipe.de.ctrl.aluOp).isSome = true ∧
    multiplyState.mul.ready = false ∧ multiplyState.mul.busy = true ∧ (multiplyState.mul.after 2).ready = true ∧
    Multiplier.reset.ready = false ∧ Multiplier.reset.busy = false ∧
    (divRequest (packet .rem .none .none 1).ctrl.aluOp).isSome = true ∧ (packet .rem .none .none 1).fault = none ∧
    Divider.reset.state = .idle ∧
    (Divider.reset.accept { isSigned := true, wantRem := true } 7 0).ready = true ∧
    (Divider.reset.accept { isSigned := true, wantRem := true } 7 2).ready = false ∧
    (Divider.reset.accept { isSigned := true, wantRem := true } 7 2).state ≠ .idle := by
  decide

/-- Fetch within and beyond the instruction memory, and a word that ID marks because IF marked it. -/
theorem witness_FetchAndDecodeWrite :
    forwardState.pipe.mw.haltFlag = false ∧ cycle forwardState = .next forwardState.clock ∧
    forwardState.pipe.btReg = 0 ∧ forwardState.clock.pipe.stallQ = false ∧
    forwardState.decodeFault forwardState.pipe.ifid = none ∧
    forwardState.pc.toNat / 4 < forwardState.cfg.imemDepth ∧ beyond.cfg.imemDepth ≤ beyond.pc.toNat / 4 ∧
    forwardState.decodeFault { FetchPacket.reset with fault := some (.fetchOutOfRange 4) } =
      some (.fetchOutOfRange 4) := by
  refine ⟨by decide, rfl, ?_⟩
  decide

theorem witness_LoadUseStallsOneCycle :
    PipeInv loadUseState ∧ loadUseState.flush = false ∧ loadUseState.loadUse = true :=
  ⟨loadUse_pipeInv, by decide, by decide⟩

theorem witness_ForwardingDeliversTheYoungest :
    forwardState.flush = false ∧ forwardState.execute.hold = false ∧ forwardState.loadUse = false ∧
    forwardState.execute.em.fault = none ∧ forwardState.decodeFault forwardState.decodeSource = none ∧
    (decodeControl forwardState.decodeSource.inst).used1 = true ∧
    (decodeControl forwardState.decodeSource.inst).used2 = true := by
  decide

/-- A taken transfer to a multiple of 4, and one that is not taken. -/
theorem witness_MissWritesBranchTargetRegister :
    (packet .add .none .eq 0).fault = none ∧ (packet .add .none .eq 0).ctrl.branchKind ≠ .none ∧
    (packet .add .none .eq 0).ctrl.aluOp = .add ∧ branchTaken .eq 5 5 = true ∧ branchTaken .eq 5 6 = false ∧
    (transferTarget .eq 8 5 16).toNat % 4 = 0 := by
  decide

theorem witness_HaltAndFaultTakeEffectInWriteBack :
    haltState.run = .running ∧ haltState.pipe.mw.fault = none ∧ haltState.pipe.mw.haltFlag = true ∧
    haltState.holds 31 = true ∧ haltState.pipe.em.memOp = .store ∧
    7 < haltState.pipe.em.result.toNat ∧ haltState.pipe.em.result.toNat + widthBytes haltState.pipe.em.memWidth ≤ 12 ∧
    haltState.execute.em.memOp = .store ∧
    haltState.execute.em.result.toNat + widthBytes haltState.execute.em.memWidth ≤ 7 ∧
    opcodeOf (haltState.imem.word 1) = 0 ∧ opcodeOf (haltState.imem.word 2) = 0 ∧
    (piped { Pipeline.reset with mw := { MemWb.reset with fault := some (.misalignedFetch 8 2) } }).run = .running ∧
    (piped { Pipeline.reset with mw := { MemWb.reset with fault := some (.misalignedFetch 8 2) } }).pipe.mw.fault =
      some (.misalignedFetch 8 2) ∧
    forwardState.pipe.mw.fault = none ∧ forwardState.pipe.mw.haltFlag = false := by
  decide

/-- A transfer and an instruction that is none. -/
theorem witness_ExecuteStageMatchesExec :
    (Instr.addi 1 0 5).wellFormed = true ∧
    exec (.addi 1 0 5) (machine 8 5 6) = .next ((machine 8 5 6).retire 1 5) ∧
    ((machine 8 5 6).retire 1 5).run = .running ∧
    mulRequest (decodeControl (encode (.addi 1 0 5))).ctrl.aluOp = none ∧
    divRequest (decodeControl (encode (.addi 1 0 5))).ctrl.aluOp = none ∧
    (decodeControl (encode (.addi 1 0 5))).ctrl.branchKind = .none ∧
    (Instr.jal 1 8).wellFormed = true ∧ result (exec (.jal 1 8) (machine 8 5 6)) 1 = some (16, 12) ∧
    (decodeControl (encode (.jal 1 8))).ctrl.branchKind ≠ .none := by
  refine ⟨by decide, rfl, ?_⟩
  decide

theorem witness_StepKeepsInv :
    Inv (piped Pipeline.reset) ∧ step (piped Pipeline.reset) = .next (piped Pipeline.reset).advance :=
  ⟨piped_inv _, rfl⟩

theorem witness_CycleKeepsPipeInv :
    PipeInv loadUseState ∧ cycle loadUseState = .next loadUseState.clock :=
  ⟨loadUse_pipeInv, rfl⟩

theorem witness_OneUnitAtATime : PipeInv multiplyState ∧ multiplyState.mul.busy = true :=
  ⟨multiply_pipeInv, by decide⟩

end Sys2Proof.Tests
end

namespace Sys2Proof

/-! ### Operand fields of an encoded word (R101 to R107) -/

section OperandFields

variable (f7 : BitVec 7) (imm : BitVec 12) (o : BitVec 13) (u : BitVec 20) (j : BitVec 21) (rs1 rs2 rd : Reg)
  (f3 : BitVec 3) (op : BitVec 7)

@[simp] theorem rdOf_encR : rdOf (encR f7 rs2 rs1 f3 rd op) = rd := by
  apply BitVec.eq_of_toNat_eq; have := op.isLt; have := rd.isLt
  simp only [rdOf, extract_toNat, encR_toNat]; omega

@[simp] theorem rdOf_encI : rdOf (encI imm rs1 f3 rd op) = rd := by
  apply BitVec.eq_of_toNat_eq; have := op.isLt; have := rd.isLt
  simp only [rdOf, extract_toNat, encI_toNat]; omega

@[simp] theorem rdOf_encU : rdOf (encU u rd op) = rd := by
  apply BitVec.eq_of_toNat_eq; have := op.isLt; have := rd.isLt
  simp only [rdOf, extract_toNat, encU_toNat]; omega

/-- Where the J format's fields of the offset lie, and its register (R102). -/
theorem encJ_fields :
    (encJ j rd op).toNat / 2 ^ 31 % 2 ^ 1 = j.toNat / 2 ^ 20 ∧
      (encJ j rd op).toNat / 2 ^ 12 % 2 ^ 8 = j.toNat / 2 ^ 12 % 2 ^ 8 ∧
      (encJ j rd op).toNat / 2 ^ 20 % 2 ^ 1 = j.toNat / 2 ^ 11 % 2 ∧
      (encJ j rd op).toNat / 2 ^ 21 % 2 ^ 10 = j.toNat / 2 % 2 ^ 10 ∧
      (encJ j rd op).toNat / 2 ^ 7 % 2 ^ 5 = rd.toNat :=
  have := j.isLt
  fields_formatJ _ _ _ _ _ _ _ (encJ_toNat ..) (Nat.mod_lt _ (by decide)) (by omega) rd.isLt (Nat.mod_lt _ (by decide))
    (Nat.mod_lt _ (by decide)) op.isLt

/-- Where the B format's fields of the offset lie, and its registers (R102). -/
theorem encB_fields :
    (encB o rs2 rs1 f3 op).toNat / 2 ^ 31 % 2 ^ 1 = o.toNat / 2 ^ 12 ∧
      (encB o rs2 rs1 f3 op).toNat / 2 ^ 25 % 2 ^ 6 = o.toNat / 2 ^ 5 % 2 ^ 6 ∧
      (encB o rs2 rs1 f3 op).toNat / 2 ^ 20 % 2 ^ 5 = rs2.toNat ∧
      (encB o rs2 rs1 f3 op).toNat / 2 ^ 15 % 2 ^ 5 = rs1.toNat ∧
      (encB o rs2 rs1 f3 op).toNat / 2 ^ 8 % 2 ^ 4 = o.toNat / 2 % 2 ^ 4 ∧
      (encB o rs2 rs1 f3 op).toNat / 2 ^ 7 % 2 ^ 1 = o.toNat / 2 ^ 11 % 2 :=
  have := o.isLt
  fields_formatB _ _ _ _ _ _ _ _ _ (encB_toNat ..) (by omega) (Nat.mod_lt _ (by decide)) rs2.isLt rs1.isLt f3.isLt
    (Nat.mod_lt _ (by decide)) (Nat.mod_lt _ (by decide)) op.isLt

/-- Where the S format's fields of the immediate lie, and its registers (R102). -/
theorem encS_fields :
    (encS imm rs2 rs1 f3 op).toNat / 2 ^ 25 % 2 ^ 7 = imm.toNat / 2 ^ 5 ∧
      (encS imm rs2 rs1 f3 op).toNat / 2 ^ 20 % 2 ^ 5 = rs2.toNat ∧
      (encS imm rs2 rs1 f3 op).toNat / 2 ^ 15 % 2 ^ 5 = rs1.toNat ∧
      (encS imm rs2 rs1 f3 op).toNat / 2 ^ 7 % 2 ^ 5 = imm.toNat % 2 ^ 5 :=
  have := imm.isLt
  fields_formatS _ _ _ _ _ _ _ (encS_toNat ..) (by omega) rs2.isLt rs1.isLt f3.isLt (Nat.mod_lt _ (by decide)) op.isLt

@[simp] theorem rdOf_encJ : rdOf (encJ j rd op) = rd := by
  obtain ⟨-, -, -, -, hrd⟩ := encJ_fields j rd op
  exact BitVec.eq_of_toNat_eq (by rw [rdOf, extract_toNat, hrd])

@[simp] theorem rs1Of_encR : rs1Of (encR f7 rs2 rs1 f3 rd op) = rs1 := by
  apply BitVec.eq_of_toNat_eq; have := op.isLt; have := rd.isLt; have := f3.isLt; have := rs1.isLt
  simp only [rs1Of, extract_toNat, encR_toNat]; omega

@[simp] theorem rs1Of_encI : rs1Of (encI imm rs1 f3 rd op) = rs1 := by
  apply BitVec.eq_of_toNat_eq; have := op.isLt; have := rd.isLt; have := f3.isLt; have := rs1.isLt
  simp only [rs1Of, extract_toNat, encI_toNat]; omega

@[simp] theorem rs1Of_encS : rs1Of (encS imm rs2 rs1 f3 op) = rs1 := by
  obtain ⟨-, -, hrs1, -⟩ := encS_fields imm rs1 rs2 f3 op
  exact BitVec.eq_of_toNat_eq (by rw [rs1Of, extract_toNat, hrs1])

@[simp] theorem rs1Of_encB : rs1Of (encB o rs2 rs1 f3 op) = rs1 := by
  obtain ⟨-, -, -, hrs1, -⟩ := encB_fields o rs1 rs2 f3 op
  exact BitVec.eq_of_toNat_eq (by rw [rs1Of, extract_toNat, hrs1])

@[simp] theorem rs2Of_encR : rs2Of (encR f7 rs2 rs1 f3 rd op) = rs2 := by
  apply BitVec.eq_of_toNat_eq
  have := op.isLt; have := rd.isLt; have := f3.isLt; have := rs1.isLt; have := rs2.isLt
  simp only [rs2Of, extract_toNat, encR_toNat]; omega

@[simp] theorem rs2Of_encS : rs2Of (encS imm rs2 rs1 f3 op) = rs2 := by
  obtain ⟨-, hrs2, -, -⟩ := encS_fields imm rs1 rs2 f3 op
  exact BitVec.eq_of_toNat_eq (by rw [rs2Of, extract_toNat, hrs2])

@[simp] theorem rs2Of_encB : rs2Of (encB o rs2 rs1 f3 op) = rs2 := by
  obtain ⟨-, -, hrs2, -⟩ := encB_fields o rs1 rs2 f3 op
  exact BitVec.eq_of_toNat_eq (by rw [rs2Of, extract_toNat, hrs2])

@[simp] theorem immIOf_encI : immIOf (encI imm rs1 f3 rd op) = imm := by
  apply BitVec.eq_of_toNat_eq
  have := op.isLt; have := rd.isLt; have := f3.isLt; have := rs1.isLt; have := imm.isLt
  simp only [immIOf, extract_toNat, encI_toNat]; omega

@[simp] theorem immSOf_encS : immSOf (encS imm rs2 rs1 f3 op) = imm := by
  obtain ⟨hhigh, -, -, hlow⟩ := encS_fields imm rs1 rs2 f3 op
  apply BitVec.eq_of_toNat_eq
  rw [immSOf, append_toNat, extract_toNat, extract_toNat, hhigh, hlow]
  omega

@[simp] theorem immUOf_encU : immUOf (encU u rd op) = u := by
  apply BitVec.eq_of_toNat_eq; have := op.isLt; have := rd.isLt; have := u.isLt
  simp only [immUOf, extract_toNat, encU_toNat]; omega

end OperandFields

theorem evenOffset_toNat {n : Nat} {offset : BitVec n} (h : evenOffset offset = true) : offset.toNat % 2 = 0 := by
  simpa [evenOffset, getLsbD_toNat] using h

/-- An even branch offset is read back (R105). -/
theorem immBOf_encB {o : BitVec 13} (ho : evenOffset o = true) (rs1 rs2 : Reg) (f3 : BitVec 3) (op : BitVec 7) :
    immBOf (encB o rs2 rs1 f3 op) = o := by
  obtain ⟨h12, h5, -, -, h1, h11⟩ := encB_fields o rs1 rs2 f3 op
  have := evenOffset_toNat ho
  have e5 := Nat.div_div_eq_div_mul o.toNat 2 (2 ^ 4)
  have e11 := Nat.div_div_eq_div_mul o.toNat (2 ^ 5) (2 ^ 6)
  have e12 := Nat.div_div_eq_div_mul o.toNat (2 ^ 11) 2
  apply BitVec.eq_of_toNat_eq
  simp only [immBOf, append_toNat, extract_toNat, h12, h5, h1, h11, BitVec.toNat_ofNat]
  omega

/-- An even JAL offset is read back (R107). -/
theorem immJOf_encJ {j : BitVec 21} (hj : evenOffset j = true) (rd : Reg) (op : BitVec 7) :
    immJOf (encJ j rd op) = j := by
  obtain ⟨h20, h12, h11, h1, -⟩ := encJ_fields j rd op
  have := evenOffset_toNat hj
  have := j.isLt
  apply BitVec.eq_of_toNat_eq
  simp only [immJOf, append_toNat, extract_toNat, h20, h12, h11, h1, BitVec.toNat_ofNat]
  omega

/-! ### The pipeline's decoder on an encoded word (R109, R111) -/

/-- Of the halt words two have the opcode SYSTEM, which no row has, and one has the opcode STORE. -/
theorem decodeControl_of_opcode {w : Word} {r : Row}
    (hr : rowFor (opcodeOf w) (funct3Of w) (bit30Of w) (bit25Of w) = some r)
    (hstore : opcodeOf w = 0b0100011#7 → w ≠ haltReserved) : decodeControl w = r.control w := by
  have hne : ∀ v : Word, rowFor (opcodeOf v) (funct3Of v) (bit30Of v) (bit25Of v) = none → w ≠ v := by
    rintro v hv rfl; rw [hv] at hr; cases hr
  have hres : w ≠ haltReserved := fun h => hstore (by rw [h]; decide) h
  refine decodeControl_of_row (hne 0 (by decide)) ?_ (by rw [rowOf_eq, hr])
  simp only [isHaltWord, Bool.or_eq_false_iff, beq_eq_false_iff_ne]
  exact ⟨⟨hne haltEcall (by decide), hne haltEbreak (by decide)⟩, hres⟩

/-! ### Rows of encoded words, format by format -/

section EncodedRows

variable {f7 : BitVec 7} {imm : BitVec 12} {o : BitVec 13} {u : BitVec 20} {j : BitVec 21} {rs1 rs2 rd : Reg}
  {f3 : BitVec 3} {op : BitVec 7} {r : Row}

theorem decodeControl_encR (hrow : rowFor op f3 (f7.getLsbD 5) (f7.getLsbD 0) = some r) (hop : op ≠ 0b0100011#7) :
    decodeControl (encR f7 rs2 rs1 f3 rd op) = r.control (encR f7 rs2 rs1 f3 rd op) :=
  decodeControl_of_opcode (by simpa using hrow) (fun h => absurd h (by simpa using hop))

theorem decodeControl_encI (hrow : ∀ b30 b25, rowFor op f3 b30 b25 = some r) (hop : op ≠ 0b0100011#7) :
    decodeControl (encI imm rs1 f3 rd op) = r.control (encI imm rs1 f3 rd op) :=
  decodeControl_of_opcode (by simpa using hrow _ _) (fun h => absurd h (by simpa using hop))

theorem decodeControl_encS (hrow : ∀ b30 b25, rowFor op f3 b30 b25 = some r)
    (hres : encS imm rs2 rs1 f3 op ≠ haltReserved) :
    decodeControl (encS imm rs2 rs1 f3 op) = r.control (encS imm rs2 rs1 f3 op) :=
  decodeControl_of_opcode (by simpa using hrow _ _) (fun _ => hres)

theorem decodeControl_encB (hrow : ∀ b30 b25, rowFor op f3 b30 b25 = some r) (hop : op ≠ 0b0100011#7) :
    decodeControl (encB o rs2 rs1 f3 op) = r.control (encB o rs2 rs1 f3 op) :=
  decodeControl_of_opcode (by simpa using hrow _ _) (fun h => absurd h (by simpa using hop))

theorem decodeControl_encU (hrow : ∀ f3 b30 b25, rowFor op f3 b30 b25 = some r) (hop : op ≠ 0b0100011#7) :
    decodeControl (encU u rd op) = r.control (encU u rd op) :=
  decodeControl_of_opcode (by simpa using hrow _ _ _) (fun h => absurd h (by simpa using hop))

theorem decodeControl_encJ (hrow : ∀ f3 b30 b25, rowFor op f3 b30 b25 = some r) (hop : op ≠ 0b0100011#7) :
    decodeControl (encJ j rd op) = r.control (encJ j rd op) :=
  decodeControl_of_opcode (by simpa using hrow _ _ _) (fun h => absurd h (by simpa using hop))

/-- A word of the S format is the reserved halt word only with the operands of `sb x0, -1(x0)` (R111). -/
theorem encS_eq_haltReserved (h : encS imm rs2 rs1 f3 op = haltReserved) :
    rs2 = 0 ∧ rs1 = 0 ∧ imm = -1 ∧ f3 = 0 := by
  have hrs2 := rs2Of_encS imm rs1 rs2 f3 op
  have hrs1 := rs1Of_encS imm rs1 rs2 f3 op
  have himm := immSOf_encS imm rs1 rs2 f3 op
  have hf3 := funct3Of_encS imm rs1 rs2 f3 op
  rw [h] at hrs2 hrs1 himm hf3
  exact ⟨hrs2.symm.trans (by decide), hrs1.symm.trans (by decide), himm.symm.trans (by decide),
    hf3.symm.trans (by decide)⟩

end EncodedRows

end Sys2Proof

namespace Sys2Proof.Machine

/-! ### The sequential step -/

/-- A running step whose fetch and STRICT_DECODE checks pass runs the decoded word, and nothing around it (R357). -/
theorem step_of_checks {s : State} (hrun : s.run = .running) (hpc : s.pc.toNat / 4 < s.cfg.imemDepth)
    (hstrict : s.cfg.strictDecode = true → isCanonical s.fetch = true) : step s = runDecoded (decode s.fetch) s := by
  have hs : strictFault s.cfg s.pc s.fetch = none := by
    cases hd : s.cfg.strictDecode
    · simp [strictFault, hd]
    · simp [strictFault, hstrict hd]
  rw [step, sequentialStep, hrun]
  simp only [runInstruction, (fetchFault_eq_none ..).mpr hpc, hs, orFault_none]

/-- Settles O8: the checks pass, and `runDecoded` is `exec` on an instruction and the no-op on a word with no row. -/
theorem stepRunsTheDecodedInstruction : Obligations.StepRunsTheDecodedInstruction := by
  intro s hrun hpc hstrict
  have hstep : step s = runDecoded (decode (s.imem.word (s.pc.toNat / 4))) s := step_of_checks hrun hpc hstrict
  constructor
  · intro i hi
    rw [hstep, hi, runDecoded]
  · intro w hw
    rw [hstep, hw]
    rfl

/-! ### What no step and no cycle changes -/

/-- No effect of an instruction touches the parameters, instruction memory, the multiplier, the latches or the cycle
count. -/
theorem Effect.sameFixed {s t : State} (h : Effect s t) : SameFixed s t := by
  cases h with
  | retire rd v => exact (retire_retires s rd v).toSameFixed
  | divide rd v e => exact (retire_divides s rd v e).toSameFixed
  | transfer rd taken target => exact (transferred_transfers s rd taken target).toSameFixed
  | store a v width => exact (store_stores s a v width).toSameFixed
  | halt => exact (halt_halts s).toSameFixed
  | advance => exact ⟨rfl, rfl, rfl, rfl, rfl⟩

@[simp] theorem State.clock_imem (s : State) : s.clock.imem = s.imem := State.writeReg_imem ..

@[simp] theorem State.clock_cfg (s : State) : s.clock.cfg = s.cfg := State.writeReg_cfg ..

/-- Settles O39: a step has one of the effects of `Effect`, and a cycle is a halt's or every stage's. -/
theorem instructionMemoryNeverChanges : Obligations.InstructionMemoryNeverChanges := by
  constructor
  · intro s t h
    obtain ⟨-, -, heffect⟩ := step_effect h
    exact heffect.sameFixed
  · intro s t h
    obtain ⟨-, -, ⟨-, rfl⟩ | ⟨-, rfl⟩⟩ := cycle_next h
    · exact ⟨rfl, rfl⟩
    · exact ⟨s.clock_imem, s.clock_cfg⟩

/-! ### Shift amounts (R108) -/

theorem shiftAmount_eq (b : Word) : shiftAmount b = b.toNat % 2 ^ 5 := by
  rw [shiftAmount, extract_toNat]; omega

/-- Sign extension keeps the low bits, of which a shift amount is made. -/
theorem shiftAmount_sext12 (imm : BitVec 12) : shiftAmount (sext12 imm) = imm.toNat % 2 ^ 5 := by
  have hlow : (sext12 imm).extractLsb' 0 5 = imm.extractLsb' 0 5 := by
    apply BitVec.eq_of_getLsbD_eq
    intro i hi
    rw [BitVec.getLsbD_extractLsb', BitVec.getLsbD_extractLsb', Nat.zero_add, sext12, BitVec.getLsbD_signExtend]
    simp [show i < 12 by omega, show i < 32 by omega]
  rw [shiftAmount, hlow, extract_toNat]; omega

/-- The shift amount of an encoded shift is its operand's. -/
theorem shiftAmount_encR (f7 : BitVec 7) (shamt rs1 : Reg) (f3 : BitVec 3) (rd : Reg) (op : BitVec 7) :
    shiftAmount (sext12 (immIOf (encR f7 shamt rs1 f3 rd op))) = shiftAmount (shamtOperand shamt) := by
  have := op.isLt; have := rd.isLt; have := f3.isLt; have := rs1.isLt; have := shamt.isLt
  rw [shiftAmount_sext12, shiftAmount_eq, shamtOperand, BitVec.toNat_setWidth, immIOf, extract_toNat, encR_toNat]
  omega

/-- A shift reads only the shift amount of its second operand (R161). -/
theorem aluFn_shift_congr {op : AluOp} (hop : op = .sll ∨ op = .srl ∨ op = .sra) (a : Word) {b c : Word}
    (h : shiftAmount b = shiftAmount c) : aluFn op a b = aluFn op a c := by
  obtain rfl | rfl | rfl := hop <;> simp only [aluFn, h]

/-! ### EX, then MEM, on decoded control (R7) -/

/-- The packet ID sends for decoded control, but for the operands, which EX takes as resolved (R394, R408). -/
def packetFor (d : DecodedControl) (pc pred : Word) : IdEx :=
  { IdEx.bubble with ctrl := { d.ctrl with predictedNextPc := pred }, pc := pc, imm := d.imm }

/-- What EX writes for decoded control, its operands resolved to the registers' values. -/
def State.exControl (s : State) (pred : Word) (d : DecodedControl) : ExOut :=
  s.exOn (packetFor d s.pc pred) (s.reg d.rs1) (s.reg d.rs2)

/-- The state in which MEM has what EX wrote (R386, R390). -/
def State.inMem (s : State) (o : ExOut) : State :=
  { s with pipe := { s.pipe with em := o.em, dmemOut := o.dmemOut } }

/-- EX on decoded control and MEM on what it wrote bring about the next state `t` (R7). -/
structure StageMatches (s t : State) (pred : Word) (d : DecodedControl) : Prop where
  /-- EX passes the instruction on, unmarked. -/
  passes : ∃ v, (s.exControl pred d).em = ExMem.ofControl d.ctrl s.pc v
  haltFlag : d.ctrl.haltFlag = false
  dmem : (s.exControl pred d).dmem = t.dmem
  predictor : (s.exControl pred d).predictor = t.predictor
  regs : ∀ r, t.reg r =
    if r = d.ctrl.destReg ∧ d.ctrl.destReg ≠ 0 then (s.inMem (s.exControl pred d)).memValue else s.reg r
  redirect : d.ctrl.branchKind ≠ .none → (s.exControl pred d).btReg = if t.pc = pred then 0 else t.pc
  next : d.ctrl.branchKind = .none → t.pc = s.pc + 4 ∧ (s.exControl pred d).btReg = 0

section Shapes

variable {s t : State} {pred : Word} {d : DecodedControl} (hm : mulRequest d.ctrl.aluOp = none)
  (hd : divRequest d.ctrl.aluOp = none)

include hm hd

/-- EX on an instruction that asks no unit: a transfer, an access, or the ALU's result (R388, R390). -/
theorem exControl_of_no_unit :
    s.exControl pred d =
      if d.ctrl.branchKind ≠ .none then
        s.exTransfer (packetFor d s.pc pred) (s.reg d.rs1) (s.reg d.rs2) (s.aluResult d)
      else if d.ctrl.memOp ≠ .none then s.exMemory (packetFor d s.pc pred) (s.reg d.rs2) (s.aluResult d)
      else s.exIdle (ExMem.ofControl d.ctrl s.pc (s.aluResult d)) (s.aluResult d) := by
  simp only [State.exControl, State.exOn, packetFor, IdEx.bubble, hm, hd]
  rfl

/-- EX on a load or store with a legal address (R250, R256). -/
theorem exControl_memory (hk : d.ctrl.branchKind = .none) (ho : d.ctrl.memOp ≠ .none)
    (ha : accessFault s.cfg s.pc (s.aluResult d) d.ctrl.memWidth = none) :
    s.exControl pred d =
      { s.exIdle (ExMem.ofControl d.ctrl s.pc (s.aluResult d)) (s.aluResult d) with
        dmemOut := if d.ctrl.memOp = .load then s.dmem.wordAt (s.aluResult d) else s.pipe.dmemOut
        dmem :=
          if d.ctrl.memOp = .store then s.dmem.store (s.aluResult d) d.ctrl.memWidth (s.reg d.rs2) else s.dmem } := by
  rw [exControl_of_no_unit hm hd, if_neg (not_not.mpr hk), if_pos ho, State.exMemory]
  simp only [packetFor, ha]
  rfl

/-- EX on a transfer that is not taken to a misaligned target (R203 to R205, R215, R218). -/
theorem exControl_transfer (hk : d.ctrl.branchKind ≠ .none) {taken : Bool} {target : Word}
    (ht : branchTaken d.ctrl.branchKind (s.reg d.rs1) (s.reg d.rs2) = taken)
    (htarget : transferTarget d.ctrl.branchKind s.pc (s.reg d.rs1) d.imm = target)
    (ha : taken = true → target.toNat % 4 = 0) :
    s.exControl pred d =
      { s.exIdle (ExMem.ofControl d.ctrl s.pc (s.aluResult d)) (s.aluResult d) with
        btReg := if resolvedNext taken s.pc target != pred then resolvedNext taken s.pc target else 0
        predictor := s.predictor.train s.cfg s.pc taken target } := by
  have hmis : (taken && misalignedPc target) = false := by
    cases taken
    · rfl
    · simpa [misalignedPc] using ha rfl
  rw [exControl_of_no_unit hm hd, if_pos hk, State.exTransfer]
  simp only [packetFor, ht, htarget, hmis, Bool.false_eq_true, if_false]
  rfl

/-- An instruction of the ALU writes its result and goes on (R162, R390). -/
theorem StageMatches.of_alu (hk : d.ctrl.branchKind = .none) (ho : d.ctrl.memOp = .none)
    (hh : d.ctrl.haltFlag = false)
    (ht : t = s.retire d.ctrl.destReg (s.aluResult d)) : StageMatches s t pred d := by
  have hx : s.exControl pred d = _ :=
    (exControl_of_no_unit hm hd).trans ((if_neg (not_not.mpr hk)).trans (if_neg (not_not.mpr ho)))
  subst ht
  have hv : (s.inMem (s.exControl pred d)).memValue = s.aluResult d := by
    simp only [State.memValue, State.inMem, hx, State.exIdle, ExMem.ofControl, ho]
  exact {
    passes := ⟨_, by rw [hx]; rfl⟩
    haltFlag := hh
    dmem := by rw [hx, State.retire_dmem]; rfl
    predictor := by rw [hx, State.retire_predictor]; rfl
    regs := fun r => by rw [hv]; exact State.reg_retire ..
    redirect := fun h => absurd hk h
    next := fun _ => ⟨State.retire_pc .., by rw [hx]; rfl⟩ }

/-- A load writes what MEM extends of the word EX read (R252, R386). -/
theorem StageMatches.of_load (hk : d.ctrl.branchKind = .none) (ho : d.ctrl.memOp = .load)
    (hh : d.ctrl.haltFlag = false)
    (ha : accessFault s.cfg s.pc (s.aluResult d) d.ctrl.memWidth = none)
    (ht : t = s.retire d.ctrl.destReg (s.dmem.load (s.aluResult d) d.ctrl.memWidth d.ctrl.memSign)) :
    StageMatches s t pred d := by
  have hx := exControl_memory (s := s) (pred := pred) hm hd hk (by rw [ho]; decide) ha
  subst ht
  have hv : (s.inMem (s.exControl pred d)).memValue =
      s.dmem.load (s.aluResult d) d.ctrl.memWidth d.ctrl.memSign := by
    simp only [State.memValue, State.inMem, hx, State.exIdle, ExMem.ofControl, ho, if_true, Memory.load]
  exact {
    passes := ⟨_, by rw [hx]; rfl⟩
    haltFlag := hh
    dmem := by rw [hx, State.retire_dmem, ho]; rfl
    predictor := by rw [hx, State.retire_predictor]; rfl
    regs := fun r => by rw [hv]; exact State.reg_retire ..
    redirect := fun h => absurd hk h
    next := fun _ => ⟨State.retire_pc .., by rw [hx]; rfl⟩ }

/-- A store changes memory in EX and writes no register (R254, R133). -/
theorem StageMatches.of_store (hk : d.ctrl.branchKind = .none) (ho : d.ctrl.memOp = .store)
    (hh : d.ctrl.haltFlag = false)
    (hdest : d.ctrl.destReg = 0) (ha : accessFault s.cfg s.pc (s.aluResult d) d.ctrl.memWidth = none)
    (ht : t = { s with dmem := s.dmem.store (s.aluResult d) d.ctrl.memWidth (s.reg d.rs2) }.advance) :
    StageMatches s t pred d := by
  have hx := exControl_memory (s := s) (pred := pred) hm hd hk (by rw [ho]; decide) ha
  subst ht
  exact {
    passes := ⟨_, by rw [hx]; rfl⟩
    haltFlag := hh
    dmem := by rw [hx, ho]; rfl
    predictor := by rw [hx]; rfl
    regs := fun r => by rw [if_neg fun h => h.2 hdest]; rfl
    redirect := fun h => absurd hk h
    next := fun _ => ⟨rfl, by rw [hx]; rfl⟩ }

/-- A transfer redirects IF when the next PC is not the predicted one, and its link, where it has a destination, is `pc + 4`
(R200, R215). -/
theorem StageMatches.of_transfer (hk : d.ctrl.branchKind ≠ .none) (ho : d.ctrl.memOp = .none)
    (hh : d.ctrl.haltFlag = false)
    (hlink : d.ctrl.destReg ≠ 0 → s.aluResult d = s.pc + 4)
    (ht : s.transfer d.ctrl.destReg (branchTaken d.ctrl.branchKind (s.reg d.rs1) (s.reg d.rs2))
      (transferTarget d.ctrl.branchKind s.pc (s.reg d.rs1) d.imm) = .next t) : StageMatches s t pred d := by
  obtain ⟨ha, -, rfl⟩ := (transfer_next ..).mp ht
  have hx := exControl_transfer (pred := pred) hm hd hk rfl rfl ha
  have htr := transferred_transfers s d.ctrl.destReg (branchTaken d.ctrl.branchKind (s.reg d.rs1) (s.reg d.rs2))
    (transferTarget d.ctrl.branchKind s.pc (s.reg d.rs1) d.imm)
  have hv : (s.inMem (s.exControl pred d)).memValue = s.aluResult d := by
    simp only [State.memValue, State.inMem, hx, State.exIdle, ExMem.ofControl, ho]
  exact {
    passes := ⟨_, by rw [hx]; rfl⟩
    haltFlag := hh
    dmem := by rw [hx]; exact (State.writeReg_dmem ..).symm
    predictor := by rw [hx]; rfl
    regs := fun r => by
      rw [hv, htr.writes.value]
      split
      · next h => exact (hlink h.2).symm
      · rfl
    redirect := fun _ => by
      rw [hx, htr.pc]
      simp [resolvedNext]
    next := fun h => absurd h hk }

end Shapes

/-! ### EX, then MEM, on the word of each form -/

section Forms

variable {s t : State} {pred : Word} {rd rs1 rs2 : Reg} {f3 : BitVec 3} {op : AluOp}

/-- An OP-IMM instruction that is no shift (R165 to R170). -/
theorem opImm_stageMatches {mk : Reg → Reg → BitVec 12 → Instr} {imm : BitVec 12}
    (hrow : ∀ b30 b25, rowFor 0b0010011 f3 b30 b25 = some (Row.opImm f3 mk op))
    (hexec : s.aluImm op rd rs1 (sext12 imm) = .next t) (hm : mulRequest op = none) (hd : divRequest op = none) :
    StageMatches s t pred (decodeControl (encI imm rs1 f3 rd 0b0010011)) := by
  obtain ⟨-, ht⟩ := (aluImm_next ..).mp hexec
  rw [decodeControl_encI hrow (by decide)]
  refine StageMatches.of_alu hm hd rfl rfl rfl (ht.trans ?_)
  simp [Row.control, Row.opImm, State.aluResult, operand1, operand2, immOf]

/-- An OP-IMM shift (R171 to R173). -/
theorem shift_stageMatches {mk : Reg → Reg → BitVec 5 → Instr} {shamt : BitVec 5} {f7 : BitVec 7} {key : Option Bool}
    (hrow : rowFor 0b0010011 f3 (f7.getLsbD 5) (f7.getLsbD 0) = some (Row.shift f3 key f7 mk op))
    (hexec : s.aluImm op rd rs1 (shamtOperand shamt) = .next t) (hop : op = .sll ∨ op = .srl ∨ op = .sra)
    (hm : mulRequest op = none) (hd : divRequest op = none) :
    StageMatches s t pred (decodeControl (encR f7 shamt rs1 f3 rd 0b0010011)) := by
  obtain ⟨-, ht⟩ := (aluImm_next ..).mp hexec
  rw [← aluFn_shift_congr hop _ (shiftAmount_encR f7 shamt rs1 f3 rd 0b0010011)] at ht
  rw [decodeControl_encR hrow (by decide)]
  refine StageMatches.of_alu hm hd rfl rfl rfl (ht.trans ?_)
  simp [Row.control, Row.shift, State.aluResult, operand1, operand2, immOf]

/-- An OP instruction (R174 to R183). -/
theorem op_stageMatches {mk : Reg → Reg → Reg → Instr} {f7 : BitVec 7} {b30 b25 : Bool}
    (hrow : rowFor 0b0110011 f3 (f7.getLsbD 5) (f7.getLsbD 0) = some (Row.op f3 b30 b25 f7 mk op))
    (hexec : s.aluReg op rd rs1 rs2 = .next t) (hm : mulRequest op = none) (hd : divRequest op = none) :
    StageMatches s t pred (decodeControl (encR f7 rs2 rs1 f3 rd 0b0110011)) := by
  obtain ⟨-, ht⟩ := (aluReg_next ..).mp hexec
  rw [decodeControl_encR hrow (by decide)]
  refine StageMatches.of_alu hm hd rfl rfl rfl (ht.trans ?_)
  simp [Row.control, Row.op, State.aluResult, operand1, operand2]

/-- LUI and AUIPC (R163, R164). -/
theorem upper_stageMatches {mk : Reg → BitVec 20 → Instr} {imm : BitVec 20} {opcode : BitVec 7} {op1 : Op1Sel}
    (hrow : ∀ f3 b30 b25, rowFor opcode f3 b30 b25 = some (Row.upper opcode mk op1)) (hop : opcode ≠ 0b0100011#7)
    (ht : t = s.retire rd (aluFn .add (operand1 op1 0 s.pc) (upper20 imm))) (hsel : op1 ≠ .rs1) :
    StageMatches s t pred (decodeControl (encU imm rd opcode)) := by
  rw [decodeControl_encU hrow hop]
  refine StageMatches.of_alu rfl rfl rfl rfl rfl (ht.trans ?_)
  cases op1 with
  | rs1 => exact absurd rfl hsel
  | zero | pc => simp [Row.control, Row.upper, State.aluResult, operand1, operand2, immOf]

/-- A load (R259 to R263). -/
theorem load_stageMatches {mk : Reg → Reg → BitVec 12 → Instr} {imm : BitVec 12} {width : MemWidth} {sign : MemSign}
    (hrow : ∀ b30 b25, rowFor 0b0000011 f3 b30 b25 = some (Row.load f3 mk width sign))
    (hexec : s.loadOp width sign rd rs1 imm = .next t) :
    StageMatches s t pred (decodeControl (encI imm rs1 f3 rd 0b0000011)) := by
  obtain ⟨-, ha, ht⟩ := (loadOp_next ..).mp hexec
  rw [decodeControl_encI hrow (by decide)]
  have haddr : s.aluResult ((Row.load f3 mk width sign).control (encI imm rs1 f3 rd 0b0000011)) =
      s.reg rs1 + sext12 imm := by
    simp [Row.control, Row.load, State.aluResult, operand1, operand2, immOf, aluFn]
  refine StageMatches.of_load rfl rfl rfl rfl rfl (by rw [haddr]; exact ha) (ht.trans ?_)
  rw [haddr]
  simp [Row.control, Row.load]

/-- A store whose word is not the reserved halt word (R265 to R267). -/
theorem store_stageMatches {mk : Reg → Reg → BitVec 12 → Instr} {imm : BitVec 12} {width : MemWidth}
    (hrow : ∀ b30 b25, rowFor 0b0100011 f3 b30 b25 = some (Row.store f3 mk width))
    (hexec : s.storeOp width rs2 rs1 imm = .next t)
    (hres : encS imm rs2 rs1 f3 0b0100011 ≠ haltReserved) :
    StageMatches s t pred (decodeControl (encS imm rs2 rs1 f3 0b0100011)) := by
  obtain ⟨-, ha, ht⟩ := (storeOp_next ..).mp hexec
  rw [decodeControl_encS hrow hres]
  have haddr : s.aluResult ((Row.store f3 mk width).control (encS imm rs2 rs1 f3 0b0100011)) =
      s.reg rs1 + sext12 imm := by
    simp [Row.control, Row.store, State.aluResult, operand1, operand2, immOf, aluFn]
  refine StageMatches.of_store rfl rfl rfl rfl rfl rfl (by rw [haddr]; exact ha) (ht.trans ?_)
  rw [haddr]
  simp [Row.control, Row.store]

/-- A conditional branch (R209 to R214). -/
theorem branch_stageMatches {mk : Reg → Reg → BitVec 13 → Instr} {offset : BitVec 13} {kind : BranchKind}
    (hrow : ∀ b30 b25, rowFor 0b1100011 f3 b30 b25 = some (Row.branch f3 mk kind))
    (hexec : s.branch kind rs1 rs2 offset = .next t) (heven : evenOffset offset = true) (hkind : kind ≠ .none)
    (hjalr : kind ≠ .jalr) :
    StageMatches s t pred (decodeControl (encB offset rs2 rs1 f3 0b1100011)) := by
  obtain ⟨-, ht⟩ := (branch_next ..).mp hexec
  rw [decodeControl_encB hrow (by decide)]
  refine StageMatches.of_transfer rfl rfl hkind rfl rfl (fun h => absurd rfl h) ?_
  have htarget : transferTarget kind s.pc (s.reg rs1) (sext13 offset) = s.pc + sext13 offset := by
    cases kind with
    | jalr => exact absurd rfl hjalr
    | _ => rfl
  simpa [Row.control, Row.branch, immOf, immBOf_encB heven, htarget] using ht

/-- JAL (R207). -/
theorem jal_stageMatches {offset : BitVec 21} (hexec : execJal rd offset s = .next t) (heven : evenOffset offset = true) :
    StageMatches s t pred (decodeControl (encode (.jal rd offset))) := by
  rw [encode, decodeControl_encJ (r := Row.jal) (fun _ _ _ => rfl) (by decide)]
  refine StageMatches.of_transfer rfl rfl nofun rfl rfl (fun _ => rfl) ?_
  simpa [Row.control, Row.jal, immOf, immJOf_encJ heven, branchTaken, transferTarget, execJal] using hexec

/-- JALR (R208). -/
theorem jalr_stageMatches {imm : BitVec 12} (hexec : execJalr rd rs1 imm s = .next t) :
    StageMatches s t pred (decodeControl (encode (.jalr rd rs1 imm))) := by
  obtain ⟨-, ht⟩ := (orFault_next ..).mp hexec
  rw [encode, decodeControl_encI (r := Row.jalr) (fun _ _ => rfl) (by decide)]
  refine StageMatches.of_transfer rfl rfl nofun rfl rfl (fun _ => rfl) ?_
  simpa [Row.control, Row.jalr, immOf, branchTaken, transferTarget] using ht

/-- The canonical NOP, which is ADDI with every operand 0 (R334). -/
theorem nop_stageMatches : StageMatches s s.advance pred (decodeControl nopWord) :=
  StageMatches.of_alu (d := decodeControl nopWord) rfl rfl rfl rfl rfl rfl

end Forms

/-- What an OP or M word asks of a unit is what its row's operation asks (R131). -/
theorem op_request {α : Type} (request : AluOp → Option α) {f7 : BitVec 7} {rd rs1 rs2 : Reg} {f3 : BitVec 3}
    {op : AluOp} {b30 b25 : Bool} {mk : Reg → Reg → Reg → Instr}
    (h : request (decodeControl (encR f7 rs2 rs1 f3 rd 0b0110011)).ctrl.aluOp = none)
    (hrow : rowFor 0b0110011 f3 (f7.getLsbD 5) (f7.getLsbD 0) = some (Row.op f3 b30 b25 f7 mk op)) :
    request op = none := by
  rwa [decodeControl_encR hrow (by decide)] at h

/-- EX and then MEM on the word of an instruction that asks no unit do what `exec` does (R7). -/
theorem exec_stageMatches {i : Instr} {s t : State} (pred : Word) (hwf : i.wellFormed = true)
    (hexec : exec i s = .next t) (hrun : t.run = .running)
    (hm : mulRequest (decodeControl (encode i)).ctrl.aluOp = none)
    (hd : divRequest (decodeControl (encode i)).ctrl.aluOp = none) :
    StageMatches s t pred (decodeControl (encode i)) := by
  cases i with
  | lui | auipc => exact upper_stageMatches (fun _ _ _ => rfl) (by decide) ((next_eq ..).mp hexec) (by decide)
  | jal => exact jal_stageMatches hexec hwf
  | jalr => exact jalr_stageMatches hexec
  | beq | bne | blt | bge | bltu | bgeu =>
    exact branch_stageMatches (fun _ _ => rfl) hexec hwf (by decide) (by decide)
  | lb | lh | lw | lbu | lhu => exact load_stageMatches (fun _ _ => rfl) hexec
  | sb rs2 rs1 imm =>
    refine store_stageMatches (fun _ _ => rfl) hexec fun h => ?_
    obtain ⟨rfl, rfl, rfl, -⟩ := encS_eq_haltReserved h
    exact absurd hwf (by decide)
  | sh | sw =>
    refine store_stageMatches (fun _ _ => rfl) hexec fun h => ?_
    obtain ⟨-, -, -, hf3⟩ := encS_eq_haltReserved h
    exact absurd hf3 (by decide)
  | addi | slti | sltiu | xori | ori | andi => exact opImm_stageMatches (fun _ _ => rfl) hexec rfl rfl
  | slli | srli | srai => exact shift_stageMatches rfl hexec (by decide) rfl rfl
  | add | sub | sll | slt | sltu | xor | srl | sra | or | and => exact op_stageMatches rfl hexec rfl rfl
  | mul | mulh | mulhsu | mulhu => exact nomatch op_request mulRequest hm rfl
  | div | divu | rem | remu => exact nomatch op_request divRequest hd rfl
  | ecall | ebreak | haltSb => cases hexec; cases hrun
  | nop => cases hexec; exact nop_stageMatches
  | zeroWord => cases hexec; exact decodeControl_zero ▸ nop_stageMatches

/-- Settles O53, by the form of the instruction: EX's output and MEM's packet are read off `StageMatches`. -/
theorem executeStageMatchesExec : Obligations.ExecuteStageMatchesExec := by
  intro i s t pred hwf hexec hrun d x o inMem w hm hd
  obtain ⟨⟨v, hem⟩, hhalt, hdmem, hpred, hregs, hredirect, hnext⟩ := exec_stageMatches pred hwf hexec hrun hm hd
  have ho : o.em = ExMem.ofControl d.ctrl s.pc v := hem
  have hfault : o.em.fault = none := by rw [ho]; rfl
  have hflag : o.em.haltFlag = false := by rw [ho]; exact hhalt
  have hpc : o.em.pc = s.pc := by rw [ho]; rfl
  have hdest : w.destReg = d.ctrl.destReg := congrArg ExMem.destReg ho
  refine ⟨hfault, hdmem, hpred, hfault, hflag, hpc, rfl, fun r => ?_, hredirect, hnext⟩
  have hwritten : (r = d.ctrl.destReg ∧ d.ctrl.destReg ≠ 0) ↔ (r = w.destReg ∧ r ≠ 0) := by
    rw [hdest]
    exact and_congr_right fun h => by rw [h]
  exact (hregs r).trans (if_congr hwritten rfl rfl)

end Sys2Proof.Machine


namespace Sys2Proof.Machine

/-! ### The sequential invariant (R31, R39, R77, R205, R222) -/

/-- The next word's address is a multiple of 4 where the PC is (R37, R39). -/
theorem Aligned.add_four {p : Word} (h : Aligned p) : Aligned (p + 4) := by
  unfold Aligned at *
  rw [BitVec.toNat_add]
  change (_ + 4) % _ % _ = _
  omega

/-- A transfer whose taken target is a multiple of 4 resolves to a multiple of 4 (R203, R205). -/
theorem Aligned.resolvedNext {p target : Word} {taken : Bool} (h : Aligned p) (ht : taken = true → Aligned target) :
    Aligned (resolvedNext taken p target) := by
  unfold Sys2Proof.Machine.resolvedNext
  split
  · exact ht ‹_›
  · exact h.add_four

/-- Writing back and going on keeps the invariant (R31, R37). -/
theorem Inv.retire {s : State} (h : Inv s) (rd : Reg) (v : Word) : Inv (s.retire rd v) where
  imemWf := by simpa using h.imemWf
  dmemWf := by simpa using h.dmemWf
  imemBelow := by simpa using h.imemBelow
  dmemBelow := by simpa using h.dmemBelow
  zeroReg := State.writeReg_zeroReg s rd v h.zeroReg
  pcAligned := by simpa using h.pcAligned.add_four
  predictor := by simpa using h.predictor

/-- A transfer to a legal target keeps the invariant (R205, R222). -/
theorem Inv.transferred {s : State} (h : Inv s) (rd : Reg) {taken : Bool} {target : Word}
    (ht : taken = true → Aligned target) : Inv (s.transferred rd taken target) where
  imemWf := by simpa [State.transferred] using h.imemWf
  dmemWf := by simpa [State.transferred] using h.dmemWf
  imemBelow := by simpa [State.transferred] using h.imemBelow
  dmemBelow := by simpa [State.transferred] using h.dmemBelow
  zeroReg := State.writeReg_zeroReg s rd (s.pc + 4) h.zeroReg
  pcAligned := h.pcAligned.resolvedNext ht
  predictor := by simpa [State.transferred] using train_inv h.predictor s.pc target taken ht

/-- A store to a legal address keeps every key within the data memory (R256). -/
theorem Memory.below_store {cfg : Config} {pc a : Word} {width : MemWidth} (m : Memory) (v : Word)
    (legal : accessFault cfg pc a width = none) (h : Table.below (4 * cfg.dmemDepth) m = true) :
    Table.below (4 * cfg.dmemDepth) (m.store a width v) = true :=
  Memory.below_storeBytes _ _ _ _ (by rw [storeLanes_length]; exact accessFault_room legal) h

theorem Inv.store {s : State} (h : Inv s) (v : Word) {a : Word} {width : MemWidth}
    (legal : accessFault s.cfg s.pc a width = none) : Inv { s with dmem := s.dmem.store a width v }.advance :=
  { h with
    dmemWf := Memory.wf_store _ _ _ _ h.dmemWf
    dmemBelow := Memory.below_store _ _ legal h.dmemBelow
    pcAligned := h.pcAligned.add_four }

/-- The bytes a halt leaves unspecified lie within the data memory (R88, R256). -/
theorem Inv.halt {s : State} (h : Inv s) : Inv s.halt :=
  { h with
    dmemWf := Memory.wf_forgetAll _ _ _ h.dmemWf
    dmemBelow := Memory.below_forgetAll _ _ _ _ (s.storesBehind_room s.pc) h.dmemBelow }

theorem Inv.advance {s : State} (h : Inv s) : Inv s.advance :=
  { h with pcAligned := h.pcAligned.add_four }

/-- The divider is no part of the sequential invariant. -/
theorem Inv.withDiv {s : State} (h : Inv s) (d : Divider) : Inv { s with div := d } := { h with }

theorem Effect.keeps_inv {s t : State} (h : Inv s) (heffect : Effect s t) : Inv t := by
  cases heffect with
  | retire rd v => exact h.retire rd v
  | divide rd v e => exact (h.retire rd v).withDiv _
  | transfer rd taken target aligned _ => exact h.transferred rd aligned
  | store a v width legal => exact h.store v legal
  | halt => exact h.halt
  | advance => exact h.advance

/-- Settles O55: a step has one of the effects of `Effect`, and each keeps the invariant. -/
theorem stepKeepsInv : Obligations.StepKeepsInv := by
  intro s t hinv hstep
  obtain ⟨-, -, heffect⟩ := step_effect hstep
  exact heffect.keeps_inv hinv

theorem Predictor.reset_inv (cfg : Config) : PredictorInv cfg Predictor.reset where
  btbWf := rfl
  btbEntries := fun _ _ h => nomatch h
  ctrWf := rfl
  localWf := rfl
  globalWf := rfl
  chooserWf := rfl
  ctrBelow := rfl
  localBelow := rfl
  globalBelow := rfl
  chooserBelow := rfl
  ghrBound := Nat.two_pow_pos _

/-- Settles O54: the tables are empty at reset, x0's entry is 0, and so is the PC. -/
theorem resetSatisfiesInv : Obligations.ResetSatisfiesInv where
  imemWf := rfl
  dmemWf := rfl
  imemBelow := rfl
  dmemBelow := rfl
  zeroReg := rfl
  pcAligned := rfl
  predictor := Predictor.reset_inv _

/-- Settles O56: every latch is a bubble or 0 at reset, and both units are idle. -/
theorem resetSatisfiesPipeInv : Obligations.ResetSatisfiesPipeInv where
  toInv := resetSatisfiesInv
  prevAligned := rfl
  ifidAligned := rfl
  savedAligned := rfl
  deAligned := rfl
  emAligned := rfl
  mwAligned := rfl
  btAligned := rfl
  stallNoFlush := fun _ => rfl
  deControl := ⟨nofun, nofun, fun h => absurd rfl h, fun h => absurd rfl h⟩
  deMarked := fun h => absurd rfl h
  emInert := fun _ => ⟨rfl, rfl⟩
  emStoreDest := fun _ => rfl
  emAccess := fun h => absurd rfl h
  mwInert := fun _ => rfl
  mulBusy := by decide
  mulReady := by decide
  mulHeld := nofun
  divHeld := fun h => absurd rfl h
  divCount := nofun

/-! ### Immediates (R103, R104, R106) -/

theorem upper20_toNat (imm : BitVec 20) : (upper20 imm).toNat = imm.toNat * 2 ^ 12 := by
  rw [upper20, append_toNat, BitVec.toNat_ofNat, Nat.zero_mod, Nat.add_zero]

theorem sext12_toInt (imm : BitVec 12) : (sext12 imm).toInt = imm.toInt := BitVec.toInt_signExtend_of_le (by decide)

/-- A word read as unsigned is its signed value modulo 2^32 (R11). -/
theorem toNat_eq_toInt_emod (v : Word) : (v.toNat : Int) = v.toInt % 2 ^ 32 := by
  have := v.isLt
  rw [BitVec.toInt_eq_toNat_cond]
  split <;> omega

/-- The sign bit of the field stands for every bit above it. -/
theorem sext12_getLsbD (imm : BitVec 12) {k : Nat} (hk : k < 32) :
    (sext12 imm).getLsbD k = imm.getLsbD (min k 11) := by
  rw [sext12, BitVec.getLsbD_signExtend]
  by_cases h : k < 12
  · simp [h, hk, Nat.min_eq_left (by omega : k ≤ 11)]
  · simp [h, hk, Nat.min_eq_right (by omega : 11 ≤ k), BitVec.msb_eq_getLsbD_last]

theorem shiftAmount_shamtOperand (shamt : BitVec 5) : shiftAmount (shamtOperand shamt) = shamt.toNat := by
  have := shamt.isLt
  rw [shiftAmount_eq, shamtOperand, BitVec.toNat_setWidth]
  omega

/-! ### The ALU functions as arithmetic (R161) -/

theorem aluFn_add_toNat (a b : Word) : (aluFn .add a b).toNat = (a.toNat + b.toNat) % 2 ^ 32 := BitVec.toNat_add a b

theorem aluFn_sub_toNat (a b : Word) : ((aluFn .sub a b).toNat : Int) = ((a.toNat : Int) - b.toNat) % 2 ^ 32 := by
  have := a.isLt
  have := b.isLt
  rw [aluFn, BitVec.toNat_sub]
  omega

theorem aluFn_slt_eq (a b : Word) : aluFn .slt a b = if a.toInt < b.toInt then 1 else 0 := by
  simp [aluFn, boolWord, lessSigned]

theorem aluFn_sltu_eq (a b : Word) : aluFn .sltu a b = if a.toNat < b.toNat then 1 else 0 := by
  simp [aluFn, boolWord, lessUnsigned]

theorem aluFn_sll_toNat (a b : Word) : (aluFn .sll a b).toNat = a.toNat * 2 ^ shiftAmount b % 2 ^ 32 := by
  rw [aluFn, BitVec.toNat_shiftLeft, Nat.shiftLeft_eq]

theorem aluFn_srl_toNat (a b : Word) : (aluFn .srl a b).toNat = a.toNat / 2 ^ shiftAmount b := by
  rw [aluFn, BitVec.toNat_ushiftRight, Nat.shiftRight_eq_div_pow]

theorem aluFn_sra_toInt (a b : Word) : (aluFn .sra a b).toInt = a.toInt / 2 ^ shiftAmount b := by
  rw [aluFn, BitVec.toInt_sshiftRight, Int.shiftRight_eq_div_pow]
  norm_cast

theorem aluFn_xor_getLsbD (a b : Word) (k : Nat) : (aluFn .xor a b).getLsbD k = (a.getLsbD k != b.getLsbD k) :=
  BitVec.getLsbD_xor

theorem aluFn_or_getLsbD (a b : Word) (k : Nat) : (aluFn .or a b).getLsbD k = (a.getLsbD k || b.getLsbD k) :=
  BitVec.getLsbD_or

theorem aluFn_and_getLsbD (a b : Word) (k : Nat) : (aluFn .and a b).getLsbD k = (a.getLsbD k && b.getLsbD k) :=
  BitVec.getLsbD_and

/-! ### From a shared operation to the claim about an instruction -/

/-- An instruction of a register and an operand completes with the ALU's result (R162). -/
theorem ImmediateForm.of_aluImm {n : Nat} {mk : Reg → Reg → BitVec n → Instr} {op : AluOp} {operand : BitVec n → Word}
    {rel : Word → BitVec n → Word → Prop}
    (hexec : ∀ rd rs1 imm s, exec (mk rd rs1 imm) s = s.aluImm op rd rs1 (operand imm))
    (hrel : ∀ a imm, rel a imm (aluFn op a (operand imm))) : ImmediateForm mk rel :=
  fun _ _ _ _ h1 =>
    ⟨_, _, (hexec ..).trans ((aluImm_next ..).mpr ⟨h1, rfl⟩), retire_retires .., hrel ..⟩

/-- An instruction of two registers completes with the ALU's result (R162). -/
theorem RegisterForm.of_aluReg {mk : Reg → Reg → Reg → Instr} {op : AluOp} {rel : Word → Word → Word → Prop}
    (hexec : ∀ rd rs1 rs2 s, exec (mk rd rs1 rs2) s = s.aluReg op rd rs1 rs2)
    (hrel : ∀ a b, rel a b (aluFn op a b)) : RegisterForm mk rel :=
  fun _ _ _ _ h1 h2 =>
    ⟨_, _, (hexec ..).trans ((aluReg_next ..).mpr ⟨⟨h1, h2⟩, rfl⟩), retire_retires .., hrel ..⟩

/-! ### The integer computational instructions (41_integer_computational.md) -/

/-- Settles O12: neither reads a source, so both retire in every state. -/
theorem upperImmediateResults : Obligations.UpperImmediateResults := by
  intro s rd imm
  constructor
  · refine ⟨_, _, rfl, retire_retires .., ?_⟩
    have := imm.isLt
    rw [aluFn_add_toNat, upper20_toNat, show (0 : Word).toNat = 0 from rfl]
    omega
  · refine ⟨_, _, rfl, retire_retires .., ?_⟩
    rw [aluFn_add_toNat, upper20_toNat]

/-- Settles O13: the immediate's signed value survives its extension, and its unsigned one is that modulo 2^32. -/
theorem addAndCompareImmediateResults : Obligations.AddAndCompareImmediateResults := by
  have hunsigned (imm : BitVec 12) : ((sext12 imm).toNat : Int) = imm.toInt % 2 ^ 32 := by
    rw [toNat_eq_toInt_emod, sext12_toInt]
  refine ⟨.of_aluImm (fun _ _ _ _ => rfl) fun a imm => ?_, .of_aluImm (fun _ _ _ _ => rfl) fun a imm => ?_,
    .of_aluImm (fun _ _ _ _ => rfl) fun a imm => ?_⟩
  · rw [aluFn_add_toNat, Int.natCast_emod, Nat.cast_add, hunsigned]
    omega
  · rw [aluFn_slt_eq, sext12_toInt]
  · rw [aluFn_sltu_eq, ← hunsigned]
    simp only [Nat.cast_lt]

/-- Settles O14: each bit of the extended immediate is the field's, with bit 11 above it. -/
theorem logicImmediateResults : Obligations.LogicImmediateResults := by
  refine ⟨.of_aluImm (fun _ _ _ _ => rfl) fun a imm k hk => ?_, .of_aluImm (fun _ _ _ _ => rfl) fun a imm k hk => ?_,
    .of_aluImm (fun _ _ _ _ => rfl) fun a imm k hk => ?_⟩
  · rw [aluFn_xor_getLsbD, sext12_getLsbD imm hk]
  · rw [aluFn_or_getLsbD, sext12_getLsbD imm hk]
  · rw [aluFn_and_getLsbD, sext12_getLsbD imm hk]

/-- Settles O15: the shifter's amount is the 5-bit field. -/
theorem shiftImmediateResults : Obligations.ShiftImmediateResults := by
  refine ⟨.of_aluImm (fun _ _ _ _ => rfl) fun a sh => ?_, .of_aluImm (fun _ _ _ _ => rfl) fun a sh => ?_,
    .of_aluImm (fun _ _ _ _ => rfl) fun a sh => ?_⟩
  · rw [aluFn_sll_toNat, shiftAmount_shamtOperand]
  · rw [aluFn_srl_toNat, shiftAmount_shamtOperand]
  · rw [aluFn_sra_toInt, shiftAmount_shamtOperand]

/-- Settles O16, by the ALU functions' values. -/
theorem addAndCompareRegisterResults : Obligations.AddAndCompareRegisterResults :=
  ⟨.of_aluReg (fun _ _ _ _ => rfl) aluFn_add_toNat, .of_aluReg (fun _ _ _ _ => rfl) aluFn_sub_toNat,
    .of_aluReg (fun _ _ _ _ => rfl) aluFn_slt_eq, .of_aluReg (fun _ _ _ _ => rfl) aluFn_sltu_eq⟩

/-- Settles O17, by the ALU functions' bits. -/
theorem logicRegisterResults : Obligations.LogicRegisterResults :=
  ⟨.of_aluReg (fun _ _ _ _ => rfl) aluFn_xor_getLsbD, .of_aluReg (fun _ _ _ _ => rfl) aluFn_or_getLsbD,
    .of_aluReg (fun _ _ _ _ => rfl) aluFn_and_getLsbD⟩

/-- Settles O18: the shifter's amount is the register's value modulo 32. -/
theorem shiftRegisterResults : Obligations.ShiftRegisterResults := by
  refine ⟨.of_aluReg (fun _ _ _ _ => rfl) fun a b => ?_, .of_aluReg (fun _ _ _ _ => rfl) fun a b => ?_,
    .of_aluReg (fun _ _ _ _ => rfl) fun a b => ?_⟩
  · simp only [aluFn_sll_toNat, shiftAmount_eq, Nat.reducePow]
  · simp only [aluFn_srl_toNat, shiftAmount_eq, Nat.reducePow]
  · simp only [aluFn_sra_toInt, shiftAmount_eq, Nat.reducePow]

/-! ### Multiplies (R280) -/

/-- A multiply completes with the multiplier's result (R280, R281). -/
theorem RegisterForm.of_mulOp {mk : Reg → Reg → Reg → Instr} {q : MulRequest} {rel : Word → Word → Word → Prop}
    (hexec : ∀ rd rs1 rs2 s, exec (mk rd rs1 rs2) s = s.mulOp q rd rs1 rs2)
    (hrel : ∀ a b, rel a b (mulResult q a b)) : RegisterForm mk rel :=
  fun _ _ _ _ h1 h2 =>
    ⟨_, _, (hexec ..).trans ((mulOp_next ..).mpr ⟨⟨h1, h2⟩, rfl⟩), retire_retires .., hrel ..⟩

/-- The integer an operand of a multiply stands for (R280). -/
def mulOperand (isSigned : Bool) (v : Word) : Int := if isSigned then v.toInt else v.toNat

theorem mulOperand_signed (v : Word) : mulOperand true v = v.toInt := rfl

theorem mulOperand_unsigned (v : Word) : mulOperand false v = v.toNat := rfl

theorem extend64_unsigned_toNat (v : Word) : (extend64 false v).toNat = v.toNat := by
  rw [extend64, if_neg Bool.false_ne_true, BitVec.toNat_setWidth_of_le (by decide)]

/-- An operand keeps its value in 64 bits. -/
theorem extend64_toInt (isSigned : Bool) (v : Word) : (extend64 isSigned v).toInt = mulOperand isSigned v := by
  have := v.isLt
  cases isSigned with
  | true => exact BitVec.toInt_signExtend_of_le (by decide)
  | false =>
    have hv := extend64_unsigned_toNat v
    rw [BitVec.toInt_eq_toNat_of_lt (by omega), hv, mulOperand_unsigned]

theorem mulOperand_bounds (isSigned : Bool) (v : Word) : |mulOperand isSigned v| ≤ 2 ^ 32 - 1 := by
  have := v.isLt
  have := BitVec.le_toInt v
  have := BitVec.toInt_lt (x := v)
  rw [abs_le]
  cases isSigned with
  | true => rw [mulOperand_signed]; omega
  | false => rw [mulOperand_unsigned]; omega

/-- A product with a signed operand needs no more than 64 bits. -/
theorem mulProduct_toInt (bSigned : Bool) (a b : Word) :
    (mulProduct true bSigned a b).toInt = a.toInt * mulOperand bSigned b := by
  have ha : |a.toInt| ≤ 2 ^ 31 := by
    rw [abs_le]
    exact ⟨BitVec.le_toInt a, BitVec.toInt_lt.le⟩
  have hab : |a.toInt * mulOperand bSigned b| ≤ 2 ^ 31 * (2 ^ 32 - 1) := by
    rw [abs_mul]
    exact mul_le_mul ha (mulOperand_bounds ..) (abs_nonneg _) (by decide)
  rw [abs_le] at hab
  rw [mulProduct, BitVec.toInt_mul, extend64_toInt, extend64_toInt, mulOperand_signed]
  exact Int.bmod_eq_of_le (by norm_num at hab ⊢; omega) (by norm_num at hab ⊢; omega)

/-- The product of two unsigned operands, as an unsigned number. -/
theorem mulProduct_toNat (a b : Word) : (mulProduct false false a b).toNat = a.toNat * b.toNat := by
  have hlt : a.toNat * b.toNat < 2 ^ 32 * 2 ^ 32 := Nat.mul_lt_mul'' a.isLt b.isLt
  rw [mulProduct, BitVec.toNat_mul, extend64_unsigned_toNat, extend64_unsigned_toNat, Nat.mod_eq_of_lt (by omega)]

/-- The high half of a product, read as signed (R280). -/
theorem mulHalf_high_toInt (p : BitVec 64) : (mulHalf true p).toInt = p.toInt / 2 ^ 32 := by
  have hp := p.isLt
  have hhigh : (mulHalf true p).toNat = p.toNat / 2 ^ 32 % 2 ^ 32 := extract_toNat ..
  rw [BitVec.toInt_eq_toNat_cond, BitVec.toInt_eq_toNat_cond, hhigh]
  split <;> split <;> omega

theorem mulHalf_high_toNat (p : BitVec 64) : (mulHalf true p).toNat = p.toNat / 2 ^ 32 := by
  have hp := p.isLt
  have hhigh : (mulHalf true p).toNat = p.toNat / 2 ^ 32 % 2 ^ 32 := extract_toNat ..
  omega

theorem mulHalf_low_toNat (p : BitVec 64) : (mulHalf false p).toNat = p.toNat % 2 ^ 32 := by
  have hlow : (mulHalf false p).toNat = p.toNat / 2 ^ 0 % 2 ^ 32 := extract_toNat ..
  omega

/-- Settles O19: the product is exact in 64 bits, and each half is read off it. -/
theorem multiplyResults : Obligations.MultiplyResults := by
  refine ⟨.of_mulOp (fun _ _ _ _ => rfl) fun a b => ?_, .of_mulOp (fun _ _ _ _ => rfl) fun a b => ?_,
    .of_mulOp (fun _ _ _ _ => rfl) fun a b => ?_, .of_mulOp (fun _ _ _ _ => rfl) fun a b => ?_⟩
  · rw [mulResult, mulHalf_low_toNat, mulProduct_toNat]
  · rw [mulResult, mulHalf_high_toInt, mulProduct_toInt, mulOperand_signed]
  · rw [mulResult, mulHalf_high_toInt, mulProduct_toInt, mulOperand_unsigned]
  · rw [mulResult, mulHalf_high_toNat, mulProduct_toNat]

/-! ### Divides (R300, R301) -/

/-- A divide completes with the result table's entry and the error flag (R300, R301). -/
theorem DivideForm.of_divOp {mk : Reg → Reg → Reg → Instr} {q : DivRequest} {rel : Word → Word → Word → Prop}
    {err : Word → Word → Prop} (hexec : ∀ rd rs1 rs2 s, exec (mk rd rs1 rs2) s = s.divOp q rd rs1 rs2)
    (hrel : ∀ n d, rel n d (divResult q n d)) (herr : ∀ n d, divError q.isSigned n d = true ↔ err n d) :
    DivideForm mk rel err :=
  fun _ _ _ _ h1 h2 =>
    ⟨_, _, _, (hexec ..).trans ((divOp_next ..).mpr ⟨⟨h1, h2⟩, rfl⟩), retire_divides .., hrel .., herr ..⟩

theorem divOverflow_signed (n d : Word) :
    divOverflow true n d = true ↔ n = 0x80000000 ∧ d = 0xFFFFFFFF := by
  simp [divOverflow, intMin]

theorem divError_signed (n d : Word) :
    divError true n d = true ↔ d = 0 ∨ n = 0x80000000 ∧ d = 0xFFFFFFFF := by
  rw [divError, Bool.or_eq_true, divOverflow_signed, beq_iff_eq]

theorem divError_unsigned (n d : Word) : divError false n d = true ↔ d = 0 := by
  simp [divError, divOverflow]

/-- Outside the special cases the quotient truncated toward 0 fits a word. -/
theorem quotSigned_toInt {n d : Word} (hd : d ≠ 0) (ho : ¬(n = 0x80000000 ∧ d = 0xFFFFFFFF)) :
    (quotSigned n d).toInt = n.toInt.tdiv d.toInt := by
  have hne : n ≠ BitVec.intMin 32 ∨ d ≠ -1#32 := not_and_or.mp ho
  rw [quotSigned, if_neg hd, if_neg (mt (divOverflow_signed n d).mp ho), BitVec.toInt_ofInt, ← BitVec.toInt_sdiv,
    BitVec.toInt_sdiv_of_ne_or_ne n d hne]

/-- Outside the special cases the remainder has the dividend's sign. -/
theorem remSigned_toInt {n d : Word} (hd : d ≠ 0) (ho : ¬(n = 0x80000000 ∧ d = 0xFFFFFFFF)) :
    (remSigned n d).toInt = n.toInt.tmod d.toInt := by
  rw [remSigned, if_neg hd, if_neg (mt (divOverflow_signed n d).mp ho), ← Int.tmod_def, ← BitVec.toInt_srem,
    BitVec.ofInt_toInt]

theorem quotUnsigned_toNat {n d : Word} (hd : d ≠ 0) : (quotUnsigned n d).toNat = n.toNat / d.toNat := by
  have := Nat.div_le_self n.toNat d.toNat
  have := n.isLt
  rw [quotUnsigned, if_neg hd, BitVec.toNat_ofNat, Nat.mod_eq_of_lt (by omega)]

theorem remUnsigned_toNat {n d : Word} (hd : d ≠ 0) : (remUnsigned n d).toNat = n.toNat % d.toNat := by
  have := Nat.mod_le n.toNat d.toNat
  have := n.isLt
  rw [remUnsigned, if_neg hd, BitVec.toNat_ofNat, Nat.mod_eq_of_lt (by omega)]

/-- Settles O20, by the rows of the result table. -/
theorem divideResults : Obligations.DivideResults := by
  refine ⟨.of_divOp (fun _ _ _ _ => rfl) (fun n d => ⟨?_, ?_, quotSigned_toInt⟩) divError_signed,
    .of_divOp (fun _ _ _ _ => rfl) (fun n d => ⟨?_, ?_, remSigned_toInt⟩) divError_signed,
    .of_divOp (fun _ _ _ _ => rfl) (fun n d => ⟨?_, quotUnsigned_toNat⟩) divError_unsigned,
    .of_divOp (fun _ _ _ _ => rfl) (fun n d => ⟨?_, remUnsigned_toNat⟩) divError_unsigned⟩
  · exact fun h => if_pos h
  · rintro rfl rfl
    decide
  · exact fun h => if_pos h
  · rintro rfl rfl
    decide
  · exact fun h => if_pos h
  · exact fun h => if_pos h

/-! ### Jumps (R202 to R204, R207, R208) -/

/-- A taken transfer to a legal target completes (R203 to R206). -/
theorem transfer_taken (s : State) (rd : Reg) {target : Word} (ha : Aligned target) (h0 : target ≠ 0) :
    ∃ t, s.transfer rd true target = .next t ∧ Transfers s t rd true target :=
  ⟨_, (transfer_next ..).mpr ⟨fun _ => ha, h0, rfl⟩, transferred_transfers ..⟩

/-- Settles O25: JALR's target is the even number below the sum. -/
theorem jumpResults : Obligations.JumpResults := by
  constructor
  · intro s rd offset ha h0
    exact transfer_taken s rd ha h0
  · intro s rd rs1 imm target h1 htarget ha h0
    have heq : target = jalrTarget (s.reg rs1) (sext12 imm) :=
      BitVec.eq_of_toNat_eq (htarget.trans (jalrTarget_toNat ..).symm)
    subst heq
    obtain ⟨t, ht, htr⟩ := transfer_taken s rd ha h0
    exact ⟨t, (orFault_next ..).mpr ⟨readFault_held _ _ _ h1, ht⟩, htr⟩

/-! ### Loads (R73, R74, R250, R252) -/

/-- A byte of memory through the word that holds it (R74). -/
theorem Memory.load_byte (m : Memory) (a : Word) (sign : MemSign) :
    m.load a .b sign = extendTo sign (m.byte a.toNat) := by
  rw [Memory.load, loadExtract, Memory.wordAt, Memory.word_lane _ _ _ (by omega), Nat.div_add_mod]

/-- An aligned halfword of memory through the word that holds it (R74). -/
theorem Memory.load_half (m : Memory) {a : Word} (ha : a.toNat % 2 = 0) (sign : MemSign) :
    m.load a .h sign = extendTo sign (m.byte (a.toNat + 1) ++ m.byte a.toNat) := by
  rw [Memory.load, loadExtract, Memory.wordAt, Memory.word_half _ _ _ (by omega),
    show 4 * (a.toNat / 4) + 2 * (a.toNat / 2 % 2) = a.toNat by omega]

/-- An aligned word of memory (R74). -/
theorem Memory.load_word (m : Memory) {a : Word} (ha : a.toNat % 4 = 0) (sign : MemSign) :
    m.load a .w sign =
      m.byte (a.toNat + 3) ++ m.byte (a.toNat + 2) ++ m.byte (a.toNat + 1) ++ m.byte a.toNat := by
  rw [Memory.load, loadExtract, Memory.wordAt, Memory.word, show 4 * (a.toNat / 4) = a.toNat by omega]

/-- A load at a legal address completes with the bytes there (R250, R256). -/
theorem LoadForm.of_loadOp {mk : Reg → Reg → BitVec 12 → Instr} {width : MemWidth} {sign : MemSign}
    {value : (Nat → Byte) → Nat → Word}
    (hexec : ∀ rd rs1 imm s, exec (mk rd rs1 imm) s = s.loadOp width sign rd rs1 imm)
    (hvalue : ∀ (m : Memory) (a : Word), a.toNat % widthBytes width = 0 → m.load a width sign = value m.byte a.toNat) :
    LoadForm mk (widthBytes width) value := by
  intro s rd rs1 imm h1 halign hrange
  have haccess : accessFault s.cfg s.pc (s.reg rs1 + sext12 imm) width = none :=
    (accessFault_eq_none ..).mpr ⟨halign, hrange⟩
  refine ⟨_, (hexec ..).trans ((loadOp_next ..).mpr ⟨h1, haccess, rfl⟩), ?_⟩
  rw [← hvalue _ _ halign]
  exact retire_retires ..

/-- Settles O28: the lanes of the word that holds the address are the bytes there. -/
theorem loadResults : Obligations.LoadResults :=
  ⟨.of_loadOp (width := .b) (fun _ _ _ _ => rfl) fun m a _ => m.load_byte a .s,
    .of_loadOp (width := .b) (fun _ _ _ _ => rfl) fun m a _ => m.load_byte a .u,
    .of_loadOp (width := .h) (fun _ _ _ _ => rfl) fun m _ ha => m.load_half ha .s,
    .of_loadOp (width := .h) (fun _ _ _ _ => rfl) fun m _ ha => m.load_half ha .u,
    .of_loadOp (width := .w) (fun _ _ _ _ => rfl) fun m _ ha => m.load_word ha .s⟩

/-! ### Registers that hold no value (R35, R134, R352, R357) -/

/-- Settles O36: every instruction with a used source checks its sources before anything else. -/
theorem unwrittenSourceFaults : Obligations.UnwrittenSourceFaults := by
  intro s rd rs1 rs2 imm sh offset
  constructor
  · intro h i hi
    obtain ⟨o, ho⟩ : ∃ o, exec i s = orFault (s.readFault s.pc rs1) o := by
      fin_cases hi <;> exact ⟨_, rfl⟩
    rw [ho, readFault_unheld _ _ _ h, orFault_some]
  · intro h i hi
    obtain ⟨o, ho⟩ : ∃ o, exec i s = orFault (s.readFault2 s.pc rs1 rs2) o := by
      fin_cases hi <;> exact ⟨_, rfl⟩
    rw [ho, readFault2_unheld _ _ _ _ h, orFault_some]

/-- An outcome that is no fault of reading a register that holds no value. -/
def NoReadFault (o : Host.Outcome State Fault Refusal) : Prop :=
  ∀ pc r, o ≠ .fault (.uninitialisedRead pc r)

theorem noReadFault_next (t : State) : NoReadFault (.next t) := nofun

theorem noReadFault_orFault {check : Option Fault} {o : Host.Outcome State Fault Refusal}
    (hcheck : ∀ pc r, check ≠ some (.uninitialisedRead pc r)) (ho : NoReadFault o) : NoReadFault (orFault check o) := by
  intro pc r h
  cases check with
  | none => exact ho pc r h
  | some f =>
    cases h
    exact hcheck pc r rfl

theorem noReadFault_access {cfg : Config} {pc a : Word} {width : MemWidth} {o : Host.Outcome State Fault Refusal}
    (ho : NoReadFault o) : NoReadFault (orFault (accessFault cfg pc a width) o) := by
  refine noReadFault_orFault (fun pc' r => ?_) ho
  unfold accessFault
  split
  · nofun
  · split <;> nofun

theorem fetchFault_ne_read (cfg : Config) (pc pc' : Word) (r : Reg) :
    fetchFault cfg pc ≠ some (.uninitialisedRead pc' r) := by
  unfold fetchFault
  split <;> nofun

theorem strictFault_ne_read (cfg : Config) (pc w pc' : Word) (r : Reg) :
    strictFault cfg pc w ≠ some (.uninitialisedRead pc' r) := by
  unfold strictFault
  split <;> nofun

theorem transfer_noReadFault (s : State) (rd : Reg) (taken : Bool) (target : Word) :
    NoReadFault (s.transfer rd taken target) := by
  unfold State.transfer
  split
  · nofun
  · split <;> nofun

section AllHeld

variable {s : State} (hs : AllHeld s)

include hs

theorem AllHeld.readFault (pc : Word) (r : Reg) : s.readFault pc r = none := readFault_held s pc r (hs r)

/-- An instruction's check of one source passes, and what is left decides. -/
theorem AllHeld.noReadFault_source {pc : Word} {r : Reg} {o : Host.Outcome State Fault Refusal} (ho : NoReadFault o) :
    NoReadFault (orFault (s.readFault pc r) o) := by
  rwa [hs.readFault]

/-- An instruction's check of two sources passes, and what is left decides. -/
theorem AllHeld.noReadFault_sources {pc : Word} {r q : Reg} {o : Host.Outcome State Fault Refusal}
    (ho : NoReadFault o) : NoReadFault (orFault (s.readFault2 pc r q) o) := by
  rwa [readFault2_held s pc r q (hs r) (hs q)]

/-- Where every register holds a value, no instruction faults on a read. -/
theorem AllHeld.exec_noReadFault (i : Instr) : NoReadFault (exec i s) := by
  cases i with
  | lui | auipc | ecall | ebreak | haltSb | nop | zeroWord => exact noReadFault_next _
  | jal => exact transfer_noReadFault _ _ _ _
  | jalr => exact hs.noReadFault_source (transfer_noReadFault _ _ _ _)
  | beq | bne | blt | bge | bltu | bgeu => exact hs.noReadFault_sources (transfer_noReadFault _ _ _ _)
  | lb | lh | lw | lbu | lhu => exact hs.noReadFault_source (noReadFault_access (noReadFault_next _))
  | sb | sh | sw => exact hs.noReadFault_sources (noReadFault_access (noReadFault_next _))
  | addi | slti | sltiu | xori | ori | andi | slli | srli | srai =>
    exact hs.noReadFault_source (noReadFault_next _)
  | add | sub | sll | slt | sltu | xor | srl | sra | or | and | mul | mulh | mulhsu | mulhu | div | divu | rem | remu =>
    exact hs.noReadFault_sources (noReadFault_next _)

theorem AllHeld.runDecoded_noReadFault (d : Decoded) : NoReadFault (runDecoded d s) := by
  cases d with
  | instr i => exact hs.exec_noReadFault i
  | noRow w => exact noReadFault_next _

theorem AllHeld.step_noReadFault (hrun : s.run = .running) : NoReadFault (step s) := by
  rw [step, sequentialStep, hrun]
  exact noReadFault_orFault (fetchFault_ne_read _ _)
    (noReadFault_orFault (strictFault_ne_read _ _ _) (hs.runDecoded_noReadFault _))

theorem AllHeld.sourceFault (pc : Word) (r : Reg) (used : Bool) : s.sourceFault pc r used = none := by
  unfold State.sourceFault
  split
  · exact hs.readFault pc r
  · rfl

/-- The decode stage marks no word for a read, where IF has not marked it (R354, R357). -/
theorem AllHeld.decodeFault_ne_read {p : FetchPacket} (hp : p.fault = none) (pc : Word) (r : Reg) :
    s.decodeFault p ≠ some (.uninitialisedRead pc r) := by
  simp only [State.decodeFault, hp, hs.sourceFault]
  split
  · next hstrict =>
    rw [← hstrict]
    exact strictFault_ne_read _ _ _ _ _
  · nofun

theorem AllHeld.writeReg (rd : Reg) (v : Word) : AllHeld (s.writeReg rd v) := fun r => by
  rw [State.holds_writeReg, hs r, Bool.true_or]

theorem AllHeld.of_effect {t : State} (h : Effect s t) : AllHeld t := by
  cases h with
  | retire rd v => exact hs.writeReg rd v
  | divide rd v e => exact hs.writeReg rd v
  | transfer rd taken target => exact hs.writeReg rd (s.pc + 4)
  | store | halt | advance => exact hs

theorem AllHeld.of_cycle {t : State} (h : cycle s = .next t) : AllHeld t := by
  obtain ⟨-, -, ⟨-, rfl⟩ | ⟨-, rfl⟩⟩ := cycle_next h
  · exact hs
  · exact hs.writeReg s.pipe.mw.destReg s.pipe.mw.value

end AllHeld

/-- Settles O37: no step and no cycle takes a register's value away, and a read of one that holds a value is no fault. -/
theorem heldRegistersStayHeld : Obligations.HeldRegistersStayHeld := by
  have hreset : ∀ r : Reg, State.reset.holds r = true := by decide
  refine ⟨hreset, ?_, fun s t hs h => hs.of_cycle h, ?_⟩
  · intro s t hs h
    obtain ⟨-, -, heffect⟩ := step_effect h
    exact hs.of_effect heffect
  · intro s pc r hs hrun
    exact ⟨hs.step_noReadFault hrun pc r, fun p hp => hs.decodeFault_ne_read hp pc r⟩

/-! ### A run past its last instruction (R40, R77, R335, R353, R369) -/

/-- A running state whose instruction memory holds only zero words from the PC on, and whose PC cannot wrap (R40). -/
structure ZeroTail (s : State) : Prop where
  run : s.run = .running
  depth : s.cfg.imemDepth ≤ 2 ^ 29
  aligned : Aligned s.pc
  inside : s.pc.toNat / 4 ≤ s.cfg.imemDepth
  zeros : ∀ k, s.pc.toNat / 4 ≤ k → k < s.cfg.imemDepth → s.imem.word k = 0

/-- The state `n` no-ops on (R37). -/
def State.skip (s : State) (n : Nat) : State := { s with pc := s.pc + BitVec.ofNat 32 (4 * n) }

theorem State.skip_zero (s : State) : s.skip 0 = s := by
  rw [State.skip, show s.pc + BitVec.ofNat 32 (4 * 0) = s.pc from BitVec.add_zero _]

theorem State.skip_succ (s : State) (n : Nat) : s.advance.skip n = s.skip (n + 1) := by
  have hpc : s.pc + 4 + BitVec.ofNat 32 (4 * n) = s.pc + BitVec.ofNat 32 (4 * (n + 1)) := by
    rw [BitVec.add_assoc, Nat.mul_succ, Nat.add_comm, BitVec.ofNat_add]
    rfl
  rw [State.skip, State.advance_pc, hpc]
  rfl

section ZeroTail

variable {s : State} (hs : ZeroTail s)

include hs

/-- Over the zero words that are left the PC does not wrap (R40). -/
theorem ZeroTail.skip_pc {n : Nat} (hn : n ≤ s.cfg.imemDepth - s.pc.toNat / 4) :
    (s.skip n).pc.toNat = s.pc.toNat + 4 * n := by
  have := hs.depth
  have := hs.inside
  rw [State.skip, BitVec.toNat_add, BitVec.toNat_ofNat]
  omega

theorem ZeroTail.skip {n : Nat} (hn : n ≤ s.cfg.imemDepth - s.pc.toNat / 4) : ZeroTail (s.skip n) := by
  have hpc := hs.skip_pc hn
  have hcfg : (s.skip n).cfg = s.cfg := rfl
  have hin := hs.inside
  have ha : s.pc.toNat % 4 = 0 := hs.aligned
  exact {
    run := hs.run
    depth := hs.depth
    aligned := by rw [Aligned, hpc]; omega
    inside := by rw [hpc, hcfg]; omega
    zeros := fun k hk hd => hs.zeros k (by omega) hd }

/-- The zero word is a no-op (R335). -/
theorem ZeroTail.step_eq (hlt : s.pc.toNat / 4 < s.cfg.imemDepth) : sequentialStep s = .next s.advance := by
  have hfetch : s.fetch = 0 := hs.zeros _ le_rfl hlt
  have hcanonical : isCanonical 0 = true := by decide
  have hstep : step s = runDecoded (decode s.fetch) s :=
    step_of_checks hs.run hlt fun _ => by rw [hfetch]; exact hcanonical
  rw [hfetch] at hstep
  exact hstep

/-- Behind the last word the fetch is out of range (R77). -/
theorem ZeroTail.step_end (hend : s.pc.toNat / 4 = s.cfg.imemDepth) :
    sequentialStep s = .fault (.fetchOutOfRange (BitVec.ofNat 32 (4 * s.cfg.imemDepth))) := by
  have hpc : s.pc = BitVec.ofNat 32 (4 * s.cfg.imemDepth) := by
    have ha : s.pc.toNat % 4 = 0 := hs.aligned
    rw [← hend, show 4 * (s.pc.toNat / 4) = s.pc.toNat by omega, BitVec.ofNat_toNat, BitVec.setWidth_eq]
  rw [sequentialStep, hs.run]
  simp only [runInstruction, fetchFault, inDepth, hend, lt_irrefl, decide_false, Bool.false_eq_true, if_false,
    orFault_some, ← hpc]

end ZeroTail

theorem runSteps_succ {s : State} (hrun : s.run = .running) (n : Nat) :
    runSteps (n + 1) s = runSteps n (s.conclude (sequentialStep s)) := by
  rw [runSteps, hrun]

/-- A run over `n` of the zero words, and `m` steps more. -/
theorem ZeroTail.runSteps_add (m n : Nat) : ∀ {s : State}, ZeroTail s → n ≤ s.cfg.imemDepth - s.pc.toNat / 4 →
    runSteps (n + m) s = runSteps m (s.skip n) := by
  induction n with
  | zero =>
    intro s _ _
    rw [Nat.zero_add, State.skip_zero]
  | succ n ih =>
    intro s hs hn
    have hone : 1 ≤ s.cfg.imemDepth - s.pc.toNat / 4 := by omega
    have hpc : s.advance.pc.toNat = s.pc.toNat + 4 := hs.skip_pc hone
    have hadvance : ZeroTail s.advance := hs.skip hone
    have hleft : n ≤ s.advance.cfg.imemDepth - s.advance.pc.toNat / 4 := by
      rw [hpc, State.advance_cfg]
      omega
    rw [Nat.succ_add, runSteps_succ hs.run, hs.step_eq (by omega), State.conclude, ih hadvance hleft, State.skip_succ]

/-- Settles O38: the run skips the zero words, and the step behind the last one faults. -/
theorem runPastTheEndFaults : Obligations.RunPastTheEndFaults := by
  intro s hrun hbits ha hin hzeros
  have hs : ZeroTail s := ⟨hrun, Nat.pow_le_pow_right (by decide) hbits, ha, hin, hzeros⟩
  refine ⟨fun n hn => hs.runSteps_add 0 n hn, _, rfl, ?_⟩
  have hskip := hs.skip le_rfl
  have hpc := hs.skip_pc le_rfl
  have hend : (s.skip (s.cfg.imemDepth - s.pc.toNat / 4)).pc.toNat / 4 = s.cfg.imemDepth := by
    rw [hpc]
    omega
  rw [hs.runSteps_add 1 _ le_rfl, runSteps_succ hskip.run, hskip.step_end hend]
  exact ⟨rfl, fun _ => rfl, rfl⟩

/-! ### What changes data memory and the predictor (R43, R70, R75, R88, R218) -/

/-- An instruction that leaves data memory and the predictor alone. -/
def LeavesMemoryAndPredictor (s t : State) : Prop := SameMemory s t ∧ t.predictor = s.predictor

theorem LeavesMemoryAndPredictor.unchanged {s t : State} (h : LeavesMemoryAndPredictor s t) {p : Nat → Prop} {q : Prop} :
    (∀ a, t.dmem.byte a ≠ s.dmem.byte a → p a) ∧ (t.predictor ≠ s.predictor → q) :=
  ⟨fun a ha => absurd (h.1 a) ha, fun hp => absurd h.2 hp⟩

theorem Retires.leaves {s t : State} {rd : Reg} {v : Word} (h : Retires s t rd v) : LeavesMemoryAndPredictor s t :=
  ⟨h.memory, h.predictor⟩

theorem Divides.leaves {s t : State} {rd : Reg} {v : Word} {e : Bool} (h : Divides s t rd v e) :
    LeavesMemoryAndPredictor s t :=
  ⟨h.memory, h.predictor⟩

theorem aluImm_leaves {s t : State} {op : AluOp} {rd rs1 : Reg} {b : Word} (h : s.aluImm op rd rs1 b = .next t) :
    LeavesMemoryAndPredictor s t := by
  obtain ⟨-, rfl⟩ := (aluImm_next ..).mp h
  exact (retire_retires ..).leaves

theorem aluReg_leaves {s t : State} {op : AluOp} {rd rs1 rs2 : Reg} (h : s.aluReg op rd rs1 rs2 = .next t) :
    LeavesMemoryAndPredictor s t := by
  obtain ⟨-, rfl⟩ := (aluReg_next ..).mp h
  exact (retire_retires ..).leaves

theorem mulOp_leaves {s t : State} {q : MulRequest} {rd rs1 rs2 : Reg} (h : s.mulOp q rd rs1 rs2 = .next t) :
    LeavesMemoryAndPredictor s t := by
  obtain ⟨-, rfl⟩ := (mulOp_next ..).mp h
  exact (retire_retires ..).leaves

theorem divOp_leaves {s t : State} {q : DivRequest} {rd rs1 rs2 : Reg} (h : s.divOp q rd rs1 rs2 = .next t) :
    LeavesMemoryAndPredictor s t := by
  obtain ⟨-, rfl⟩ := (divOp_next ..).mp h
  exact (retire_divides ..).leaves

theorem loadOp_leaves {s t : State} {width : MemWidth} {sign : MemSign} {rd rs1 : Reg} {imm : BitVec 12}
    (h : s.loadOp width sign rd rs1 imm = .next t) : LeavesMemoryAndPredictor s t := by
  obtain ⟨-, -, rfl⟩ := (loadOp_next ..).mp h
  exact (retire_retires ..).leaves

/-- A store leaves the predictor alone (R218). -/
theorem storeOp_predictor {s t : State} {width : MemWidth} {rs2 rs1 : Reg} {imm : BitVec 12}
    (h : s.storeOp width rs2 rs1 imm = .next t) : t.predictor = s.predictor := by
  obtain ⟨-, -, rfl⟩ := (storeOp_next ..).mp h
  exact (store_stores ..).predictor

/-- A transfer leaves data memory alone (R70). -/
theorem transfer_sameMemory {s t : State} {rd : Reg} {taken : Bool} {target : Word}
    (h : s.transfer rd taken target = .next t) : SameMemory s t := by
  obtain ⟨-, -, rfl⟩ := (transfer_next ..).mp h
  exact (transferred_transfers ..).memory

/-- A byte that a halt changes is one that a store behind it addresses (R88). -/
theorem Halts.changed {s t : State} (h : Halts s t) {a : Nat} (ha : t.dmem.byte a ≠ s.dmem.byte a) :
    ∃ r ∈ s.storesBehind s.pc, r.1 ≤ a ∧ a < r.1 + r.2 := by
  by_contra hnone
  refine ha (h.memory a fun r hr => ?_)
  by_contra hin
  exact hnone ⟨r, hr, by omega, by omega⟩

/-- Settles O40, by the operation the instruction runs. -/
theorem onlyStoresChangeMemory : Obligations.OnlyStoresChangeMemory := by
  intro s t i h
  cases i with
  | lui | auipc => cases h; exact (retire_retires ..).leaves.unchanged
  | addi | slti | sltiu | xori | ori | andi | slli | srli | srai => exact (aluImm_leaves h).unchanged
  | add | sub | sll | slt | sltu | xor | srl | sra | or | and => exact (aluReg_leaves h).unchanged
  | mul | mulh | mulhsu | mulhu => exact (mulOp_leaves h).unchanged
  | div | divu | rem | remu => exact (divOp_leaves h).unchanged
  | lb | lh | lw | lbu | lhu => exact (loadOp_leaves h).unchanged
  | nop | zeroWord => cases h; exact LeavesMemoryAndPredictor.unchanged ⟨fun _ => rfl, rfl⟩
  | jal rd offset => exact ⟨fun a ha => absurd (transfer_sameMemory h a) ha, fun _ => .inl ⟨rd, offset, rfl⟩⟩
  | jalr rd rs1 imm =>
    have htransfer := ((orFault_next ..).mp h).2
    exact ⟨fun a ha => absurd (transfer_sameMemory htransfer a) ha, fun _ => .inr (.inl ⟨rd, rs1, imm, rfl⟩)⟩
  | beq rs1 rs2 offset | bne rs1 rs2 offset | blt rs1 rs2 offset | bge rs1 rs2 offset | bltu rs1 rs2 offset
  | bgeu rs1 rs2 offset =>
    have htransfer := ((branch_next ..).mp h).2
    exact ⟨fun a ha => absurd (transfer_sameMemory htransfer a) ha,
      fun _ => .inr (.inr ⟨rs1, rs2, offset, by simp⟩)⟩
  | sb rs2 rs1 imm | sh rs2 rs1 imm | sw rs2 rs1 imm =>
    exact ⟨fun _ _ => .inl ⟨rs2, rs1, imm, by simp⟩, fun hp => absurd (storeOp_predictor h) hp⟩
  | ecall | ebreak | haltSb =>
    cases h
    exact ⟨fun _ ha => .inr ⟨by simp, (halt_halts s).changed ha⟩, fun hp => absurd rfl hp⟩

/-! ### The end of a run at the cycle level (R354 to R356, R385) -/

theorem cycle_of_fault {s : State} {f : Fault} (hrun : s.run = .running) (hf : s.pipe.mw.fault = some f) :
    cycle s = .fault f := by
  simp only [cycle, hrun, hf]

theorem cycle_of_halt {s : State} (hrun : s.run = .running) (hf : s.pipe.mw.fault = none)
    (hh : s.pipe.mw.haltFlag = true) : cycle s = .next s.haltCycle := by
  simp only [cycle, hrun, hf, hh, if_true]

theorem cycle_of_clock {s : State} (hrun : s.run = .running) (hf : s.pipe.mw.fault = none)
    (hh : s.pipe.mw.haltFlag = false) : cycle s = .next s.clock := by
  simp only [cycle, hrun, hf, hh, Bool.false_eq_true, if_false]

/-- A byte outside the bytes that a latch's store addresses is outside its access, which is empty for any other packet. -/
theorem ExMem.storeAccess_outside {e : ExMem} {a : Nat}
    (h : e.memOp = .store → a < e.result.toNat ∨ e.result.toNat + widthBytes e.memWidth ≤ a) :
    a < e.storeAccess.1 ∨ e.storeAccess.1 + e.storeAccess.2 ≤ a := by
  unfold ExMem.storeAccess
  cases hop : e.memOp with
  | store => exact h hop
  | none | load => exact Nat.lt_or_ge a e.result.toNat

/-- Settles O52: a halt and a fault in WB leave `haltCycle` but for the run status, and `clock` commits WB alone. -/
theorem haltAndFaultTakeEffectInWriteBack : Obligations.HaltAndFaultTakeEffectInWriteBack := by
  intro s hrun ends
  have hends (status : RunStatus) : ends { s.haltCycle with run := status } status := by
    refine ⟨rfl, rfl, rfl, rfl, fun _ => rfl, s.dump_length, s.dump_reg, fun a hbehind hmem hex => ?_⟩
    refine Memory.byte_forgetAll_outside _ _ _ _ fun r hr => ?_
    obtain rfl | hr := List.mem_cons.mp hr
    · exact ExMem.storeAccess_outside hmem
    · obtain rfl | hr := List.mem_cons.mp hr
      · exact ExMem.storeAccess_outside hex
      · exact hbehind r hr
  refine ⟨fun f hf => ?_, fun hf hh => ⟨_, cycle_of_halt hrun hf hh, hends .halted⟩,
    fun hf hh => ⟨_, cycle_of_clock hrun hf hh, ?_, rfl, fun r => ?_⟩⟩
  · rw [cycle_of_fault hrun hf]
    exact ⟨rfl, hends (.faulted f)⟩
  · exact (State.writeReg_run ..).trans hrun
  · have hzero : (r = s.pipe.mw.destReg ∧ s.pipe.mw.destReg ≠ 0) ↔ (r = s.pipe.mw.destReg ∧ r ≠ 0) :=
      and_congr_right fun h => by rw [h]
    exact (State.reg_writeReg ..).trans (if_congr hzero rfl rfl)

/-! ### Reset (R60, R71) -/

/-- Word `j` of a memory in which words have been placed from word `k` on (R71). -/
theorem Memory.word_placeWords (ws : List Word) : ∀ (m : Memory) (k j : Nat),
    (m.placeWords k ws).word j = if k ≤ j ∧ j < k + ws.length then ws.getD (j - k) 0 else m.word j := by
  induction ws with
  | nil => intro m k j; rw [if_neg (by rw [List.length_nil]; omega)]; rfl
  | cons w rest ih =>
    intro m k j
    rw [Memory.placeWords, ih, Memory.word_storeWord, List.length_cons]
    by_cases hj : j = k
    · subst hj
      rw [if_neg (by omega), if_pos rfl, if_pos (by omega), Nat.sub_self, List.getD_cons_zero]
    · by_cases h : k + 1 ≤ j ∧ j < k + 1 + rest.length
      · rw [if_pos h, if_pos (by omega), show j - k = j - (k + 1) + 1 by omega, List.getD_cons_succ]
      · rw [if_neg h, if_neg hj, if_neg (by omega)]

/-- A memory loaded from an image: word `k` is line `k`, and 0 past the last line (R71). -/
theorem Memory.word_ofWords (ws : List Word) (k : Nat) : (Memory.ofWords ws).word k = ws.getD k 0 := by
  have hempty : Memory.word [] k = 0 := by
    simp only [Memory.word, Memory.byte_nil]
    rfl
  rw [Memory.ofWords, Memory.word_placeWords, hempty]
  by_cases h : k < ws.length
  · rw [if_pos (by omega), Nat.sub_zero]
  · rw [if_neg (by omega), List.getD_eq_default _ _ (by omega)]

section ResetRegisters

variable (cfg : Config) (rf : RfInit) (imem dmem : Memory) (r : Reg)

/-- Every register reads as 0 at reset: its value under `RF_INIT = ZERO`, a filler under UNDEFINED (R35). -/
theorem State.reg_resetWith : (State.resetWith cfg rf imem dmem).reg r = 0 := by
  simp [State.reg, State.resetWith]

/-- Which registers hold a value at reset (R35). -/
theorem State.holds_resetWith (hr : r ≠ 0) : (State.resetWith cfg rf imem dmem).holds r = true ↔ rf = .zero := by
  rw [State.holds, if_neg hr]
  simp [State.resetWith]

end ResetRegisters

/-- Settles O41: every field as R60 gives it, the memories by the words placed in them. -/
theorem resetValues : Obligations.ResetValues := by
  intro cfg rf iwords dwords s
  have hregs : ∀ r, s.reg r = 0 := State.reg_resetWith cfg rf _ _
  have hholds : ∀ r : Reg, r ≠ 0 → (s.holds r = true ↔ rf = .zero) := State.holds_resetWith cfg rf _ _
  have hwords : ∀ k, s.imem.word k = iwords.getD k 0 ∧ s.dmem.word k = dwords.getD k 0 :=
    fun k => ⟨Memory.word_ofWords iwords k, Memory.word_ofWords dwords k⟩
  exact ⟨rfl, hregs 0, hholds, fun _ => hregs, rfl, rfl, rfl, rfl, rfl, rfl, rfl, rfl, rfl, rfl, rfl, rfl, rfl, rfl, rfl,
    rfl, rfl, rfl, fun _ => rfl, rfl, fun _ => ⟨rfl, rfl, rfl, rfl⟩, rfl, rfl, rfl, rfl, rfl, hwords, rfl⟩

end Sys2Proof.Machine

namespace Sys2Proof.Machine

/-! ### Images and the halt log's text (R71, R356) -/

/-- Settles O59, by the words placed one after the other. -/
theorem imageWordsLoad : Obligations.ImageWordsLoad := fun ws k =>
  ⟨Memory.word_ofWords ws k, Memory.wf_placeWords ws [] 0 Memory.wf_nil⟩

/-- The image format reads a digit of the halt log as its value. -/
theorem hexValue_hexDigit {n : Nat} (hn : n < 16) : hexValue (hexDigit n) = some n := by
  have hall : ∀ k : Fin 16, hexValue (hexDigit k.val) = some k.val := by decide
  exact hall ⟨n, hn⟩

/-- Reading the digit of the four bits from bit `i` on extends the number above them by those bits. -/
theorem hexNumber_digit (v : Word) (i : Nat) (rest : List Char) :
    hexNumber (v.toNat / 2 ^ (i + 4)) (hexDigit (v.extractLsb' i 4).toNat :: rest) = hexNumber (v.toNat / 2 ^ i) rest := by
  have hsplit : 16 * (v.toNat / 2 ^ (i + 4)) + v.toNat / 2 ^ i % 2 ^ 4 = v.toNat / 2 ^ i := by
    rw [Nat.pow_add, ← Nat.div_div_eq_div_mul]
    exact Nat.div_add_mod ..
  rw [hexNumber, hexValue_hexDigit (v.extractLsb' i 4).isLt]
  simp only [extract_toNat, hsplit]

/-- The eight digits of a word spell its value (R356). -/
theorem hexNumber_hexText (v : Word) : hexNumber 0 (hexText v) = some v.toNat := by
  have hnone : v.toNat / 2 ^ (28 + 4) = 0 := Nat.div_eq_of_lt v.isLt
  have hdigits : hexNumber (v.toNat / 2 ^ (28 + 4)) (hexText v) = hexNumber (v.toNat / 2 ^ 0) [] := by
    simp only [hexText, List.map_cons, List.map_nil]
    rw [hexNumber_digit v 28, hexNumber_digit v 24, hexNumber_digit v 20, hexNumber_digit v 16, hexNumber_digit v 12,
      hexNumber_digit v 8, hexNumber_digit v 4, hexNumber_digit v 0]
  rw [hnone] at hdigits
  rw [hdigits, hexNumber, Nat.pow_zero, Nat.div_one]

/-- Settles O60: digit after digit, the image format reads the number back. -/
theorem hexTextRoundTrip : Obligations.HexTextRoundTrip := by
  intro v
  have hlength : (hexText v).length = 8 := rfl
  refine ⟨hlength, ?_⟩
  rw [imageWord, if_pos hlength, hexNumber_hexText, Option.map_some, BitVec.ofNat_toNat, BitVec.setWidth_eq]

/-! ### Loads after stores (R74, R75, R81) -/

/-- Settles O31, by the reads through the word that holds the address. -/
theorem memReadIsTheBytes : Obligations.MemReadIsTheBytes := fun m a =>
  ⟨m.load_byte a .u, fun ha => m.load_half ha .u, fun ha => m.load_word ha .u⟩

/-- Byte `i` of an access just stored (R75). -/
theorem Memory.byte_store_inside (m : Memory) (a v : Word) {width : MemWidth} {i : Nat} (hi : i < widthBytes width) :
    (m.store a width v).byte (a.toNat + i) = v.extractLsb' (8 * i) 8 := by
  rw [Memory.byte_store, if_pos (by omega), Nat.add_sub_cancel_left]

/-- Settles O32: the bytes a read takes are those just stored. -/
theorem loadAfterStore : Obligations.LoadAfterStore := by
  intro m a v width haligned
  have ha : a.toNat % widthBytes width = 0 := by simpa [misalignedFor] using haligned
  refine ⟨?_, Memory.byte_store m a v width⟩
  have hfirst : (m.store a width v).byte a.toNat = v.extractLsb' 0 8 :=
    m.byte_store_inside a v (i := 0) (by cases width <;> decide)
  have hbyte {i : Nat} (hi : i < widthBytes width) := m.byte_store_inside a v hi
  cases width with
  | b => rw [Memory.load_byte, hfirst]; rfl
  | h =>
    have hhalf : v.extractLsb' 8 8 ++ v.extractLsb' 0 8 = v.extractLsb' 0 16 :=
      BitVec.extractLsb'_append_extractLsb'_eq_extractLsb' (by decide)
    rw [Memory.load_half _ ha, hfirst, hbyte (by decide)]
    exact congrArg (extendTo .u) hhalf
  | w =>
    rw [Memory.load_word _ ha, hfirst, hbyte (by decide), hbyte (by decide), hbyte (by decide)]
    exact lanes_append v

/-! ### Stores (R250, R254, R265 to R267) -/

/-- A store at a legal address completes with the low bytes of its source stored there (R250, R256). -/
theorem StoreForm.of_storeOp {mk : Reg → Reg → BitVec 12 → Instr} {width : MemWidth}
    (hexec : ∀ rs2 rs1 imm s, exec (mk rs2 rs1 imm) s = s.storeOp width rs2 rs1 imm) :
    StoreForm mk (widthBytes width) := by
  intro s rs2 rs1 imm h1 h2 halign hrange
  have haccess : accessFault s.cfg s.pc (s.reg rs1 + sext12 imm) width = none :=
    (accessFault_eq_none ..).mpr ⟨halign, hrange⟩
  have hlanes : storeLanes width (s.reg rs2) =
      (List.range (widthBytes width)).map (fun i => (s.reg rs2).extractLsb' (8 * i) 8) := by cases width <;> rfl
  refine ⟨_, (hexec ..).trans ((storeOp_next ..).mpr ⟨⟨h1, h2⟩, haccess, rfl⟩), ?_⟩
  rw [← hlanes]
  exact store_stores ..

/-- Settles O29, width by width. -/
theorem storeResults : Obligations.StoreResults :=
  ⟨.of_storeOp (width := .b) fun _ _ _ _ => rfl, .of_storeOp (width := .h) fun _ _ _ _ => rfl,
    .of_storeOp (width := .w) fun _ _ _ _ => rfl⟩

/-! ### The step's own checks (R77, R115, R353, R357, R369) -/

/-- Settles O10: the bytes placed are the word that the PC's address lies in. -/
theorem placedWordIsFetched : Obligations.PlacedWordIsFetched := by
  intro s w
  have hplaced : s.withFetchWord 32 w.toNat = s.placeWord w := by
    rw [State.withFetchWord, Nat.mod_eq_of_lt w.isLt, BitVec.ofNat_toNat, BitVec.setWidth_eq]
  rw [hplaced]
  constructor
  · rw [State.fetch, State.placeWord_imem, State.placeWord_pc, Memory.wordAt, Memory.word_storeWord, if_pos rfl]
  · intro a ha
    rw [State.placeWord_imem]
    exact Memory.byte_storeBytes_outside _ _ _ _ ha

/-- A halt word runs the halt (R111, R330 to R332). -/
theorem runDecoded_haltWord {w : Word} (hw : isHaltWord w = true) (s : State) : runDecoded (decode w) s = .next s.halt := by
  simp only [isHaltWord, Bool.or_eq_true, beq_iff_eq] at hw
  obtain (rfl | rfl) | rfl := hw <;> rfl

/-- A halt word is never an aliasing one (R111, R115). -/
theorem isCanonical_of_haltWord {w : Word} (hw : isHaltWord w = true) : isCanonical w = true := by
  rw [isCanonical, hw, Bool.true_or]

/-- Settles O9, check by check in the order of R357. -/
theorem stepChecksInOrder : Obligations.StepChecksInOrder := by
  intro s
  have hstep (hrun : s.run = .running) : step s = runInstruction s := by rw [step, sequentialStep, hrun]
  refine ⟨fun hrun hpc => ?_, fun hrun hpc hhalt => ?_, fun hrun hpc hstrict halias => ?_, fun hrun => ?_,
    fun f hrun => ?_⟩
  · have hfetch : fetchFault s.cfg s.pc = some (.fetchOutOfRange s.pc) := by simp [fetchFault, inDepth, Nat.not_lt.mpr hpc]
    rw [hstep hrun, runInstruction, hfetch, orFault_some]
  · have hchecks := step_of_checks hrun hpc fun _ => isCanonical_of_haltWord hhalt
    exact ⟨s.halt, hchecks.trans (runDecoded_haltWord hhalt s), rfl⟩
  · have hfault : strictFault s.cfg s.pc s.fetch = some (.nonCanonicalEncoding s.pc s.fetch) := by
      simp [strictFault, hstrict, State.fetch, Memory.wordAt, halias]
    rw [hstep hrun, runInstruction, (fetchFault_eq_none ..).mpr hpc, orFault_none, hfault, orFault_some]
    rfl
  · rw [step, sequentialStep, hrun]
  · rw [step, sequentialStep, hrun]

/-! ### The stores behind a halt (R88, R369) -/

/-- Only a word of opcode STORE at the PC has an access of bytes (R113). -/
theorem State.storeAccess_length_of_opcode {s : State} (h : opcodeOf (s.imem.word (s.pc.toNat / 4)) ≠ 0b0100011#7) :
    (s.storeAccess s.controlAtPc).2 = 0 := by
  refine s.storeAccess_of_ne _ fun hstore => ?_
  unfold State.controlAtPc at hstore
  split at hstore
  · exact h (opcodeOf_of_store hstore)
  · cases hstore

/-- Behind a word that is no control transfer stands the next word (R37, R113). -/
theorem State.pcBehind_of_opcode {s : State}
    (h : opcodeOf (s.imem.word (s.pc.toNat / 4)) ∉ [0b1100011#7, 0b1101111#7, 0b1100111#7]) :
    s.pcBehind s.controlAtPc = s.pc + 4 := by
  refine s.pcBehind_of_none _ ?_
  by_contra hbranch
  unfold State.controlAtPc at hbranch
  split at hbranch
  · exact h (opcodeOf_of_transfer hbranch)
  · exact hbranch rfl

/-- Where neither word behind a halt stores and the first transfers no control, no byte is unspecified (R88). -/
theorem State.storesBehind_empty {s : State}
    (h4 : opcodeOf (s.imem.word ((s.pc + 4).toNat / 4)) ∉ [0b0100011#7, 0b1100011#7, 0b1101111#7, 0b1100111#7])
    (h8 : opcodeOf (s.imem.word ((s.pc + 8).toNat / 4)) ≠ 0b0100011#7) :
    ∀ r ∈ s.storesBehind s.pc, r.2 = 0 := by
  rw [List.mem_cons, not_or] at h4
  obtain ⟨hstore, htransfer⟩ := h4
  intro r hr
  obtain rfl | rfl := State.mem_storesBehind hr
  · exact State.storeAccess_length_of_opcode (by rwa [State.settled_imem, State.settled_pc])
  · refine State.storeAccess_length_of_opcode ?_
    rw [State.behind_imem, State.settled_imem, State.behind_pc,
      State.pcBehind_of_opcode (by rwa [State.settled_imem, State.settled_pc]), State.settled_pc, BitVec.add_assoc]
    exact h8

/-- Settles O33: the halt's frame, its log, and no byte unspecified where nothing behind it stores. -/
theorem haltWordsEndTheRun : Obligations.HaltWordsEndTheRun := by
  intro s i hi
  have hexec : exec i s = .next s.halt := by
    simp only [List.mem_cons, List.not_mem_nil, or_false] at hi
    obtain rfl | rfl | rfl := hi <;> rfl
  refine ⟨s.halt, hexec, halt_halts s, s.dump_length, s.dump_reg, fun h4 h8 a => (halt_halts s).memory a fun r hr => ?_⟩
  rw [State.storesBehind_empty h4 h8 r hr]
  exact Nat.lt_or_ge a r.1

/-! ### A store behind a halt, by its word (R88, R113, R250, R265 to R267) -/

/-- The stores' constructors, each with its width. -/
abbrev storeForms : List ((Reg → Reg → BitVec 12 → Instr) × MemWidth) :=
  [(Instr.sb, MemWidth.b), (.sh, .h), (.sw, .w)]

theorem mem_storeForms {mk : Reg → Reg → BitVec 12 → Instr} {width : MemWidth} (h : (mk, width) ∈ storeForms) :
    (mk = .sb ∧ width = .b) ∨ (mk = .sh ∧ width = .h) ∨ (mk = .sw ∧ width = .w) := by
  simpa only [storeForms, List.mem_cons, Prod.mk.injEq, List.not_mem_nil, or_false] using h

/-- A word decoded to an instruction that is none of the exact words' matches a row that builds it. -/
theorem decodeControl_of_decode {w : Word} {i : Instr} (h : decode w = .instr i)
    (hi : i ∉ [Instr.zeroWord, .nop, .ecall, .ebreak, .haltSb]) :
    ∃ r ∈ controlTable, r.build w = i ∧ decodeControl w = r.control w := by
  have hne : ∀ (v : Word) (j : Instr), decode v = .instr j → j ∈ [Instr.zeroWord, .nop, .ecall, .ebreak, .haltSb] →
      w ≠ v := by
    rintro v j hj hmem rfl
    rw [h, Decoded.instr.injEq] at hj
    exact hi (hj ▸ hmem)
  have h0 : w ≠ 0 := hne _ _ rfl (by decide)
  have hnop : w ≠ nopWord := hne _ _ rfl (by decide)
  have hecall : w ≠ haltEcall := hne _ _ rfl (by decide)
  have hebreak : w ≠ haltEbreak := hne _ _ rfl (by decide)
  have hreserved : w ≠ haltReserved := hne _ _ rfl (by decide)
  have hhalt : isHaltWord w = false := by simp [isHaltWord, hecall, hebreak, hreserved]
  rw [decode, if_neg h0, if_neg hnop, if_neg hecall, if_neg hebreak, if_neg hreserved] at h
  cases hrow : rowOf w with
  | none => rw [hrow] at h; cases h
  | some r =>
    rw [hrow, Decoded.instr.injEq] at h
    exact ⟨r, (rowOf_some hrow).1, h, decodeControl_of_row h0 hhalt hrow⟩

/-- SB, SH or SW. -/
def IsStore : Instr → Prop
  | .sb _ _ _ | .sh _ _ _ | .sw _ _ _ => True
  | _ => False

theorem isStore_of_mem {mk : Reg → Reg → BitVec 12 → Instr} {width : MemWidth} (hmk : (mk, width) ∈ storeForms)
    (rs2 rs1 : Reg) (imm : BitVec 12) : IsStore (mk rs2 rs1 imm) := by
  obtain ⟨rfl, -⟩ | ⟨rfl, -⟩ | ⟨rfl, -⟩ := mem_storeForms hmk <;> trivial

/-- Only the rows of the stores build stores (R113). -/
theorem mem_storeRows {r : Row} (hr : r ∈ controlTable) {w : Word} (h : IsStore (r.build w)) : r ∈ storeRows := by
  by_contra hn
  simp only [controlTable, List.mem_append, hn, or_false, upperRows, jumpRows, branchRows, loadRows, opImmRows, shiftRows,
    opRows, mulDivRows, List.mem_cons, List.not_mem_nil] at hr
  casesm* _ ∨ _ <;> subst r <;> exact h

/-- No row but a store's own builds that store (R113). -/
theorem row_of_store {mk : Reg → Reg → BitVec 12 → Instr} {width : MemWidth} (hmk : (mk, width) ∈ storeForms) {r : Row}
    (hr : r ∈ controlTable) {w : Word} {rs2 rs1 : Reg} {imm : BitVec 12} (hbuild : r.build w = mk rs2 rs1 imm) :
    ∃ f3, r = Row.store f3 mk width := by
  have hrow : r ∈ storeRows := mem_storeRows hr (hbuild ▸ isStore_of_mem hmk rs2 rs1 imm)
  simp only [storeRows, List.mem_cons, List.not_mem_nil, or_false] at hrow
  obtain ⟨rfl, rfl⟩ | ⟨rfl, rfl⟩ | ⟨rfl, rfl⟩ := mem_storeForms hmk <;> obtain rfl | rfl | rfl := hrow
  case inl.inl | inr.inl.inr.inl | inr.inr.inr.inr => exact ⟨_, rfl⟩
  all_goals cases hbuild

/-- What the pipeline decodes a store's word to: the store's operands, its width, and the sum of rs1 and the immediate as its
address (R113, R250). -/
structure StoreControl (d : DecodedControl) (width : MemWidth) (rs2 rs1 : Reg) (imm : BitVec 12) : Prop where
  memOp : d.ctrl.memOp = .store
  memWidth : d.ctrl.memWidth = width
  source1 : d.rs1 = rs1
  source2 : d.rs2 = rs2
  address : ∀ s : State, s.aluResult d = s.reg rs1 + sext12 imm

theorem storeControl_of_decode {mk : Reg → Reg → BitVec 12 → Instr} {width : MemWidth} (hmk : (mk, width) ∈ storeForms)
    {w : Word} {rs2 rs1 : Reg} {imm : BitVec 12} (h : decode w = .instr (mk rs2 rs1 imm)) :
    StoreControl (decodeControl w) width rs2 rs1 imm := by
  have hinj : ∀ a b c, mk a b c = mk rs2 rs1 imm → a = rs2 ∧ b = rs1 ∧ c = imm := by
    obtain ⟨rfl, -⟩ | ⟨rfl, -⟩ | ⟨rfl, -⟩ := mem_storeForms hmk <;> simp
  have hexact : mk rs2 rs1 imm ∉ [Instr.zeroWord, .nop, .ecall, .ebreak, .haltSb] := by
    obtain ⟨rfl, -⟩ | ⟨rfl, -⟩ | ⟨rfl, -⟩ := mem_storeForms hmk <;> simp
  obtain ⟨r, hr, hbuild, hcontrol⟩ := decodeControl_of_decode h hexact
  obtain ⟨f3, rfl⟩ := row_of_store hmk hr hbuild
  obtain ⟨rfl, rfl, rfl⟩ := hinj _ _ _ hbuild
  rw [hcontrol]
  exact ⟨rfl, rfl, rfl, rfl, fun _ => rfl⟩

/-- The access of a store at the PC that would not fault (R250, R256). -/
theorem StoreControl.storeAccess {d : DecodedControl} {width : MemWidth} {rs2 rs1 : Reg} {imm : BitVec 12}
    (hd : StoreControl d width rs2 rs1 imm) {s : State} {ea : Word} (hea : ea = s.reg rs1 + sext12 imm)
    (halign : ea.toNat % widthBytes width = 0) (hrange : ea.toNat / 4 < s.cfg.dmemDepth) :
    s.storeAccess d = (ea.toNat, widthBytes width) := by
  have haddress : s.aluResult d = ea := (hd.address s).trans hea.symm
  rw [State.storeAccess, haddress, hd.memOp, hd.memWidth, if_pos ((accessFault_eq_none ..).mpr ⟨halign, hrange⟩)]
  rfl

theorem State.controlAtPc_eq {s : State} (hpc : s.pc.toNat / 4 < s.cfg.imemDepth) :
    s.controlAtPc = decodeControl (s.imem.word (s.pc.toNat / 4)) := by
  rw [State.controlAtPc, inDepth, decide_eq_true hpc, if_pos rfl, Memory.wordAt]

/-- The access of the second word behind a halt is there where that word follows at once (R88, R410). -/
theorem State.storesBehind_second (s : State) (pc : Word) {d d' : DecodedControl}
    (hd : (s.settled (pc + 4)).controlAtPc = d) (hd' : ((s.settled (pc + 4)).behind d).controlAtPc = d')
    (hfollows : followsAtOnce d d' = true) : ((s.settled (pc + 4)).behind d).storeAccess d' ∈ s.storesBehind pc := by
  subst hd hd'
  rw [State.storesBehind, if_pos hfollows]
  exact List.mem_cons_of_mem _ (List.mem_singleton_self _)

/-! ### Running where more registers hold values (R35) -/

/-- `f` is `s` in what an instruction that is no halt reads, but that more registers may hold a value in `f`. -/
structure AgreesWhereHeld (s f : State) : Prop where
  cfg : f.cfg = s.cfg
  pc : f.pc = s.pc
  dmem : f.dmem = s.dmem
  run : f.run = s.run
  held : ∀ r, s.holds r = true → f.holds r = true ∧ f.reg r = s.reg r

/-- The state behind a halt, with the registers that the halt log prints free values for. -/
theorem State.settled_agrees (s : State) (pc : Word) : AgreesWhereHeld { s with pc := pc } (s.settled pc) where
  cfg := s.settled_cfg pc
  pc := s.settled_pc pc
  dmem := by simp only [State.settled]
  run := by simp only [State.settled]
  held r hr := ⟨by simp [State.settled, State.holds], s.settled_reg pc r hr⟩

namespace AgreesWhereHeld

variable {s f t : State} (h : AgreesWhereHeld s f)

include h

theorem writeReg (rd : Reg) (v : Word) : AgreesWhereHeld (s.writeReg rd v) (f.writeReg rd v) where
  cfg := by simp [h.cfg]
  pc := by simp [h.pc]
  dmem := by simp [h.dmem]
  run := by simp [h.run]
  held r hr := by
    rw [State.holds_writeReg, Bool.or_eq_true, beq_iff_eq] at hr
    obtain hr | rfl := hr
    · obtain ⟨hf, hv⟩ := h.held r hr
      simp [hf, hv]
    · by_cases h0 : r = 0#5 <;> simp [h0]

theorem advance : AgreesWhereHeld s.advance f.advance :=
  { h with pc := congrArg (· + 4) h.pc }

theorem retire (rd : Reg) (v : Word) : AgreesWhereHeld (s.retire rd v) (f.retire rd v) :=
  (h.writeReg rd v).advance

theorem sources {r q : Reg} (hs : s.holds r = true ∧ s.holds q = true) :
    (f.holds r = true ∧ f.holds q = true) ∧ f.reg r = s.reg r ∧ f.reg q = s.reg q :=
  ⟨⟨(h.held r hs.1).1, (h.held q hs.2).1⟩, (h.held r hs.1).2, (h.held q hs.2).2⟩

theorem aluImm {op : AluOp} {rd rs1 : Reg} {b : Word} (hs : s.aluImm op rd rs1 b = .next t) :
    ∃ u, f.aluImm op rd rs1 b = .next u ∧ AgreesWhereHeld t u := by
  obtain ⟨h1, rfl⟩ := (aluImm_next ..).mp hs
  obtain ⟨hf, hv⟩ := h.held _ h1
  exact ⟨_, (aluImm_next ..).mpr ⟨hf, rfl⟩, hv ▸ h.retire ..⟩

theorem aluReg {op : AluOp} {rd rs1 rs2 : Reg} (hs : s.aluReg op rd rs1 rs2 = .next t) :
    ∃ u, f.aluReg op rd rs1 rs2 = .next u ∧ AgreesWhereHeld t u := by
  obtain ⟨hheld, rfl⟩ := (aluReg_next ..).mp hs
  obtain ⟨hf, hv1, hv2⟩ := h.sources hheld
  exact ⟨_, (aluReg_next ..).mpr ⟨hf, rfl⟩, by rw [hv1, hv2]; exact h.retire ..⟩

theorem mulOp {q : MulRequest} {rd rs1 rs2 : Reg} (hs : s.mulOp q rd rs1 rs2 = .next t) :
    ∃ u, f.mulOp q rd rs1 rs2 = .next u ∧ AgreesWhereHeld t u := by
  obtain ⟨hheld, rfl⟩ := (mulOp_next ..).mp hs
  obtain ⟨hf, hv1, hv2⟩ := h.sources hheld
  exact ⟨_, (mulOp_next ..).mpr ⟨hf, rfl⟩, by rw [hv1, hv2]; exact h.retire ..⟩

theorem divOp {q : DivRequest} {rd rs1 rs2 : Reg} (hs : s.divOp q rd rs1 rs2 = .next t) :
    ∃ u, f.divOp q rd rs1 rs2 = .next u ∧ AgreesWhereHeld t u := by
  obtain ⟨hheld, rfl⟩ := (divOp_next ..).mp hs
  obtain ⟨hf, hv1, hv2⟩ := h.sources hheld
  have hretire := h.retire rd (divResult q (s.reg rs1) (s.reg rs2))
  exact ⟨_, (divOp_next ..).mpr ⟨hf, rfl⟩, by rw [hv1, hv2]; exact { hretire with }⟩

theorem loadOp {width : MemWidth} {sign : MemSign} {rd rs1 : Reg} {imm : BitVec 12}
    (hs : s.loadOp width sign rd rs1 imm = .next t) :
    ∃ u, f.loadOp width sign rd rs1 imm = .next u ∧ AgreesWhereHeld t u := by
  obtain ⟨h1, ha, rfl⟩ := (loadOp_next ..).mp hs
  obtain ⟨hf, hv⟩ := h.held _ h1
  exact ⟨_, (loadOp_next ..).mpr ⟨hf, by rwa [h.cfg, h.pc, hv], rfl⟩, by rw [hv, h.dmem]; exact h.retire ..⟩

theorem storeOp {width : MemWidth} {rs2 rs1 : Reg} {imm : BitVec 12} (hs : s.storeOp width rs2 rs1 imm = .next t) :
    ∃ u, f.storeOp width rs2 rs1 imm = .next u ∧ AgreesWhereHeld t u := by
  obtain ⟨hheld, ha, rfl⟩ := (storeOp_next ..).mp hs
  obtain ⟨hf, hv1, hv2⟩ := h.sources hheld
  refine ⟨_, (storeOp_next ..).mpr ⟨hf, by rwa [h.cfg, h.pc, hv1], rfl⟩, ?_⟩
  rw [hv1, hv2, h.dmem]
  exact advance { h with dmem := rfl }

theorem transfer {rd : Reg} {taken : Bool} {target : Word} (hs : s.transfer rd taken target = .next t) :
    ∃ u, f.transfer rd taken target = .next u ∧ AgreesWhereHeld t u := by
  obtain ⟨ha, h0, rfl⟩ := (transfer_next ..).mp hs
  refine ⟨_, (transfer_next ..).mpr ⟨ha, by rwa [h.pc], rfl⟩, ?_⟩
  have hlink := h.writeReg rd (s.pc + 4)
  rw [State.transferred, State.transferred, h.pc]
  exact { hlink with pc := rfl }

theorem branch {kind : BranchKind} {rs1 rs2 : Reg} {offset : BitVec 13} (hs : s.branch kind rs1 rs2 offset = .next t) :
    ∃ u, f.branch kind rs1 rs2 offset = .next u ∧ AgreesWhereHeld t u := by
  obtain ⟨hheld, ht⟩ := (branch_next ..).mp hs
  obtain ⟨hf, hv1, hv2⟩ := h.sources hheld
  obtain ⟨u, hu, hag⟩ := h.transfer ht
  exact ⟨u, (branch_next ..).mpr ⟨hf, by rwa [hv1, hv2, h.pc]⟩, hag⟩

theorem jal {rd : Reg} {offset : BitVec 21} (hs : execJal rd offset s = .next t) :
    ∃ u, execJal rd offset f = .next u ∧ AgreesWhereHeld t u := by
  rw [execJal, h.pc]
  exact h.transfer hs

theorem jalr {rd rs1 : Reg} {imm : BitVec 12} (hs : execJalr rd rs1 imm s = .next t) :
    ∃ u, execJalr rd rs1 imm f = .next u ∧ AgreesWhereHeld t u := by
  obtain ⟨h1, ht⟩ := (orFault_next ..).mp hs
  obtain ⟨hf, hv⟩ := h.held _ ((readFault_eq_none ..).mp h1)
  rw [execJalr, readFault_held _ _ _ hf, orFault_none, hv]
  exact h.transfer ht

/-- What runs where fewer registers hold values runs where more do, with the same results. -/
theorem exec {i : Instr} (hs : exec i s = .next t) (hrun : t.run = .running) :
    ∃ u, Machine.exec i f = .next u ∧ AgreesWhereHeld t u := by
  cases i with
  | lui => cases hs; exact ⟨_, rfl, h.retire ..⟩
  | auipc => cases hs; exact ⟨_, rfl, h.pc ▸ h.retire ..⟩
  | nop | zeroWord => cases hs; exact ⟨_, rfl, h.advance⟩
  | jal => exact h.jal hs
  | jalr => exact h.jalr hs
  | beq | bne | blt | bge | bltu | bgeu => exact h.branch hs
  | lb | lh | lw | lbu | lhu => exact h.loadOp hs
  | sb | sh | sw => exact h.storeOp hs
  | addi | slti | sltiu | xori | ori | andi | slli | srli | srai => exact h.aluImm hs
  | add | sub | sll | slt | sltu | xor | srl | sra | or | and => exact h.aluReg hs
  | mul | mulh | mulhsu | mulhu => exact h.mulOp hs
  | div | divu | rem | remu => exact h.divOp hs
  | ecall | ebreak | haltSb => cases hs; cases hrun

end AgreesWhereHeld

/-! ### `behind` is the instruction's own next state (R7, R88) -/

theorem transfer_pc_ne_zero {s t : State} {rd : Reg} {taken : Bool} {target : Word}
    (h : s.transfer rd taken target = .next t) : t.pc ≠ 0 := by
  obtain ⟨-, h0, rfl⟩ := (transfer_next ..).mp h
  exact h0

/-- A control transfer that completes goes on elsewhere than at 0 (R206). -/
theorem exec_transfer_pc_ne_zero {i : Instr} {s t : State} (hk : (decodeControl (encode i)).ctrl.branchKind ≠ .none)
    (h : exec i s = .next t) : t.pc ≠ 0 := by
  have hopcode := opcodeOf_of_transfer hk
  cases i with
  | jal => exact transfer_pc_ne_zero h
  | jalr => exact transfer_pc_ne_zero ((orFault_next ..).mp h).2
  | beq | bne | blt | bge | bltu | bgeu => exact transfer_pc_ne_zero ((branch_next ..).mp h).2
  | ecall | ebreak | haltSb | nop | zeroWord => exact absurd hopcode (by decide)
  | _ => simp [encode] at hopcode

/-- What is no load has its result from EX (R386). -/
theorem State.memValue_of_ne_load {s : State} (h : s.pipe.em.memOp ≠ .load) : s.memValue = s.pipe.em.result := by
  unfold State.memValue
  split
  · next hload => exact absurd hload h
  · rfl

section Behind

variable {s t : State} {d : DecodedControl} (hm : mulRequest d.ctrl.aluOp = none) (hd : divRequest d.ctrl.aluOp = none)

include hm hd

/-- What EX passes on for an instruction that asks no unit is the ALU's result (R390). -/
theorem exControl_result (pred : Word) : (s.exControl pred d).em.result = s.aluResult d := by
  rw [exControl_of_no_unit hm hd]
  split
  · simp only [State.exTransfer]; split <;> rfl
  · split
    · unfold State.exMemory; split <;> rfl
    · rfl

/-- A register that no load has written reads behind the instruction as in its next state. -/
theorem StageMatches.behind_reg {pred : Word} (h : StageMatches s t pred d) {r : Reg}
    (hload : d.ctrl.memOp = .load → d.ctrl.destReg = 0 ∨ d.ctrl.destReg ≠ r) : (s.behind d).reg r = t.reg r := by
  have hbehind : (s.behind d).reg r = if r = d.ctrl.destReg ∧ d.ctrl.destReg ≠ 0 then s.aluResult d else s.reg r :=
    State.reg_writeReg ..
  rw [hbehind, h.regs]
  split
  · next hr =>
    have hop : (s.exControl pred d).em.memOp ≠ .load := by
      obtain ⟨v, hv⟩ := h.passes
      rw [hv]
      exact fun hl => (hload hl).elim hr.2 fun hne => hne hr.1.symm
    exact (exControl_result hm hd pred).symm.trans (State.memValue_of_ne_load (s := s.inMem _) hop).symm
  · rfl

/-- `behind` stands at the next state's PC. For a transfer that is read off EX under the prediction of the resolved PC itself,
which EX does not redirect (R215). -/
theorem StageMatches.behind_pc (h : ∀ pred, StageMatches s t pred d) (h0 : d.ctrl.branchKind ≠ .none → t.pc ≠ 0) :
    (s.behind d).pc = t.pc := by
  rw [State.behind_pc]
  by_cases hk : d.ctrl.branchKind = .none
  · rw [s.pcBehind_of_none _ hk, ((h 0).next hk).1]
  let taken := branchTaken d.ctrl.branchKind (s.reg d.rs1) (s.reg d.rs2)
  let target := transferTarget d.ctrl.branchKind s.pc (s.reg d.rs1) d.imm
  let next := resolvedNext taken s.pc target
  have hmatches := h next
  have hx : s.exControl next d =
      s.exTransfer (packetFor d s.pc next) (s.reg d.rs1) (s.reg d.rs2) (s.aluResult d) :=
    (exControl_of_no_unit hm hd).trans (if_pos hk)
  have hmis : (taken && misalignedPc target) = false := by
    obtain ⟨v, hv⟩ := hmatches.passes
    by_contra hc
    have hmarked : (s.exControl next d).em = ExMem.marked (.misalignedFetch s.pc target) s.pc (s.aluResult d) := by
      rw [hx, State.exTransfer]
      exact congrArg ExOut.em (if_pos (Bool.eq_true_of_not_eq_false hc))
    exact nomatch congrArg ExMem.fault (hmarked.symm.trans hv)
  have hnext : t.pc = next := by
    have hkept : (s.exControl next d).btReg = 0 := by
      rw [hx, State.exTransfer]
      refine (congrArg ExOut.btReg (if_neg (Bool.eq_false_iff.mp hmis))).trans ?_
      simp [packetFor, next, taken, target]
    by_contra hne
    rw [hmatches.redirect hk, if_neg hne] at hkept
    exact h0 hk hkept
  have hpc : s.pcBehind d =
      if d.ctrl.branchKind ≠ .none ∧ (taken && misalignedPc target || next = 0) then s.predictor.predict s.cfg s.pc
      else next := rfl
  rw [hpc, hmis, ← hnext, if_neg]
  simpa using h0

end Behind

/-- The next state of an instruction behind a halt, which asks no unit, runs on as `behind` says: it stands at the same PC, and
a register that holds a value there and is not a load's destination reads the same (R88). -/
theorem State.settled_behind {i : Instr} {s u : State} {pc : Word} (hwf : i.wellFormed = true)
    (hexec : exec i { s with pc := pc } = .next u) (hrun : u.run = .running)
    (hm : mulRequest (decodeControl (encode i)).ctrl.aluOp = none)
    (hd : divRequest (decodeControl (encode i)).ctrl.aluOp = none) :
    ((s.settled pc).behind (decodeControl (encode i))).pc = u.pc ∧
      ∀ r, u.holds r = true →
        ((decodeControl (encode i)).ctrl.memOp = .load →
          (decodeControl (encode i)).ctrl.destReg = 0 ∨ (decodeControl (encode i)).ctrl.destReg ≠ r) →
        ((s.settled pc).behind (decodeControl (encode i))).reg r = u.reg r := by
  obtain ⟨t, ht, hagree⟩ := (s.settled_agrees pc).exec hexec hrun
  have hmatches (pred : Word) : StageMatches (s.settled pc) t pred (decodeControl (encode i)) :=
    exec_stageMatches pred hwf ht (hagree.run.trans hrun) hm hd
  constructor
  · exact (StageMatches.behind_pc hm hd hmatches fun hk => exec_transfer_pc_ne_zero hk ht).trans hagree.pc
  · intro r hr hload
    obtain ⟨-, hreg⟩ := hagree.held r hr
    exact ((hmatches 0).behind_reg hm hd hload).trans hreg

/-- An instruction follows at once behind one that asks no unit and loads neither of its sources (R287, R410). -/
theorem followsAtOnce_of_sources {d d' : DecodedControl} (hm : mulRequest d.ctrl.aluOp = none)
    (hd : divRequest d.ctrl.aluOp = none)
    (hload : d.ctrl.memOp = .load → d.ctrl.destReg = 0 ∨ d.ctrl.destReg ≠ d'.rs1 ∧ d.ctrl.destReg ≠ d'.rs2) :
    followsAtOnce d d' = true := by
  rw [followsAtOnce, hm, hd]
  by_cases hop : d.ctrl.memOp = .load
  · obtain h0 | ⟨h1, h2⟩ := hload hop
    · simp [h0]
    · simp [h1.symm, h2.symm]
  · simp [hop]

/-- Settles O34: the first word's store at the halted state's operands, the second's at those `settled_behind` gives. -/
theorem storesBehindAHalt : Obligations.StoresBehindAHalt := by
  intro s mk width rs2 rs1 imm hmk
  have hfirst (hpc : (s.pc + 4).toNat / 4 < s.cfg.imemDepth) :
      (s.settled (s.pc + 4)).controlAtPc = decodeControl (s.imem.word ((s.pc + 4).toNat / 4)) := by
    rw [State.controlAtPc_eq (by rwa [State.settled_cfg, State.settled_pc]), State.settled_imem, State.settled_pc]
  constructor
  · intro ea hpc hdec h1 hea halign hrange
    have hmem := s.storesBehind_first s.pc
    rw [hfirst hpc] at hmem
    rwa [(storeControl_of_decode hmk hdec).storeAccess (ea := ea) (by rw [s.settled_reg _ _ h1]; exact hea) halign
      (by rwa [State.settled_cfg])] at hmem
  · intro i u ea hwf hpc hword hexec hurun hrun hupc hdec c hm hd hload h1 hea halign hrange
    obtain ⟨hbehind, hreg⟩ := State.settled_behind hwf hexec (hurun.trans hrun) hm hd
    have hstore := storeControl_of_decode hmk hdec
    have hsecond : ((s.settled (s.pc + 4)).behind (decodeControl (encode i))).controlAtPc =
        decodeControl (s.imem.word (u.pc.toNat / 4)) := by
      rw [State.controlAtPc_eq (by rwa [hbehind, State.behind_cfg, State.settled_cfg]), hbehind, State.behind_imem,
        State.settled_imem]
    have hfollows := followsAtOnce_of_sources (d' := decodeControl (s.imem.word (u.pc.toNat / 4))) hm hd
      (by rwa [hstore.source1, hstore.source2])
    have hmem := s.storesBehind_second s.pc ((hfirst hpc).trans (congrArg decodeControl hword)) hsecond hfollows
    have hea' : ea = ((s.settled (s.pc + 4)).behind (decodeControl (encode i))).reg rs1 + sext12 imm := by
      rw [hreg rs1 h1 fun hl => (hload hl).imp_right And.left]
      exact hea
    rwa [hstore.storeAccess hea' halign (by rwa [State.behind_cfg, State.settled_cfg])] at hmem

end Sys2Proof.Machine

namespace Sys2Proof

/-! ### The sequential decoder on an encoded word (R102 to R113) -/

section EncodedForms

variable {rs1 rs2 rd : Reg} {f3 : BitVec 3} {op : BitVec 7} {alu : AluOp}

/-- A word of the I format is the NOP's only with every operand 0 (R334). -/
theorem encI_eq_nopWord {imm : BitVec 12} (h : encI imm rs1 f3 rd op = nopWord) :
    rd = 0 ∧ rs1 = 0 ∧ imm = 0 ∧ f3 = 0 := by
  have hrd := rdOf_encI imm rs1 rd f3 op
  have hrs1 := rs1Of_encI imm rs1 rd f3 op
  have himm := immIOf_encI imm rs1 rd f3 op
  have hf3 := funct3Of_encI imm rs1 rd f3 op
  rw [h] at hrd hrs1 himm hf3
  exact ⟨hrd.symm.trans (by decide), hrs1.symm.trans (by decide), himm.symm.trans (by decide),
    hf3.symm.trans (by decide)⟩

/-- A word whose opcode is neither OP-IMM nor STORE is none of the exact words that have a row (R110, R111). -/
theorem decode_of_row_opcode {w : Word} {r : Row}
    (hrow : rowFor (opcodeOf w) (funct3Of w) (bit30Of w) (bit25Of w) = some r)
    (himm : opcodeOf w ≠ 0b0010011#7) (hstore : opcodeOf w ≠ 0b0100011#7) : decode w = .instr (r.build w) :=
  decode_of_opcode hrow (fun h => absurd h himm) (fun h => absurd h hstore)

/-- LUI and AUIPC (R163, R164). -/
theorem decode_upper {mk : Reg → BitVec 20 → Instr} {imm : BitVec 20} {op1 : Op1Sel}
    (hrow : ∀ f3 b30 b25, rowFor op f3 b30 b25 = some (Row.upper op mk op1))
    (himm : op ≠ 0b0010011#7) (hstore : op ≠ 0b0100011#7) : decode (encU imm rd op) = .instr (mk rd imm) := by
  rw [decode_of_row_opcode (by simpa using hrow _ _ _) (by simpa) (by simpa)]
  simp [Row.upper]

/-- JAL (R207). -/
theorem decode_jal {offset : BitVec 21} (heven : evenOffset offset = true) :
    decode (encode (.jal rd offset)) = .instr (.jal rd offset) := by
  rw [encode, decode_of_row_opcode (r := Row.jal) (by rw [opcodeOf_encJ]; rfl) (by simp) (by simp)]
  simp [Row.jal, immJOf_encJ heven]

/-- JALR (R208). -/
theorem decode_jalr {imm : BitVec 12} : decode (encode (.jalr rd rs1 imm)) = .instr (.jalr rd rs1 imm) := by
  rw [encode, decode_of_row_opcode (r := Row.jalr) (by rw [opcodeOf_encI, funct3Of_encI]; rfl) (by simp) (by simp)]
  simp [Row.jalr]

/-- A conditional branch (R209 to R214). -/
theorem decode_branch {mk : Reg → Reg → BitVec 13 → Instr} {offset : BitVec 13} {kind : BranchKind}
    (hrow : ∀ b30 b25, rowFor 0b1100011 f3 b30 b25 = some (Row.branch f3 mk kind)) (heven : evenOffset offset = true) :
    decode (encB offset rs2 rs1 f3 0b1100011) = .instr (mk rs1 rs2 offset) := by
  rw [decode_of_row_opcode (by simpa using hrow _ _) (by simp) (by simp)]
  simp [Row.branch, immBOf_encB heven]

/-- A load (R259 to R263). -/
theorem decode_load {mk : Reg → Reg → BitVec 12 → Instr} {imm : BitVec 12} {width : MemWidth} {sign : MemSign}
    (hrow : ∀ b30 b25, rowFor 0b0000011 f3 b30 b25 = some (Row.load f3 mk width sign)) :
    decode (encI imm rs1 f3 rd 0b0000011) = .instr (mk rd rs1 imm) := by
  rw [decode_of_row_opcode (by simpa using hrow _ _) (by simp) (by simp)]
  simp [Row.load]

/-- A store whose word is not the reserved halt word (R265 to R267, R111). -/
theorem decode_store {mk : Reg → Reg → BitVec 12 → Instr} {imm : BitVec 12} {width : MemWidth}
    (hrow : ∀ b30 b25, rowFor 0b0100011 f3 b30 b25 = some (Row.store f3 mk width))
    (hres : encS imm rs2 rs1 f3 0b0100011 ≠ haltReserved) :
    decode (encS imm rs2 rs1 f3 0b0100011) = .instr (mk rs2 rs1 imm) := by
  rw [decode_of_opcode (by simpa using hrow _ _) (by simp) (fun _ => hres)]
  simp [Row.store]

/-- An OP-IMM instruction that is no shift, and whose word is not the NOP's (R165 to R170, R334). -/
theorem decode_opImm {mk : Reg → Reg → BitVec 12 → Instr} {imm : BitVec 12}
    (hrow : ∀ b30 b25, rowFor 0b0010011 f3 b30 b25 = some (Row.opImm f3 mk alu))
    (hnop : encI imm rs1 f3 rd 0b0010011 ≠ nopWord) :
    decode (encI imm rs1 f3 rd 0b0010011) = .instr (mk rd rs1 imm) := by
  rw [decode_of_opcode (by simpa using hrow _ _) (fun _ => hnop) (by simp)]
  simp [Row.opImm]

/-- An OP-IMM shift, whose funct3 is not the NOP's (R108, R171 to R173). -/
theorem decode_shift {mk : Reg → Reg → BitVec 5 → Instr} {shamt : BitVec 5} {f7 : BitVec 7} {key : Option Bool}
    (hrow : rowFor 0b0010011 f3 (f7.getLsbD 5) (f7.getLsbD 0) = some (Row.shift f3 key f7 mk alu)) (hf3 : f3 ≠ 0) :
    decode (encR f7 shamt rs1 f3 rd 0b0010011) = .instr (mk rd rs1 shamt) := by
  have hnop : encR f7 shamt rs1 f3 rd 0b0010011 ≠ nopWord := fun h =>
    hf3 ((funct3Of_encR f7 rs1 shamt rd f3 0b0010011).symm.trans (by rw [h]; decide))
  rw [decode_of_opcode (by simpa using hrow) (fun _ => hnop) (by simp)]
  simp [Row.shift]

/-- An OP or M instruction (R174 to R183, R282 to R285, R302 to R305). -/
theorem decode_op {mk : Reg → Reg → Reg → Instr} {f7 : BitVec 7} {b30 b25 : Bool}
    (hrow : rowFor 0b0110011 f3 (f7.getLsbD 5) (f7.getLsbD 0) = some (Row.op f3 b30 b25 f7 mk alu)) :
    decode (encR f7 rs2 rs1 f3 rd 0b0110011) = .instr (mk rd rs1 rs2) := by
  rw [decode_of_row_opcode (by simpa using hrow) (by simp) (by simp)]
  simp [Row.op]

end EncodedForms

/-- Settles O1, by the form of the instruction: its row reads the operands back, and only the NOP and the reserved halt word
are taken from a row by the exact words. -/
theorem decodeEncodeRoundTrip : Obligations.DecodeEncodeRoundTrip := by
  intro i hwf
  cases i with
  | lui | auipc => exact decode_upper (fun _ _ _ => rfl) (by decide) (by decide)
  | jal => exact decode_jal hwf
  | jalr => exact decode_jalr
  | beq | bne | blt | bge | bltu | bgeu => exact decode_branch (fun _ _ => rfl) hwf
  | lb | lh | lw | lbu | lhu => exact decode_load (fun _ _ => rfl)
  | sb rs2 rs1 imm =>
    refine decode_store (fun _ _ => rfl) fun h => ?_
    obtain ⟨rfl, rfl, rfl, -⟩ := encS_eq_haltReserved h
    exact absurd hwf (by decide)
  | sh | sw =>
    refine decode_store (fun _ _ => rfl) fun h => ?_
    obtain ⟨-, -, -, hf3⟩ := encS_eq_haltReserved h
    exact absurd hf3 (by decide)
  | addi rd rs1 imm =>
    refine decode_opImm (fun _ _ => rfl) fun h => ?_
    obtain ⟨rfl, rfl, rfl, -⟩ := encI_eq_nopWord h
    exact absurd hwf (by decide)
  | slti | sltiu | xori | ori | andi =>
    refine decode_opImm (fun _ _ => rfl) fun h => ?_
    obtain ⟨-, -, -, hf3⟩ := encI_eq_nopWord h
    exact absurd hf3 (by decide)
  | slli | srli | srai => exact decode_shift rfl (by decide)
  | add | sub | sll | slt | sltu | xor | srl | sra | or | and | mul | mulh | mulhsu | mulhu | div | divu | rem | remu =>
    exact decode_op rfl
  | ecall | ebreak | haltSb | nop | zeroWord => rfl

end Sys2Proof

namespace Sys2Proof

/-! ### The halt words, the words with no row, and the rows' keys (R111, R113, R114, R117) -/

theorem isHaltWord_iff (w : Word) : isHaltWord w = true ↔ w = 0x00000073 ∨ w = 0x00100073 ∨ w = 0xFE000FA3 := by
  simp only [isHaltWord, Bool.or_eq_true, beq_iff_eq, or_assoc]
  rfl

/-- A word that no row matches is named so, unless it is the zero word or a halt word (R117). -/
theorem decode_of_noRow {w : Word} (h0 : w ≠ 0) (hhalt : isHaltWord w = false) (hrow : rowOf w = none) :
    decode w = .noRow w := by
  have hnop : w ≠ nopWord := by rintro rfl; cases hrow
  simp only [isHaltWord, Bool.or_eq_false_iff, beq_eq_false_iff_ne] at hhalt
  obtain ⟨⟨hecall, hebreak⟩, hres⟩ := hhalt
  rw [decode, if_neg h0, if_neg hnop, if_neg hecall, if_neg hebreak, if_neg hres, hrow]

/-- A word whose opcode no row has matches no row (R116). -/
theorem rowOf_none_of_opcode {w : Word} (h : ∀ r ∈ controlTable, r.opcode ≠ opcodeOf w) : rowOf w = none :=
  rowOf_none.mpr fun r hr => Bool.eq_false_iff.mpr fun hits => h r hr (opcodeOf_of_hits hits).symm

/-- Whether a compared value excludes another: both columns are compared and differ. -/
def keysDiffer {α : Type} [DecidableEq α] : Option α → Option α → Bool
  | some k, some l => k != l
  | _, _ => false

theorem keysDiffer_of_matches {α : Type} [DecidableEq α] {k l : Option α} {v : α} (hk : keyMatches k v = true)
    (hl : keyMatches l v = true) : keysDiffer k l = false := by
  cases k with
  | none => rfl
  | some a =>
    cases l with
    | none => rfl
    | some b =>
      rw [keyMatches_some] at hk hl
      simp [keysDiffer, hk, hl]

/-- Whether two rows differ in a field that both compare (R113). -/
def Row.keysApart (r q : Row) : Bool :=
  r.opcode != q.opcode || keysDiffer r.funct3 q.funct3 || keysDiffer r.bit30 q.bit30 || keysDiffer r.bit25 q.bit25

/-- No word matches two rows that differ in a field both compare (R114). -/
theorem Row.keysApart_of_hits {r q : Row} {w : Word} (hr : r.hits w = true) (hq : q.hits w = true) :
    r.keysApart q = false := by
  simp only [Row.hits, Bool.and_eq_true, beq_iff_eq] at hr hq
  obtain ⟨⟨⟨hop, hf3⟩, h30⟩, h25⟩ := hr
  obtain ⟨⟨⟨hop', hf3'⟩, h30'⟩, h25'⟩ := hq
  simp [Row.keysApart, hop, hop', keysDiffer_of_matches hf3 hf3', keysDiffer_of_matches h30 h30',
    keysDiffer_of_matches h25 h25']

/-- Every two rows of the table differ in a field that both compare (R114). -/
theorem controlTable_keysApart : controlTable.Pairwise fun r q => r.keysApart q = true := by decide

theorem controlTable_hits_unique {w : Word} {i j : Nat} (hi : i < controlTable.length) (hj : j < controlTable.length)
    (h : controlTable[i].hits w = true) (h' : controlTable[j].hits w = true) : i = j := by
  have hpair := List.pairwise_iff_getElem.mp controlTable_keysApart
  obtain hlt | heq | hgt := Nat.lt_trichotomy i j
  · exact absurd (hpair i j hi hj hlt) (Bool.eq_false_iff.mp (Row.keysApart_of_hits h h'))
  · exact heq
  · exact absurd (hpair j i hj hi hgt) (Bool.eq_false_iff.mp (Row.keysApart_of_hits h' h))

/-- Settles O2: the rows' keys are pairwise apart, ECALL and EBREAK have no row, and the reserved halt word has row 15. -/
theorem controlTableRowsDisjoint : Obligations.ControlTableRowsDisjoint := by
  refine ⟨fun w i j hi hj => controlTable_hits_unique hi hj, fun i hi w hhalt hits => ?_, rfl, rfl⟩
  have noRow {v : Word} (hv : rowOf v = none) : controlTable[i].hits v ≠ true :=
    Bool.eq_false_iff.mp (rowOf_none.mp hv _ (List.getElem_mem hi))
  obtain rfl | rfl | rfl := (isHaltWord_iff w).mp hhalt
  · exact absurd hits (noRow rfl)
  · exact absurd hits (noRow rfl)
  · exact ⟨controlTable_hits_unique hi (by decide) hits (by decide), rfl⟩

/-- Settles O4, clause by clause: no row has the word's opcode, or none of its opcode's rows its other fields. -/
theorem reservedWordsHaveNoRow : Obligations.ReservedWordsHaveNoRow := by
  intro w h0 hhalt hreserved
  have hrow : rowOf w = none := by
    obtain hop | h := hreserved
    · have opcodes : ∀ r ∈ controlTable, r.opcode ∈ [0b0110111#7, 0b0010111#7, 0b1101111#7, 0b1100111#7, 0b1100011#7,
          0b0000011#7, 0b0100011#7, 0b0010011#7, 0b0110011#7] := by decide
      exact rowOf_none_of_opcode fun r hr heq => hop (heq ▸ opcodes r hr)
    · rw [rowOf_eq]
      generalize funct3Of w = f3, bit30Of w = b30, bit25Of w = b25 at h ⊢
      obtain ⟨hop, h⟩ | ⟨hop, h⟩ | ⟨hop, h⟩ | ⟨hop, h⟩ | ⟨hop, h⟩ | ⟨hop, h⟩ := h
      all_goals
        rw [hop]
        revert f3 b30 b25
        decide
  rw [decodeControl_of_noRow h0 hhalt hrow]
  exact ⟨decode_of_noRow h0 hhalt hrow, rfl⟩

/-! ### The decoded control, form by form (R109 to R112) -/

/-- What a word's decoded control can be. -/
inductive ControlForm (w : Word) : DecodedControl → Prop
  /-- A halt word's (R111). -/
  | halt (hhalt : isHaltWord w = true) : ControlForm w (DecodedControl.halt w)
  /-- The zero word's is the canonical NOP's (R110). -/
  | zero (h0 : w = 0) : ControlForm w ((Row.opImm 0b000 .addi .add).control nopWord)
  /-- A row's (R113). -/
  | row (r : Row) (h0 : w ≠ 0) (hhalt : isHaltWord w = false) (hrow : rowOf w = some r) : ControlForm w (r.control w)
  /-- The all-zero control point (R139). -/
  | noRow (h0 : w ≠ 0) (hhalt : isHaltWord w = false) (hrow : rowOf w = none) : ControlForm w (DecodedControl.inert w)

theorem decodeControl_form (w : Word) : ControlForm w (decodeControl w) := by
  by_cases h0 : w = 0
  · subst h0
    exact .zero rfl
  · cases hhalt : isHaltWord w with
    | true => rw [decodeControl_of_halt hhalt]; exact .halt hhalt
    | false =>
      cases hrow : rowOf w with
      | none => rw [decodeControl_of_noRow h0 hhalt hrow]; exact .noRow h0 hhalt hrow
      | some r =>
        rw [decodeControl_of_row h0 hhalt hrow]
        exact .row r h0 hhalt hrow

/-- The row a word selects is one of the table with the word's opcode (R113). -/
theorem rowOf_some_opcode {w : Word} {r : Row} (h : rowOf w = some r) : r ∈ controlTable ∧ opcodeOf w = r.opcode := by
  obtain ⟨hmem, hits⟩ := rowOf_some h
  exact ⟨hmem, opcodeOf_of_hits hits⟩

/-- A word that selects a row is not decoded as one with no row (R117). -/
theorem decode_ne_noRow_of_row {w : Word} {r : Row} (h : rowOf w = some r) : decode w ≠ .noRow w := by
  intro hd
  obtain ⟨-, -, hnone⟩ := decode_noRow hd
  cases hnone.symm.trans h

/-- Settles O5: only the halt words' control sets the flag, and it is inert beside it. -/
theorem haltFlagExactly : Obligations.HaltFlagExactly := by
  intro w
  rw [← isHaltWord_iff]
  have hform := decodeControl_form w
  generalize decodeControl w = d at hform ⊢
  cases hform with
  | halt hhalt => exact ⟨⟨fun _ => hhalt, fun _ => rfl⟩, fun _ => ⟨rfl, rfl, rfl, rfl, rfl⟩⟩
  | zero h0 => subst h0; exact ⟨⟨nofun, nofun⟩, nofun⟩
  | row _ _ hhalt | noRow _ hhalt => rw [hhalt]; exact ⟨⟨nofun, nofun⟩, nofun⟩

/-- Settles O6: the rows that write no destination are those of the branches and the stores. -/
theorem destRegIsZeroWithoutWriteback : Obligations.DestRegIsZeroWithoutWriteback := by
  intro w
  have hform := decodeControl_form w
  generalize decodeControl w = d at hform ⊢
  cases hform with
  | halt hhalt => exact ⟨fun _ => rfl, fun i _ hn => absurd hhalt (Bool.eq_false_iff.mp hn)⟩
  | zero h0 => subst h0; exact ⟨fun _ => rfl, fun _ _ _ _ _ => rfl⟩
  | row r h0 hhalt hrow =>
    obtain ⟨hmem, hop⟩ := rowOf_some_opcode hrow
    have writes : ∀ r ∈ controlTable, r.writesRd = decide (r.opcode ≠ 0b1100011#7 ∧ r.opcode ≠ 0b0100011#7) := by
      decide
    have hdest : (r.control w).ctrl.destReg =
        if opcodeOf w ≠ 0b1100011#7 ∧ opcodeOf w ≠ 0b0100011#7 then rdOf w else 0 := by
      rw [Row.control, writes r hmem, hop]
      simp only [decide_eq_true_eq]
    rw [hdest]
    refine ⟨?_, fun i _ _ hbranch hstore => if_pos ⟨hbranch, hstore⟩⟩
    rintro (hbranch | hstore | htrue | hnoRow | hrd)
    · exact if_neg fun h => h.1 hbranch
    · exact if_neg fun h => h.2 hstore
    · exact absurd htrue (Bool.eq_false_iff.mp hhalt)
    · exact absurd hnoRow (decode_ne_noRow_of_row hrow)
    · rw [hrd, ite_self]
  | noRow h0 hhalt hrow =>
    refine ⟨fun _ => rfl, fun i hi => ?_⟩
    rw [decode_of_noRow h0 hhalt hrow] at hi
    cases hi

/-- Settles O7, by the used columns of the rows. -/
theorem usedFlagsFollowTheRow : Obligations.UsedFlagsFollowTheRow := by
  intro w
  have hform := decodeControl_form w
  generalize decodeControl w = d at hform ⊢
  cases hform with
  | halt hhalt => exact ⟨fun _ => ⟨rfl, rfl⟩, fun i _ hn => absurd hhalt (Bool.eq_false_iff.mp hn)⟩
  | zero h0 => subst h0; exact ⟨fun h => absurd h (by decide), fun _ hn => absurd rfl hn⟩
  | row r h0 hhalt hrow =>
    obtain ⟨hmem, hop⟩ := rowOf_some_opcode hrow
    have used : ∀ r ∈ controlTable,
        (r.used1 = true ↔
          r.opcode ∈ [0b1100111#7, 0b1100011#7, 0b0000011#7, 0b0100011#7, 0b0010011#7, 0b0110011#7]) ∧
        (r.used2 = true ↔ r.opcode ∈ [0b1100011#7, 0b0100011#7, 0b0110011#7]) := by decide
    refine ⟨?_, fun i _ _ _ => by rw [hop]; exact used r hmem⟩
    rintro (htrue | hnoRow)
    · exact absurd htrue (Bool.eq_false_iff.mp hhalt)
    · exact absurd hnoRow (decode_ne_noRow_of_row hrow)
  | noRow h0 hhalt hrow =>
    refine ⟨fun _ => ⟨rfl, rfl⟩, fun i _ _ hi => ?_⟩
    rw [decode_of_noRow h0 hhalt hrow] at hi
    cases hi

/-- Settles O3: the decoder runs on each word. -/
theorem wordsDecodeAsWritten : Obligations.WordsDecodeAsWritten := by
  unfold Obligations.WordsDecodeAsWritten
  decide

end Sys2Proof

namespace Sys2Proof.Machine

/-! ### Decoded control (R111, R113, R133) -/

theorem ControlInv.inert : ControlInv ControlPacket.inert :=
  ⟨fun _ => rfl, nofun, fun h => absurd rfl h, fun h => absurd rfl h⟩

theorem ControlInv.of_row {r : Row} (hr : r ∈ controlTable) (w : Word) : ControlInv (r.control w).ctrl := by
  have store : ∀ r ∈ controlTable, r.mem = .store → r.writesRd = false := by decide
  have memory : ∀ r ∈ controlTable, r.mem ≠ .none → r.br = .none ∧ r.alu = .add := by decide
  have transfer : ∀ r ∈ controlTable, r.br ≠ .none → r.mem = .none ∧ r.alu = .add := by decide
  exact ⟨fun h => by rw [Row.control, store r hr h]; rfl, nofun, memory r hr, transfer r hr⟩

theorem ControlInv.of_decodeControl (w : Word) : ControlInv (decodeControl w).ctrl := by
  have hform := decodeControl_form w
  generalize decodeControl w = d at hform ⊢
  cases hform with
  | halt => exact ⟨fun _ => rfl, fun _ => ⟨rfl, rfl, rfl⟩, fun h => absurd rfl h, fun h => absurd rfl h⟩
  | zero => exact .of_row (rowOf_some (w := nopWord) rfl).1 nopWord
  | row r _ _ hrow => exact .of_row (rowOf_some hrow).1 w
  | noRow => exact .inert

/-- The operation asked of a unit is none of a memory access (R131, R136). -/
theorem ControlInv.memOp_of_unit {c : ControlPacket} (hc : ControlInv c)
    (h : (mulRequest c.aluOp).isSome = true ∨ (divRequest c.aluOp).isSome = true) : c.memOp = .none := by
  by_contra hmem
  obtain ⟨-, hadd⟩ := hc.memoryOnly hmem
  rw [hadd] at h
  exact absurd h (by decide)

/-! ### The latches (R36, R133, R256, R354) -/

/-- What `PipeInv` says of the packet in ID/EX. -/
structure IdEx.Legal (x : IdEx) : Prop where
  aligned : Aligned x.pc
  control : ControlInv x.ctrl
  marked : x.fault ≠ none → x.ctrl = IdEx.bubble.ctrl

theorem IdEx.Legal.bubble : IdEx.bubble.Legal := ⟨rfl, .inert, fun _ => rfl⟩

theorem IdEx.Legal.packetOf (s : State) {p : FetchPacket} (hp : Aligned p.pc) : (s.packetOf p).Legal := by
  unfold State.packetOf
  cases s.decodeFault p with
  | some f => exact ⟨hp, .inert, fun _ => rfl⟩
  | none => exact ⟨hp, { ControlInv.of_decodeControl p.inst with }, fun h => absurd rfl h⟩

/-- What `PipeInv` says of the packet in EX/MEM. -/
structure ExMem.Legal (cfg : Config) (e : ExMem) : Prop where
  aligned : Aligned e.pc
  inert : (e.fault ≠ none ∨ e.haltFlag = true) → e.destReg = 0 ∧ e.memOp = .none
  storeDest : e.memOp = .store → e.destReg = 0
  access : e.memOp ≠ .none → accessFault cfg 0 e.result e.memWidth = none

theorem ExMem.Legal.bubble (cfg : Config) : ExMem.bubble.Legal cfg :=
  ⟨rfl, fun _ => ⟨rfl, rfl⟩, fun _ => rfl, fun h => absurd rfl h⟩

theorem ExMem.Legal.marked {cfg : Config} {pc : Word} (hpc : Aligned pc) (f : Fault) (v : Word) :
    (ExMem.marked f pc v).Legal cfg :=
  ⟨hpc, fun _ => ⟨rfl, rfl⟩, fun _ => rfl, fun h => absurd rfl h⟩

theorem ExMem.Legal.ofControl {cfg : Config} {c : ControlPacket} {pc v : Word} (hc : ControlInv c) (hpc : Aligned pc)
    (haccess : c.memOp ≠ .none → accessFault cfg pc v c.memWidth = none) : (ExMem.ofControl c pc v).Legal cfg where
  aligned := hpc
  inert h := by
    obtain hfault | hhalt := h
    · exact absurd rfl hfault
    · obtain ⟨hdest, hmem, -⟩ := hc.haltInert hhalt
      exact ⟨hdest, hmem⟩
  storeDest := hc.storeDest
  access h := (accessFault_pc ..).mp (haccess h)

/-- A packet that accesses no memory is legal whatever its result. -/
theorem ExMem.Legal.of_no_access {cfg : Config} {c : ControlPacket} {pc : Word} (hc : ControlInv c) (hpc : Aligned pc)
    (hmem : c.memOp = .none) (v : Word) : (ExMem.ofControl c pc v).Legal cfg :=
  .ofControl hc hpc fun h => absurd hmem h

/-- The access of a legal packet lies within the data memory, or has length 0 (R88, R256). -/
theorem ExMem.Legal.storeAccess_room {cfg : Config} {e : ExMem} (h : e.Legal cfg) :
    e.storeAccess.2 = 0 ∨ e.storeAccess.1 + e.storeAccess.2 ≤ 4 * cfg.dmemDepth := by
  unfold ExMem.storeAccess
  cases hop : e.memOp with
  | none | load => exact .inl rfl
  | store => exact .inr (accessFault_room (h.access (by rw [hop]; nofun)))

/-! ### The units (R290, R291, R311) -/

/-- The multiplier is busy in stages 1 to 3 and ready in stage 3 only (R290, R291). -/
structure Multiplier.Consistent (m : Multiplier) : Prop where
  busy : m.busy = true ↔ m.stage ≠ 0
  ready : m.ready = true ↔ m.stage = 3

/-- What the multiplier was asked (R280). -/
def Multiplier.request (m : Multiplier) : MulRequest :=
  { aSigned := m.aSigned, bSigned := m.bSigned, wantHigh := m.wantHigh }

theorem Multiplier.request_tick (m : Multiplier) : m.tick.request = m.request := by
  obtain ⟨-, ha, hb, hh⟩ := m.tick_request
  simp only [request, ha, hb, hh]

theorem Multiplier.busy_tick (m : Multiplier) : m.tick.busy = m.busy := m.tick_request.1

theorem Multiplier.Consistent.tick {m : Multiplier} (h : m.Consistent) : m.tick.Consistent := by
  obtain ⟨hbusy, hready⟩ := h
  unfold Multiplier.tick
  split
  · next h1 =>
    rw [h1] at hbusy hready
    exact ⟨hbusy.trans (by simp), hready.trans (by simp)⟩
  · split
    · next h2 =>
      rw [h2] at hbusy
      exact ⟨hbusy.trans (by simp), ⟨fun _ => rfl, fun _ => rfl⟩⟩
    · exact ⟨hbusy, hready⟩

theorem Multiplier.Consistent.accept {m : Multiplier} (hready : m.ready = false) (q : MulRequest) (a b : Word) :
    (m.accept q a b).Consistent where
  busy := by simp [Multiplier.accept]
  ready := by simp [Multiplier.accept, hready]

theorem Multiplier.Consistent.consume (m : Multiplier) : m.consume.Consistent where
  busy := by simp [Multiplier.consume]
  ready := by simp [Multiplier.consume]

/-- The iteration counter of a working divider (R311). -/
def Divider.CountBounded (impl : DivImpl) (d : Divider) : Prop :=
  d.state = .working → 1 ≤ d.count ∧ d.count ≤ impl.iterations

theorem one_le_iterations (impl : DivImpl) : 1 ≤ impl.iterations := by cases impl <;> decide

theorem Divider.CountBounded.tick {impl : DivImpl} {d : Divider} (h : d.CountBounded impl) :
    (d.tick impl).CountBounded impl := by
  unfold Divider.tick
  split
  · exact fun _ => ⟨one_le_iterations impl, Nat.le_refl impl.iterations⟩
  · next hw =>
    obtain ⟨hlow, hhigh⟩ := h hw
    intro hstate
    have hne : d.count ≠ 1 := by
      intro h1
      simp [Divider.iterate, h1] at hstate
    exact ⟨show 1 ≤ d.count - 1 by omega, show d.count - 1 ≤ _ by omega⟩
  · exact h

theorem Divider.CountBounded.accept {impl : DivImpl} (d : Divider) (q : DivRequest) (a b : Word) :
    (d.accept q a b).CountBounded impl := by
  unfold Divider.accept
  split
  · nofun
  · split <;> nofun

/-! ### What EX writes (R287 to R291, R306 to R316, R387 to R390) -/

section ExecutionStage

variable {s : State} {x : IdEx} {a b : Word} {o : ExOut}

theorem ExEffect.em_legal (h : ExEffect s x a b o) (hc : ControlInv x.ctrl) (hpc : Aligned x.pc) : o.em.Legal s.cfg := by
  cases h with
  | marked | transferMarked | memoryMarked => exact .marked hpc _ _
  | mulWait | mulStart | divWait | divStart => exact .bubble _
  | mulDone q _ hq => exact .of_no_access hc hpc (hc.memOp_of_unit (.inl (by rw [hq]; rfl))) _
  | divDone q _ _ hq => exact .of_no_access hc hpc (hc.memOp_of_unit (.inr (by rw [hq]; rfl))) _
  | transfer _ _ _ _ _ _ hk => exact .of_no_access hc hpc (hc.transferOnly hk).1 _
  | memory address _ _ _ _ _ hl => exact .ofControl hc hpc fun _ => hl
  | other v _ _ _ _ ho => exact .of_no_access hc hpc ho v

/-- EX redirects IF only for a transfer, which holds nothing (R215, R216). -/
theorem ExEffect.redirect (h : ExEffect s x a b o) (hbt : o.btReg ≠ 0) :
    o.hold = false ∧ x.ctrl.branchKind ≠ .none := by
  cases h with
  | transfer _ _ _ _ _ _ hk => exact ⟨rfl, hk⟩
  | _ => exact absurd rfl hbt

theorem ExEffect.btReg_aligned (h : ExEffect s x a b o) (hpc : Aligned x.pc) : Aligned o.btReg := by
  cases h with
  | transfer link target taken _ _ _ _ ha =>
    show Aligned (if _ then _ else _)
    split
    · exact hpc.resolvedNext ha
    · rfl
  | _ => rfl

theorem ExEffect.predictor_inv (h : ExEffect s x a b o) (hp : PredictorInv s.cfg s.predictor) :
    PredictorInv s.cfg o.predictor := by
  cases h with
  | transfer link target taken _ _ _ _ ha => exact train_inv hp x.pc target taken ha
  | _ => exact hp

/-- EX leaves data memory, or stores at a legal address (R254, R256). -/
theorem ExEffect.dmem_cases (h : ExEffect s x a b o) :
    o.dmem = s.dmem ∨ ∃ address, accessFault s.cfg x.pc address x.ctrl.memWidth = none ∧
      o.dmem = s.dmem.store address x.ctrl.memWidth b := by
  cases h with
  | memory address _ _ _ _ _ hl =>
    by_cases hstore : x.ctrl.memOp = .store
    · exact .inr ⟨address, hl, if_pos hstore⟩
    · exact .inl (if_neg hstore)
  | _ => exact .inl rfl

theorem ExEffect.mul_consistent (h : ExEffect s x a b o) (hm : s.mul.Consistent) : o.mul.Consistent := by
  cases h with
  | mulDone => exact .consume _
  | mulStart q _ _ hr => exact .accept hr ..
  | _ => exact hm.tick

theorem ExEffect.div_countBounded (h : ExEffect s x a b o) (hd : s.div.CountBounded s.cfg.divImpl) :
    o.div.CountBounded s.cfg.divImpl := by
  cases h with
  | divDone => nofun
  | divStart q => exact .accept s.div q a b
  | _ => exact hd.tick

/-- A multiplier that is busy behind a cycle holds the instruction in EX, which asked for its product (R287, R289). -/
theorem ExEffect.mul_held (h : ExEffect s x a b o)
    (hheld : s.mul.busy = true → x.fault = none ∧ mulRequest x.ctrl.aluOp = some s.mul.request)
    (hbusy : o.mul.busy = true) : o.hold = true ∧ x.fault = none ∧ mulRequest x.ctrl.aluOp = some o.mul.request := by
  have hidle (hno : x.fault ≠ none ∨ mulRequest x.ctrl.aluOp = none) : s.mul.tick.busy ≠ true := by
    rw [Multiplier.busy_tick]
    intro hb
    obtain ⟨hf, hq⟩ := hheld hb
    obtain hno | hno := hno
    · exact hno hf
    · cases hno.symm.trans hq
  cases h with
  | marked f v hf => exact absurd hbusy (hidle (.inl (by rw [hf]; nofun)))
  | mulDone => cases hbusy
  | mulWait q hf _ _ hb => exact ⟨rfl, hf, (hheld hb).2.trans (congrArg some s.mul.request_tick.symm)⟩
  | mulStart q hf hq => exact ⟨rfl, hf, hq⟩
  | divDone _ _ hm | divStart _ _ hm | divWait _ _ hm | transferMarked _ _ _ hm | transfer _ _ _ _ hm
  | memoryMarked _ _ _ hm | memory _ _ hm | other _ _ hm => exact absurd hbusy (hidle (.inr hm))

/-- A divider that is not idle behind a cycle holds the instruction in EX, which asked for its result (R287, R289). -/
theorem ExEffect.div_held (h : ExEffect s x a b o)
    (hheld : s.div.state ≠ .idle → x.fault = none ∧ (divRequest x.ctrl.aluOp).isSome = true)
    (hbusy : o.div.state ≠ .idle) : o.hold = true ∧ x.fault = none ∧ (divRequest x.ctrl.aluOp).isSome = true := by
  have hidle (hno : x.fault ≠ none ∨ divRequest x.ctrl.aluOp = none) : (s.div.tick s.cfg.divImpl).state = .idle := by
    rw [Divider.tick_idle]
    by_contra hb
    obtain ⟨hf, hq⟩ := hheld hb
    obtain hno | hno := hno
    · exact hno hf
    · rw [hno] at hq; cases hq
  cases h with
  | marked f v hf => exact absurd (hidle (.inl (by rw [hf]; nofun))) hbusy
  | mulDone _ _ hq | mulWait _ _ hq | mulStart _ _ hq =>
    exact absurd (hidle (.inr (divRequest_of_mulRequest (by rw [hq]; rfl)))) hbusy
  | divDone => exact absurd rfl hbusy
  | divStart _ hf _ hq | divWait _ hf _ hq => exact ⟨rfl, hf, by rw [hq]; rfl⟩
  | transferMarked _ _ _ _ hd | transfer _ _ _ _ _ hd | memoryMarked _ _ _ _ hd | memory _ _ _ hd | other _ _ _ hd =>
    exact absurd (hidle (.inr hd)) hbusy

end ExecutionStage

/-! ### A cycle keeps the invariant of the cycle level -/

/-- EX in a cycle that is no flush runs the instruction in ID/EX, and a held one stays there (R287, R396). -/
theorem execute_held {s : State} (hhold : s.execute.hold = true) :
    s.execute.btReg = 0 ∧ s.exInstr = s.pipe.de ∧ s.nextDe s.execute.hold = s.pipe.de := by
  have hflush := flush_of_hold hhold
  obtain ⟨-, ⟨m, d, ho⟩, -⟩ := (execute_effect s).of_hold hhold
  refine ⟨by rw [ho]; rfl, by rw [State.exInstr, hflush]; rfl, ?_⟩
  rw [State.nextDe, hflush, hhold]
  rfl

section PipeInvKept

variable {s : State} (h : PipeInv s)

include h

theorem PipeInv.de_legal : s.pipe.de.Legal := ⟨h.deAligned, h.deControl, h.deMarked⟩

theorem PipeInv.em_legal : s.pipe.em.Legal s.cfg := ⟨h.emAligned, h.emInert, h.emStoreDest, h.emAccess⟩

theorem PipeInv.exInstr_legal : s.exInstr.Legal := by
  unfold State.exInstr
  split
  · exact .bubble
  · exact h.de_legal

theorem PipeInv.execute_em_legal : s.execute.em.Legal s.cfg :=
  (execute_effect s).em_legal h.exInstr_legal.control h.exInstr_legal.aligned

theorem PipeInv.fetchAddress_aligned : Aligned s.fetchAddress := by
  unfold State.fetchAddress
  split
  · exact h.btAligned
  · split
    · exact h.prevAligned
    · exact h.pcAligned

theorem PipeInv.decodeSource_aligned : Aligned s.decodeSource.pc := by
  unfold State.decodeSource
  split
  · exact h.savedAligned
  · exact h.ifidAligned

theorem PipeInv.nextDe_legal (hold : Bool) : (s.nextDe hold).Legal := by
  unfold State.nextDe
  split
  · exact .bubble
  · split
    · exact h.de_legal
    · split
      · exact .bubble
      · exact .packetOf s h.decodeSource_aligned

/-- A load in EX redirects nothing, and neither does a unit that holds it (R420). -/
theorem PipeInv.btReg_of_stall (hstall : s.stall s.execute.hold = true) : s.execute.btReg = 0 := by
  by_contra hbt
  obtain ⟨hhold, hkind⟩ := (execute_effect s).redirect hbt
  simp only [State.stall, hhold, Bool.or_false, Bool.and_eq_true, Bool.not_eq_true', State.loadUse,
    decide_eq_true_eq] at hstall
  obtain ⟨hflush, hload, -⟩ := hstall
  have hx : s.exInstr = s.pipe.de := by rw [State.exInstr, hflush]; rfl
  rw [hx] at hkind
  exact hkind (h.deControl.memoryOnly (by rw [hload]; nofun)).1

theorem PipeInv.mul_consistent : s.mul.Consistent := ⟨h.mulBusy, h.mulReady⟩

/-- A busy multiplier holds the instruction in EX (R287, R289). -/
theorem PipeInv.mul_in_ex (hbusy : s.mul.busy = true) :
    s.exInstr.fault = none ∧ mulRequest s.exInstr.ctrl.aluOp = some s.mul.request := by
  obtain ⟨hbt, hheld⟩ := h.mulHeld hbusy
  rwa [State.exInstr, (flush_eq_false s).mpr hbt]

/-- A divider that is not idle holds the instruction in EX (R287, R289). -/
theorem PipeInv.div_in_ex (hbusy : s.div.state ≠ .idle) :
    s.exInstr.fault = none ∧ (divRequest s.exInstr.ctrl.aluOp).isSome = true := by
  obtain ⟨hbt, hheld⟩ := h.divHeld hbusy
  rwa [State.exInstr, (flush_eq_false s).mpr hbt]

/-- A cycle of every stage keeps the sequential invariant (R31, R39, R77). -/
theorem PipeInv.clock_inv : Inv s.clock where
  imemWf := by rw [s.clock_imem]; exact h.imemWf
  dmemWf := by
    show s.execute.dmem.wf = true
    obtain heq | ⟨address, -, heq⟩ := (execute_effect s).dmem_cases
    · rw [heq]; exact h.dmemWf
    · rw [heq]; exact Memory.wf_store _ _ _ _ h.dmemWf
  imemBelow := by rw [s.clock_imem, s.clock_cfg]; exact h.imemBelow
  dmemBelow := by
    rw [s.clock_cfg]
    show Table.below _ s.execute.dmem = true
    obtain heq | ⟨address, legal, heq⟩ := (execute_effect s).dmem_cases
    · rw [heq]; exact h.dmemBelow
    · rw [heq]; exact Memory.below_store _ _ legal h.dmemBelow
  zeroReg := State.writeReg_zeroReg s _ _ h.zeroReg
  pcAligned := predict_aligned h.predictor _ h.fetchAddress_aligned
  predictor := by rw [s.clock_cfg]; exact (execute_effect s).predictor_inv h.predictor

/-- A cycle of every stage keeps the invariant. -/
theorem PipeInv.clock : PipeInv s.clock where
  toInv := h.clock_inv
  prevAligned := h.fetchAddress_aligned
  ifidAligned := h.fetchAddress_aligned
  savedAligned := h.decodeSource_aligned
  deAligned := (h.nextDe_legal _).aligned
  emAligned := h.execute_em_legal.aligned
  mwAligned := h.emAligned
  btAligned := (execute_effect s).btReg_aligned h.exInstr_legal.aligned
  stallNoFlush := h.btReg_of_stall
  deControl := (h.nextDe_legal _).control
  deMarked := (h.nextDe_legal _).marked
  emInert := h.execute_em_legal.inert
  emStoreDest := h.execute_em_legal.storeDest
  emAccess := by rw [s.clock_cfg]; exact h.execute_em_legal.access
  mwInert hm := (h.emInert hm).1
  mulBusy := ((execute_effect s).mul_consistent h.mul_consistent).busy
  mulReady := ((execute_effect s).mul_consistent h.mul_consistent).ready
  mulHeld hbusy := by
    obtain ⟨hhold, hf, hq⟩ := (execute_effect s).mul_held h.mul_in_ex hbusy
    obtain ⟨hbt, hx, hde⟩ := execute_held hhold
    rw [hx] at hf hq
    show s.execute.btReg = 0 ∧ (s.nextDe s.execute.hold).fault = none ∧
      mulRequest (s.nextDe s.execute.hold).ctrl.aluOp = some s.execute.mul.request
    rw [hde]
    exact ⟨hbt, hf, hq⟩
  divHeld hbusy := by
    obtain ⟨hhold, hf, hq⟩ := (execute_effect s).div_held h.div_in_ex hbusy
    obtain ⟨hbt, hx, hde⟩ := execute_held hhold
    rw [hx] at hf hq
    show s.execute.btReg = 0 ∧ (s.nextDe s.execute.hold).fault = none ∧
      (divRequest (s.nextDe s.execute.hold).ctrl.aluOp).isSome = true
    rw [hde]
    exact ⟨hbt, hf, hq⟩
  divCount := by rw [s.clock_cfg]; exact (execute_effect s).div_countBounded h.divCount

/-- The bytes a halt leaves unspecified lie within the data memory (R88, R256). -/
theorem PipeInv.youngerStores_room : ∀ r ∈ s.youngerStores, r.2 = 0 ∨ r.1 + r.2 ≤ 4 * s.cfg.dmemDepth := by
  intro r hr
  obtain rfl | hr := List.mem_cons.mp hr
  · exact h.em_legal.storeAccess_room
  · obtain rfl | hr := List.mem_cons.mp hr
    · exact h.execute_em_legal.storeAccess_room
    · exact s.storesBehind_room _ r hr

/-- A halt keeps the invariant: it changes data memory alone of what the invariant speaks of (R333, R355). -/
theorem PipeInv.haltCycle : PipeInv s.haltCycle :=
  { h with
    dmemWf := Memory.wf_forgetAll _ _ _ h.dmemWf
    dmemBelow := Memory.below_forgetAll _ _ _ _ h.youngerStores_room h.dmemBelow }

end PipeInvKept

/-- Settles O57: a cycle is a halt's or every stage's, and each keeps the invariant. -/
theorem cycleKeepsPipeInv : Obligations.CycleKeepsPipeInv := by
  intro s t hinv hcycle
  obtain ⟨-, -, ⟨-, rfl⟩ | ⟨-, rfl⟩⟩ := cycle_next hcycle
  · exact hinv.haltCycle
  · exact hinv.clock

end Sys2Proof.Machine

namespace Sys2Proof.Machine

/-! ### The ALU's table (R161) -/

/-- Settles O11, function by function: NONE's row is the definition's, and the shifters' amount is b modulo 32. -/
theorem aluFunctions : Obligations.AluFunctions := by
  intro a b
  have hamount : shiftAmount b = b.toNat % 32 := shiftAmount_eq b
  rw [← hamount]
  exact ⟨rfl, aluFn_add_toNat a b, aluFn_sub_toNat a b, aluFn_sll_toNat a b, aluFn_slt_eq a b, aluFn_sltu_eq a b,
    aluFn_srl_toNat a b, aluFn_sra_toInt a b, aluFn_xor_getLsbD a b, aluFn_or_getLsbD a b, aluFn_and_getLsbD a b⟩

end Sys2Proof.Machine

namespace Sys2Proof.Machine

/-! ### The conditional branches (R201 to R206, R209 to R214) -/

theorem branchTaken_eq_iff (a b : Word) : branchTaken .eq a b = true ↔ a = b := beq_iff_eq

theorem branchTaken_ne_iff (a b : Word) : branchTaken .ne a b = true ↔ a ≠ b := bne_iff_ne

theorem branchTaken_lt_iff (a b : Word) : branchTaken .lt a b = true ↔ a.toInt < b.toInt := decide_eq_true_iff

theorem branchTaken_ge_iff (a b : Word) : branchTaken .ge a b = true ↔ b.toInt ≤ a.toInt := by
  simp [branchTaken, lessSigned]

theorem branchTaken_ltu_iff (a b : Word) : branchTaken .ltu a b = true ↔ a.toNat < b.toNat := decide_eq_true_iff

theorem branchTaken_geu_iff (a b : Word) : branchTaken .geu a b = true ↔ b.toNat ≤ a.toNat := by
  simp [branchTaken, lessUnsigned]

/-- With both sources held a branch is the transfer of its condition and target (R201, R202). -/
theorem branch_held {s : State} {rs1 rs2 : Reg} (h1 : s.holds rs1 = true) (h2 : s.holds rs2 = true) (kind : BranchKind)
    (offset : BitVec 13) :
    s.branch kind rs1 rs2 offset =
      s.transfer 0 (branchTaken kind (s.reg rs1) (s.reg rs2)) (s.pc + offset.signExtend 32) := by
  rw [State.branch, readFault2_held _ _ _ _ h1 h2, orFault_none]; rfl

/-- A taken transfer to 0 stops with RedirectToZero, since 0 is a multiple of 4 (R206, R357). -/
theorem transfer_taken_zero (s : State) (rd : Reg) {target : Word} (h0 : target = 0) :
    s.transfer rd true target = .fault (.redirectToZero s.pc) :=
  transfer_zero s rd true target (fun _ => by rw [h0]; rfl) h0

section BranchInstructions

variable {mk : Reg → Reg → BitVec 13 → Instr} {kind : BranchKind} {cond : Word → Word → Prop}
  (hexec : ∀ rs1 rs2 offset s, exec (mk rs1 rs2 offset) s = s.branch kind rs1 rs2 offset)
  (hcond : ∀ a b, branchTaken kind a b = true ↔ cond a b)

include hexec hcond

/-- A branch that resolves to a legal PC completes (R203). -/
theorem BranchForm.of_branch : BranchForm mk cond := by
  intro s rs1 rs2 offset taken h1 h2 htaken hjump hfall
  have hkind : branchTaken kind (s.reg rs1) (s.reg rs2) = taken :=
    Bool.eq_iff_iff.mpr ((hcond _ _).trans htaken.symm)
  have hnext : resolvedNext taken s.pc (s.pc + offset.signExtend 32) ≠ 0 := by
    cases taken with
    | false => exact hfall rfl
    | true => exact (hjump rfl).2
  rw [hexec, branch_held h1 h2, hkind]
  exact ⟨_, (transfer_next ..).mpr ⟨fun ht => (hjump ht).1, hnext, rfl⟩, transferred_transfers ..⟩

/-- A branch stops on a misaligned taken target (R205), and where it resolves to 0 (R206). -/
theorem BranchFaults.of_branch : BranchFaults mk cond := by
  intro s rs1 rs2 offset h1 h2
  rw [hexec, branch_held h1 h2, ← hcond]
  refine ⟨fun ht hmis => ?_, fun ht h0 => ?_, fun hnot h0 => ?_⟩
  · rw [ht]; exact transfer_misaligned _ _ _ hmis
  · rw [ht]; exact transfer_taken_zero _ _ h0
  · rw [Bool.eq_false_iff.mpr hnot]; exact transfer_zero _ _ _ _ nofun h0

end BranchInstructions

/-- What holds of every `State.branch` under its condition holds of the six branches under theirs (R209 to R214). -/
theorem forall_branches {P : (Reg → Reg → BitVec 13 → Instr) → (Word → Word → Prop) → Prop}
    (h : ∀ {mk kind cond}, (∀ rs1 rs2 offset s, exec (mk rs1 rs2 offset) s = s.branch kind rs1 rs2 offset) →
      (∀ a b, branchTaken kind a b = true ↔ cond a b) → P mk cond) :
    P .beq (fun a b => a = b) ∧ P .bne (fun a b => a ≠ b) ∧
    P .blt (fun a b => a.toInt < b.toInt) ∧ P .bge (fun a b => b.toInt ≤ a.toInt) ∧
    P .bltu (fun a b => a.toNat < b.toNat) ∧ P .bgeu (fun a b => b.toNat ≤ a.toNat) :=
  ⟨h (fun _ _ _ _ => rfl) branchTaken_eq_iff, h (fun _ _ _ _ => rfl) branchTaken_ne_iff,
    h (fun _ _ _ _ => rfl) branchTaken_lt_iff, h (fun _ _ _ _ => rfl) branchTaken_ge_iff,
    h (fun _ _ _ _ => rfl) branchTaken_ltu_iff, h (fun _ _ _ _ => rfl) branchTaken_geu_iff⟩

/-- Settles O26: every branch is `State.branch` with its own condition. -/
theorem branchResults : Obligations.BranchResults := forall_branches (P := BranchForm) BranchForm.of_branch

/-- Settles O27: past the check of its sources each instruction is one call of `State.transfer`. -/
theorem transferFaults : Obligations.TransferFaults := by
  refine ⟨fun s rd offset => ⟨transfer_misaligned s rd _, transfer_taken_zero s rd⟩, ?_,
    forall_branches (P := BranchFaults) BranchFaults.of_branch⟩
  intro s rd rs1 imm target h1 htarget
  have hexec : exec (.jalr rd rs1 imm) s = s.transfer rd true target := by
    have heq : jalrTarget (s.reg rs1) (sext12 imm) = target :=
      BitVec.eq_of_toNat_eq ((jalrTarget_toNat ..).trans htarget.symm)
    rw [← heq]
    exact (congrArg (orFault · _) (readFault_held s s.pc rs1 h1)).trans (orFault_none _)
  rw [hexec]
  exact ⟨transfer_misaligned s rd target, transfer_taken_zero s rd⟩

/-! ### The branch target buffer (R218, R220 to R222) -/

/-- The BTB's entries after a taken transfer (R222). -/
theorem entry_train_taken (cfg : Config) (pr : Predictor) (p q target : Word) :
    (pr.train cfg p true target).entry cfg q =
      if btbIndex cfg q = btbIndex cfg p then { valid := true, tag := p, target := target } else pr.entry cfg q := by
  rw [Predictor.entry, train_btb, if_pos rfl, writeBtb_btb, Table.get_set]; rfl

theorem entry_train_taken_self (cfg : Config) (pr : Predictor) (p target : Word) :
    (pr.train cfg p true target).entry cfg p = { valid := true, tag := p, target := target } := by
  rw [entry_train_taken, if_pos rfl]

theorem hit_train_taken_self (cfg : Config) (pr : Predictor) (p target : Word) :
    (pr.train cfg p true target).hit cfg p = true := by
  rw [Predictor.hit, entry_train_taken_self]; exact beq_self_eq_true p

/-- Settles O42: an entry is the table's reading of its PC's index. -/
theorem btbRoundTrip : Obligations.BtbRoundTrip := fun cfg pr p target =>
  ⟨hit_train_taken_self cfg pr p target, fun q => entry_train_taken cfg pr p q target,
    train_btb pr cfg p target false⟩

/-! ### The direction predictors (R225 to R229) -/

/-- A counter as a number after one of its table moved (R225). -/
theorem counterAt_train_val (t : Table Counter) (i j : Nat) (up : Bool) :
    (counterAt (trainCounter t i up) j).val =
      if j = i then (if up then min 3 ((counterAt t j).val + 1) else (counterAt t j).val - 1)
      else (counterAt t j).val := by
  rw [counterAt_train]
  split
  · next h => rw [h, sat_val]
  · rfl

theorem counterAt_train_of_ne (t : Table Counter) {i j : Nat} (up : Bool) (hj : j ≠ i) :
    counterAt (trainCounter t i up) j = counterAt t j := by
  rw [counterAt_train, if_neg hj]

/-- The BTB write and the direction update act on different tables (R218). -/
theorem train_eq_trainDirection_with_btb (pr : Predictor) (cfg : Config) (p target : Word) (taken : Bool) :
    pr.train cfg p taken target =
      { pr.trainDirection cfg p taken with btb := (pr.train cfg p taken target).btb } := by
  rw [train_btb]
  unfold Predictor.train Predictor.trainDirection
  cases taken <;> cases cfg.predictor <;> rfl

section TwoBit

variable {cfg : Config} (h : cfg.predictor = .twoBit)

include h

/-- R226 with R225's "at least 2". -/
theorem dirTaken_twoBit (pr : Predictor) (p : Word) :
    pr.dirTaken cfg p = decide (2 ≤ (counterAt pr.ctr (counterIndex cfg p)).val) := by
  unfold Predictor.dirTaken; rw [h]; rfl

theorem train_ctr_twoBit (pr : Predictor) (p target : Word) (taken : Bool) :
    (pr.train cfg p taken target).ctr = trainCounter pr.ctr (counterIndex cfg p) taken := by
  rw [train_eq_trainDirection_with_btb, Predictor.trainDirection, h]

end TwoBit

/-- Settles O43: prediction and update use the one counter of the PC's index. -/
theorem twoBitCounterUpdate : Obligations.TwoBitCounterUpdate := by
  intro cfg pr p target taken j h
  refine ⟨dirTaken_twoBit h pr p, ?_⟩
  rw [train_ctr_twoBit h]
  exact counterAt_train_val ..

/-- The index of the global table, by the kinds that have one (R227, R229). -/
theorem globalIndex_eq {cfg : Config} (h : cfg.predictor ≠ .twoBit) (pr : Predictor) (p : Word) :
    pr.globalIndex cfg p =
      if cfg.predictor = .tournament then pr.ghr else (pr.ghr ^^^ counterIndex cfg p) % 2 ^ cfg.ghrBits := by
  unfold Predictor.globalIndex
  cases hk : cfg.predictor with
  | twoBit => exact absurd hk h
  | tournament => rfl
  | tournamentGshare => rfl

section Tournament

variable {cfg : Config} (h : cfg.predictor ≠ .twoBit)

include h

/-- The chooser picks the global or the local counter (R227). -/
theorem dirTaken_tournament (pr : Predictor) (p : Word) :
    pr.dirTaken cfg p =
      if 2 ≤ (counterAt pr.chooser (counterIndex cfg p)).val
      then decide (2 ≤ (counterAt pr.globalTable (pr.globalIndex cfg p)).val)
      else decide (2 ≤ (counterAt pr.localTable (counterIndex cfg p)).val) := by
  unfold Predictor.dirTaken
  cases hk : cfg.predictor with
  | twoBit => exact absurd hk h
  | tournament | tournamentGshare => simp only [Counter.high, decide_eq_true_eq]

/-- The direction update of the tournament predictors (R228, R229). -/
theorem trainDirection_tournament (pr : Predictor) (p : Word) (taken : Bool) :
    pr.trainDirection cfg p taken =
      let i := counterIndex cfg p
      let g := pr.globalIndex cfg p
      let lp := Counter.high (counterAt pr.localTable i)
      let gp := Counter.high (counterAt pr.globalTable g)
      { pr with
        chooser := if lp != gp then trainCounter pr.chooser i (gp == taken) else pr.chooser
        localTable := trainCounter pr.localTable i taken
        globalTable := trainCounter pr.globalTable g taken
        ghr := (2 * pr.ghr + taken.toNat) % 2 ^ cfg.ghrBits } := by
  unfold Predictor.trainDirection
  cases hk : cfg.predictor with
  | twoBit => exact absurd hk h
  | tournament | tournamentGshare => cases taken <;> rfl

theorem train_localTable_tournament (pr : Predictor) (p target : Word) (taken : Bool) :
    (pr.train cfg p taken target).localTable = trainCounter pr.localTable (counterIndex cfg p) taken := by
  rw [train_eq_trainDirection_with_btb, trainDirection_tournament h]

theorem train_globalTable_tournament (pr : Predictor) (p target : Word) (taken : Bool) :
    (pr.train cfg p taken target).globalTable = trainCounter pr.globalTable (pr.globalIndex cfg p) taken := by
  rw [train_eq_trainDirection_with_btb, trainDirection_tournament h]

theorem train_ghr_tournament (pr : Predictor) (p target : Word) (taken : Bool) :
    (pr.train cfg p taken target).ghr = (2 * pr.ghr + taken.toNat) % 2 ^ cfg.ghrBits := by
  rw [train_eq_trainDirection_with_btb, trainDirection_tournament h]

/-- The chooser moves only where the two sides disagree (R228). -/
theorem train_chooser_tournament (pr : Predictor) (p target : Word) (taken : Bool) :
    (pr.train cfg p taken target).chooser =
      let lp := decide (2 ≤ (counterAt pr.localTable (counterIndex cfg p)).val)
      let gp := decide (2 ≤ (counterAt pr.globalTable (pr.globalIndex cfg p)).val)
      if lp = gp then pr.chooser else trainCounter pr.chooser (counterIndex cfg p) (gp == taken) := by
  rw [train_eq_trainDirection_with_btb, trainDirection_tournament h]
  simp only [Counter.high, bne_iff_ne, ne_eq, ite_not]

end Tournament

/-- Settles O44: each table is read after one counter of it moved; `g` is the global index of both kinds. -/
theorem tournamentUpdate : Obligations.TournamentUpdate := by
  intro cfg pr p target taken g h hg
  obtain rfl : g = pr.globalIndex cfg p := hg.trans (globalIndex_eq h pr p).symm
  intro i move lp gp u
  have hmove : ∀ (t : Table Counter) (k : Nat) (up : Bool),
      (counterAt (trainCounter t k up) k).val = move (counterAt t k) up :=
    fun t k up => (counterAt_train_val t k k up).trans (if_pos rfl)
  have hchooser : u.chooser = if lp = gp then pr.chooser else trainCounter pr.chooser i (gp == taken) :=
    train_chooser_tournament h pr p target taken
  refine ⟨dirTaken_tournament h pr p, ?_, ?_, ?_, train_ghr_tournament h pr p target taken, fun j hj => ⟨?_, ?_⟩,
    fun j hj => ?_⟩
  · rw [train_localTable_tournament h]; exact hmove ..
  · rw [train_globalTable_tournament h]; exact hmove ..
  · rw [hchooser]
    split
    · rfl
    · exact hmove ..
  · rw [train_localTable_tournament h]; exact counterAt_train_of_ne _ _ hj
  · rw [hchooser]
    split
    · rfl
    · exact counterAt_train_of_ne _ _ hj
  · rw [train_globalTable_tournament h]; exact counterAt_train_of_ne _ _ hj

/-! ### The prediction (R224, R231) -/

/-- Where the BTB holds the PC, the direction decides between its target and the next word (R224). -/
theorem predict_train_taken (cfg : Config) (pr : Predictor) (p target : Word) :
    (pr.train cfg p true target).predict cfg p =
      if (pr.train cfg p true target).dirTaken cfg p = true then target else p + 4 := by
  rw [Predictor.predict, hit_train_taken_self, Bool.true_and, entry_train_taken_self]

/-- Under TWO_BIT the counter of the PC after a taken transfer (R226). -/
theorem ctr_train_taken_val {cfg : Config} (h : cfg.predictor = .twoBit) (pr : Predictor) (p target : Word) :
    (counterAt (pr.train cfg p true target).ctr (counterIndex cfg p)).val =
      min 3 ((counterAt pr.ctr (counterIndex cfg p)).val + 1) := by
  rw [train_ctr_twoBit h, counterAt_train_val, if_pos rfl, if_pos rfl]

/-- Settles O45: from reset the counter is 1 after the first taken execution and 2, "predict taken",
after the second. -/
theorem predictionIsGated : Obligations.PredictionIsGated := by
  constructor
  · intro cfg pr p
    simp only [Predictor.predict, Predictor.hit, Bool.and_eq_true, beq_iff_eq, and_assoc]
  · intro cfg p target h once twice
    have hone : (counterAt once.ctr (counterIndex cfg p)).val = 1 := ctr_train_taken_val h Predictor.reset p target
    have htwo : (counterAt twice.ctr (counterIndex cfg p)).val = 2 := by
      rw [ctr_train_taken_val h once, hone]; rfl
    constructor
    · rw [predict_train_taken, dirTaken_twoBit h, hone]; rfl
    · rw [predict_train_taken, dirTaken_twoBit h, htwo]; rfl

/-! ### A control transfer in EX (R203, R215, R216, R218) -/

/-- EX passes an unmarked transfer's operands to the branch unit (R388). -/
theorem exOn_of_transfer {s : State} {x : IdEx} (hf : x.fault = none) (hk : x.ctrl.branchKind ≠ .none)
    (ha : x.ctrl.aluOp = .add) (a b : Word) :
    s.exOn x a b =
      s.exTransfer x a b (operand1 x.ctrl.op1Sel a x.pc + operand2 x.ctrl.op2Sel b x.imm) := by
  simp only [State.exOn, hf, ha, mulRequest, divRequest, if_pos hk, aluFn]

/-- EX on a transfer that is not taken to a misaligned target redirects IF on a miss and trains the predictor. -/
theorem exTransfer_of_aligned {s : State} {x : IdEx} {a b : Word} {taken : Bool} {target : Word}
    (htaken : branchTaken x.ctrl.branchKind a b = taken)
    (htarget : transferTarget x.ctrl.branchKind x.pc a x.imm = target)
    (halign : taken = true → Aligned target) (link : Word) :
    (s.exTransfer x a b link).btReg =
      (if resolvedNext taken x.pc target = x.ctrl.predictedNextPc then 0 else resolvedNext taken x.pc target) ∧
    (s.exTransfer x a b link).predictor = s.predictor.train s.cfg x.pc taken target := by
  have hlegal : (taken && misalignedPc target) = false := by
    cases taken with
    | false => rfl
    | true => simpa [misalignedPc] using (show target.toNat % 4 = 0 from halign rfl)
  simp only [State.exTransfer, htaken, htarget, hlegal, Bool.false_eq_true, if_false, bne_iff_ne, ne_eq, ite_not,
    and_self]

/-- Settles O51: with an aligned taken target the transfer is not marked, so EX compares its next PC with the
prediction. -/
theorem missWritesBranchTargetRegister : Obligations.MissWritesBranchTargetRegister := by
  intro s x a b hf hk ha taken next halign
  rw [exOn_of_transfer hf hk ha]
  refine exTransfer_of_aligned rfl rfl (fun ht => ?_) _
  have hnext : next = transferTarget x.ctrl.branchKind x.pc a x.imm := if_pos ht
  exact hnext ▸ halign ht

end Sys2Proof.Machine

namespace Sys2Proof.Machine

/-! ### The faults of a load or store (R250, R256) -/

/-- Alignment is checked first (R256). -/
theorem accessFault_misaligned (cfg : Config) (pc : Word) {a : Word} {width : MemWidth}
    (h : a.toNat % widthBytes width ≠ 0) : accessFault cfg pc a width = some (.misalignedAccess pc a) :=
  if_pos (bne_iff_ne.mpr h)

/-- An aligned access is checked against the depth of the data memory (R256). -/
theorem accessFault_outOfRange {cfg : Config} (pc : Word) {a : Word} {width : MemWidth}
    (halign : a.toNat % widthBytes width = 0) (hrange : cfg.dmemDepth ≤ a.toNat / 4) :
    accessFault cfg pc a width = some (.dataOutOfRange pc a) := by
  simp [accessFault, misalignedFor, inDepth, halign, Nat.not_lt.mpr hrange]

section AccessFaults

variable {s : State} {rs1 : Reg} {imm : BitVec 12} {ea : Word} {width : MemWidth} {f : Fault}
  (h1 : s.holds rs1 = true) (hea : ea = s.reg rs1 + imm.signExtend 32)
  (hf : accessFault s.cfg s.pc ea width = some f)

include h1 hea hf

theorem loadOp_fault (sign : MemSign) (rd : Reg) : s.loadOp width sign rd rs1 imm = .fault f := by
  subst hea
  rw [State.loadOp, readFault_held _ _ _ h1, orFault_none]
  exact congrArg (orFault · _) hf

theorem storeOp_fault {rs2 : Reg} (h2 : s.holds rs2 = true) : s.storeOp width rs2 rs1 imm = .fault f := by
  subst hea
  rw [State.storeOp, readFault2_held _ _ _ _ h1 h2, orFault_none]
  exact congrArg (orFault · _) hf

end AccessFaults

/-- Settles O30: with its sources held a load or store stops with the fault of its access, and that of a byte
access is never the alignment. -/
theorem accessFaults : Obligations.AccessFaults := by
  intro s rd rs1 rs2 imm ea h1 h2 hea
  have hbyte {f : Fault} (hf : accessFault s.cfg s.pc ea .b = some f) :
      ∀ i ∈ [Instr.lb rd rs1 imm, .lbu rd rs1 imm, .sb rs2 rs1 imm], exec i s = .fault f := by
    simp only [List.forall_mem_cons]
    exact ⟨loadOp_fault h1 hea hf .s rd, loadOp_fault h1 hea hf .u rd, storeOp_fault h1 hea hf h2, nofun⟩
  have hhalf {f : Fault} (hf : accessFault s.cfg s.pc ea .h = some f) :
      ∀ i ∈ [Instr.lh rd rs1 imm, .lhu rd rs1 imm, .sh rs2 rs1 imm], exec i s = .fault f := by
    simp only [List.forall_mem_cons]
    exact ⟨loadOp_fault h1 hea hf .s rd, loadOp_fault h1 hea hf .u rd, storeOp_fault h1 hea hf h2, nofun⟩
  have hword {f : Fault} (hf : accessFault s.cfg s.pc ea .w = some f) :
      ∀ i ∈ [Instr.lw rd rs1 imm, .sw rs2 rs1 imm], exec i s = .fault f := by
    simp only [List.forall_mem_cons]
    exact ⟨loadOp_fault h1 hea hf .s rd, storeOp_fault h1 hea hf h2, nofun⟩
  exact ⟨fun i hi hmis => hhalf (accessFault_misaligned _ _ hmis) i hi,
    fun i hi hmis => hword (accessFault_misaligned _ _ hmis) i hi,
    fun i hi hrange => hbyte (accessFault_outOfRange _ (Nat.mod_one _) hrange) i hi,
    fun i hi halign hrange => hhalf (accessFault_outOfRange _ halign hrange) i hi,
    fun i hi halign hrange => hword (accessFault_outOfRange _ halign hrange) i hi⟩

end Sys2Proof.Machine

namespace Sys2Proof.Machine

/-! ### The multiplier's three cycles (R290, R291) -/

section MultiplierCycles

variable (m : Multiplier) (q : MulRequest) (a b : Word)

/-- The clock edge after the one that accepts: stage 2, with no product yet. -/
theorem Multiplier.accept_after_one : (m.accept q a b).after 1 = { m.accept q a b with stage := 2 } := rfl

/-- The next one: stage 3 presents the product. -/
theorem Multiplier.accept_after_two :
    (m.accept q a b).after 2 =
      { m.accept q a b with stage := 3, product := mulProduct q.aSigned q.bSigned a b, ready := true } := rfl

end MultiplierCycles

/-- Settles O22: an acceptance leaves the ready flag as it is, stage 2 does too, and stage 3 sets it with the product. -/
theorem multiplierLatency : Obligations.MultiplierLatency := by
  intro m q a b _ hready
  have hstart : (m.accept q a b).ready = false := hready
  rw [Multiplier.accept_after_one, Multiplier.accept_after_two]
  exact ⟨hstart, hstart, rfl, rfl, rfl, rfl⟩

/-! ### The EX-hold protocol (R287, R290, R316) -/

/-- With no flush EX runs the instruction in ID/EX (R387). -/
theorem execute_of_no_flush {s : State} (h : s.flush = false) :
    s.execute =
      s.exOn s.pipe.de (forwarded s.pipe s.pipe.de.fwd1 s.pipe.de.rs1Val)
        (forwarded s.pipe s.pipe.de.fwd2 s.pipe.de.rs2Val) := by
  have hx : s.exInstr = s.pipe.de := by rw [State.exInstr, h]; rfl
  rw [State.execute, hx]

section UnitInExecution

variable {s : State} {x : IdEx}

/-- EX passes an unmarked multiply to the multiplier (R287, R288). -/
theorem exOn_of_mulRequest {q : MulRequest} (hf : x.fault = none) (hq : mulRequest x.ctrl.aluOp = some q) (a b : Word) :
    s.exOn x a b = s.exMultiply x q a b := by
  simp only [State.exOn, hf, hq]

/-- EX passes an unmarked divide to the divider (R287, R288). -/
theorem exOn_of_divRequest {q : DivRequest} (hf : x.fault = none) (hq : divRequest x.ctrl.aluOp = some q) (a b : Word) :
    s.exOn x a b = s.exDivide x q a b := by
  have hm : mulRequest x.ctrl.aluOp = none := by
    by_contra hne
    exact nomatch hq.symm.trans (divRequest_of_mulRequest (Option.isSome_iff_ne_none.mpr hne))
  simp only [State.exOn, hf, hm, hq]

theorem exMultiply_ready (h : s.mul.ready = true) (q : MulRequest) (a b : Word) :
    s.exMultiply x q a b =
      { s.exIdle (ExMem.ofControl x.ctrl x.pc s.mul.output) s.mul.output with mul := s.mul.consume } := by
  simp only [State.exMultiply, h, if_true]

theorem exMultiply_idle (hr : s.mul.ready = false) (hb : s.mul.busy = false) (q : MulRequest) (a b : Word) :
    s.exMultiply x q a b = s.exHold (s.mul.accept q a b) (s.div.tick s.cfg.divImpl) := by
  simp only [State.exMultiply, hr, hb, Bool.false_eq_true, if_false]

theorem exMultiply_working (hr : s.mul.ready = false) (hb : s.mul.busy = true) (q : MulRequest) (a b : Word) :
    s.exMultiply x q a b = s.exHold s.mul.tick (s.div.tick s.cfg.divImpl) := by
  simp only [State.exMultiply, hr, hb, Bool.false_eq_true, if_false, if_true]

theorem exDivide_ready (h : s.div.ready = true) (q : DivRequest) (a b : Word) :
    s.exDivide x q a b =
      { s.exIdle (ExMem.ofControl x.ctrl x.pc s.div.output) s.div.output with div := s.div.consume } := by
  simp only [State.exDivide, h, if_true]

theorem exDivide_idle (h : s.div.state = .idle) (q : DivRequest) (a b : Word) :
    s.exDivide x q a b = s.exHold s.mul.tick (s.div.accept q a b) := by
  have hr : s.div.ready = false := by rw [Divider.ready, h]
  simp only [State.exDivide, hr, h, Bool.false_eq_true, if_false, if_true]

theorem exDivide_working (hr : s.div.ready = false) (hi : s.div.state ≠ .idle) (q : DivRequest) (a b : Word) :
    s.exDivide x q a b = s.exHold s.mul.tick (s.div.tick s.cfg.divImpl) := by
  simp only [State.exDivide, hr, hi, Bool.false_eq_true, if_false]

end UnitInExecution

/-- What the clock edge keeps and writes behind a held EX (R287, R396, R397, R412). -/
theorem clock_of_hold {s : State} (hhold : s.execute.hold = true) :
    s.flush = false ∧ s.clock.pipe.de = s.pipe.de ∧ s.clock.pipe.bypEx = s.pipe.bypEx ∧
      s.clock.pipe.em = ExMem.bubble ∧ s.clock.pipe.btReg = 0 ∧ s.clock.predictor = s.predictor ∧
      s.clock.pipe.stallQ = true ∧ s.clock.dmem = s.dmem := by
  have hflush := flush_of_hold hhold
  obtain ⟨hbt, -, hde⟩ := execute_held hhold
  obtain ⟨-, ⟨m, d, ho⟩, -⟩ := (execute_effect s).of_hold hhold
  have hstall : s.stall s.execute.hold = true := by
    rw [State.stall, hflush, hhold, Bool.or_true]; rfl
  exact ⟨hflush, hde, congrArg ExOut.bypEx ho, congrArg ExOut.em ho, hbt, congrArg ExOut.predictor ho, hstall,
    congrArg ExOut.dmem ho⟩

/-- Settles O47: EX passes the instruction to its unit, which is ready, idle or working, and a held EX is one of the last
two. -/
theorem unitHold : Obligations.UnitHold := by
  refine ⟨?_, fun s => clock_of_hold⟩
  intro s hflush hfault x a b o passed
  have ho : o = s.exOn x a b := execute_of_no_flush hflush
  clear_value o
  constructor
  · intro q hq
    rw [exOn_of_mulRequest hfault hq] at ho
    refine ⟨fun hready => ?_, fun hready hidle => ?_, fun hready hbusy => ?_⟩
    · rw [exMultiply_ready hready] at ho
      subst ho
      and_intros <;> rfl
    · rw [exMultiply_idle hready hidle] at ho
      subst ho
      and_intros <;> rfl
    · rw [exMultiply_working hready hbusy] at ho
      subst ho
      exact ⟨rfl, rfl⟩
  · intro q hq
    rw [exOn_of_divRequest hfault hq] at ho
    refine ⟨fun hready => ?_, fun hidle => ?_, fun hready hbusy => ?_⟩
    · rw [exDivide_ready hready] at ho
      subst ho
      and_intros <;> rfl
    · rw [exDivide_idle hidle] at ho
      subst ho
      exact ⟨rfl, rfl⟩
    · rw [exDivide_working hready hbusy] at ho
      subst ho
      exact ⟨rfl, rfl⟩

/-! ### One unit at a time (R289, R293) -/

/-- Settles O58: a busy unit holds an un-flushed instruction of its own class in EX, and no instruction is of both. -/
theorem oneUnitAtATime : Obligations.OneUnitAtATime := by
  intro s hinv
  constructor
  · rintro ⟨hmul, hdiv⟩
    obtain ⟨-, hq⟩ := hinv.mul_in_ex hmul
    obtain ⟨-, hd⟩ := hinv.div_in_ex hdiv
    rw [divRequest_of_mulRequest (by rw [hq]; rfl)] at hd
    cases hd
  · rintro (hmul | hdiv)
    · exact (flush_eq_false s).mpr (hinv.mulHeld hmul).1
    · exact (flush_eq_false s).mpr (hinv.divHeld hdiv).1

end Sys2Proof.Machine

namespace Sys2Proof.Machine

/-! ### The result table as division of words (R300) -/

section ResultTable

variable {d : Word} (n : Word) (hd : d ≠ 0)
include hd

theorem quotSigned_eq_sdiv : quotSigned n d = n.sdiv d := by
  by_cases ho : n = 0x80000000 ∧ d = 0xFFFFFFFF
  · obtain ⟨rfl, rfl⟩ := ho
    decide
  · have hne : n ≠ BitVec.intMin 32 ∨ d ≠ -1#32 := not_and_or.mp ho
    exact BitVec.eq_of_toInt_eq
      ((quotSigned_toInt hd ho).trans (BitVec.toInt_sdiv_of_ne_or_ne n d hne).symm)

theorem remSigned_eq_srem : remSigned n d = n.srem d := by
  by_cases ho : n = 0x80000000 ∧ d = 0xFFFFFFFF
  · obtain ⟨rfl, rfl⟩ := ho
    decide
  · exact BitVec.eq_of_toInt_eq ((remSigned_toInt hd ho).trans (BitVec.toInt_srem n d).symm)

theorem quotUnsigned_eq_udiv : quotUnsigned n d = n / d :=
  BitVec.eq_of_toNat_eq ((quotUnsigned_toNat hd).trans BitVec.toNat_udiv.symm)

theorem remUnsigned_eq_umod : remUnsigned n d = n % d :=
  BitVec.eq_of_toNat_eq ((remUnsigned_toNat hd).trans BitVec.toNat_umod.symm)

end ResultTable

/-! ### Quotient and remainder belong together (R300) -/

/-- The signed pair, overflow included: both words are the integers' truncations modulo 2^32. -/
theorem sdiv_mul_add_srem (n d : Word) : n.sdiv d * d + n.srem d = n := by
  have hq : n.sdiv d = BitVec.ofInt 32 (n.toInt.tdiv d.toInt) :=
    BitVec.eq_of_toInt_eq (by rw [BitVec.toInt_sdiv, BitVec.toInt_ofInt])
  have hr : n.srem d = BitVec.ofInt 32 (n.toInt.tmod d.toInt) := by
    rw [← BitVec.toInt_srem, BitVec.ofInt_toInt]
  calc n.sdiv d * d + n.srem d
      = BitVec.ofInt 32 (n.toInt.tdiv d.toInt * d.toInt + n.toInt.tmod d.toInt) := by
        rw [BitVec.ofInt_add, BitVec.ofInt_mul, ← hq, ← hr, BitVec.ofInt_toInt]
    _ = n := by rw [Int.tdiv_mul_add_tmod, BitVec.ofInt_toInt]

theorem udiv_mul_add_umod (n d : Word) : n / d * d + n % d = n := by
  apply BitVec.eq_of_toNat_eq
  rw [BitVec.toNat_add, BitVec.toNat_mul, BitVec.toNat_udiv, BitVec.toNat_umod, Nat.mod_add_mod, Nat.div_add_mod',
    Nat.mod_eq_of_lt n.isLt]

/-- The law of R300 for the signed and the unsigned pair of the result table. -/
theorem divResult_quotient_mul_add_remainder (isSigned : Bool) (n : Word) {d : Word} (hd : d ≠ 0) :
    divResult { isSigned := isSigned, wantRem := false } n d * d +
      divResult { isSigned := isSigned, wantRem := true } n d = n := by
  cases isSigned with
  | true =>
    show quotSigned n d * d + remSigned n d = n
    rw [quotSigned_eq_sdiv n hd, remSigned_eq_srem n hd, sdiv_mul_add_srem]
  | false =>
    show quotUnsigned n d * d + remUnsigned n d = n
    rw [quotUnsigned_eq_udiv n hd, remUnsigned_eq_umod n hd, udiv_mul_add_umod]

/-- What the destination of a divide reads (R301). -/
theorem divOp_reg_rd {s t : State} {q : DivRequest} {rd rs1 rs2 : Reg} (hrd : rd ≠ 0)
    (h : s.divOp q rd rs1 rs2 = .next t) : t.reg rd = divResult q (s.reg rs1) (s.reg rs2) := by
  obtain ⟨-, rfl⟩ := (divOp_next ..).mp h
  rw [(retire_divides s rd _ _).writes.value rd, if_pos ⟨rfl, hrd⟩]

/-- The law of R300 for two divides on the same sources. -/
theorem divOp_quotient_mul_add_remainder {s t u : State} {isSigned : Bool} {rd rs1 rs2 : Reg} (hrd : rd ≠ 0)
    (hd : s.reg rs2 ≠ 0) (ht : s.divOp { isSigned := isSigned, wantRem := false } rd rs1 rs2 = .next t)
    (hu : s.divOp { isSigned := isSigned, wantRem := true } rd rs1 rs2 = .next u) :
    t.reg rd * s.reg rs2 + u.reg rd = s.reg rs1 := by
  rw [divOp_reg_rd hrd ht, divOp_reg_rd hrd hu, divResult_quotient_mul_add_remainder isSigned _ hd]

/-- Settles O21: the result table keeps the law, and each divide writes its entry. -/
theorem quotientTimesDivisorPlusRemainder : Obligations.QuotientTimesDivisorPlusRemainder :=
  fun _ _ _ _ _ _ hrd hd =>
    ⟨fun ht hu => divOp_quotient_mul_add_remainder hrd hd ht hu,
      fun ht hu => divOp_quotient_mul_add_remainder hrd hd ht hu⟩

/-! ### What the divider does at entry (R306, R309) -/

/-- A divisor of 1 gives the dividend back and leaves nothing (R309). -/
theorem divResult_one (q : DivRequest) (n : Word) : divResult q n 1 = if q.wantRem then 0 else n := by
  have h1 : (1 : Word) ≠ 0 := by decide
  obtain ⟨isSigned, wantRem⟩ := q
  cases isSigned <;> cases wantRem
  · exact (quotUnsigned_eq_udiv n h1).trans BitVec.udiv_one
  · exact (remUnsigned_eq_umod n h1).trans BitVec.umod_one
  · exact (quotSigned_eq_sdiv n h1).trans BitVec.sdiv_one
  · exact (remSigned_eq_srem n h1).trans BitVec.srem_one

/-- A divisor of 0 gives all ones, and the dividend as the remainder (R309). -/
theorem divResult_zero (q : DivRequest) (n : Word) : divResult q n 0 = if q.wantRem then n else 0xFFFFFFFF := by
  obtain ⟨isSigned, wantRem⟩ := q
  cases isSigned <;> cases wantRem <;> rfl

/-- A divisor of 1 sets no error flag (R309). -/
theorem divError_one (isSigned : Bool) (n : Word) : divError isSigned n 1 = false := by
  cases isSigned <;> simp [divError, divOverflow]

section Acceptance

variable (e : Divider) (q : DivRequest) (n : Word)

theorem Divider.accept_zero :
    e.accept q n 0 = { e with state := .error, error := true, result := if q.wantRem then n else 0xFFFFFFFF } :=
  if_pos rfl

theorem Divider.accept_one :
    e.accept q n 1 = { e with state := .div1, error := false, result := if q.wantRem then 0 else n } := rfl

theorem Divider.accept_ordinary {dv : Word} (h0 : dv ≠ 0) (h1 : dv ≠ 1) :
    e.accept q n dv =
      { e with
        state := .pre, error := false, dividend := n, divisor := dv, isSigned := q.isSigned, wantRem := q.wantRem } := by
  rw [Divider.accept, if_neg h0, if_neg h1]

end Acceptance

/-- Settles O23: the two special cases latch their entry of the result table at once. -/
theorem dividerSpecialCases : Obligations.DividerSpecialCases := by
  rintro e q n dv (rfl | rfl)
  · rw [Divider.accept_zero, divResult_zero]
    exact ⟨rfl, rfl, rfl, iff_of_true rfl rfl, iff_of_false nofun (by decide)⟩
  · rw [Divider.accept_one, divResult_one, divError_one]
    exact ⟨rfl, rfl, rfl, iff_of_false nofun (by decide), iff_of_true rfl rfl⟩

/-! ### Long division (R313, R314) -/

/-- Long division of `N` by `d` when `m` of the dividend's 32 bits are still to come: the remainder of the bits already taken,
and the register that holds the bits to come above the quotient's bits so far. -/
def longDivided (d N m : Nat) : Nat × Nat :=
  (N / 2 ^ m % d, N % 2 ^ m * 2 ^ (32 - m) + N / 2 ^ m / d)

theorem longDivided_start (d : Nat) {N : Nat} (hN : N < 2 ^ 32) : longDivided d N 32 = (0, N) := by
  rw [longDivided, Nat.div_eq_of_lt hN, Nat.mod_eq_of_lt hN]
  simp

theorem longDivided_end (d N : Nat) : longDivided d N 0 = (N % d, N / d) := by
  simp [longDivided, Nat.mod_one]

/-- A step on the bits `x` taken so far, the `b` bits `y` that enter now and the `m` bits `z` still to come. -/
theorem longDivisionStep_digits {b c m d x z : Nat} (y : Nat) (hd : 0 < d) (hx : x < 2 ^ c) (hz : z < 2 ^ m)
    (hbits : c + b + m = 32) :
    longDivisionStep b d (x % d, (y * 2 ^ m + z) * 2 ^ c + x / d) =
      ((x * 2 ^ b + y) % d, z * 2 ^ (c + b) + (x * 2 ^ b + y) / d) := by
  have hwidth : 32 - b = m + c := by omega
  have hlow : z * 2 ^ c + x / d < 2 ^ (m + c) := by
    have hquot : x / d < 2 ^ c := (Nat.div_le_self x d).trans_lt hx
    calc z * 2 ^ c + x / d
        < (z + 1) * 2 ^ c := by rw [Nat.succ_mul]; omega
      _ ≤ 2 ^ m * 2 ^ c := Nat.mul_le_mul_right _ hz
      _ = 2 ^ (m + c) := (pow_add ..).symm
  have hquot : (y * 2 ^ m + z) * 2 ^ c + x / d = z * 2 ^ c + x / d + 2 ^ (m + c) * y := by ring
  have hrem : x * 2 ^ b + y = x % d * 2 ^ b + y + d * (x / d * 2 ^ b) := by
    conv_lhs => rw [← Nat.mod_add_div x d]
    ring
  simp only [longDivisionStep]
  rw [hwidth, hquot, Nat.add_mul_div_left _ _ (by positivity), Nat.div_eq_of_lt hlow, Nat.zero_add,
    Nat.add_mul_mod_self_left, Nat.mod_eq_of_lt hlow, hrem, Nat.add_mul_mod_self_left, Nat.add_mul_div_left _ _ hd]
  congr 1
  ring

/-- A step takes the next `b` bits of the dividend. -/
theorem longDivisionStep_longDivided {b d N m : Nat} (hd : 0 < d) (hN : N < 2 ^ 32) (hm : b + m ≤ 32) :
    longDivisionStep b d (longDivided d N (b + m)) = longDivided d N m := by
  have hx : N / 2 ^ (b + m) < 2 ^ (32 - (b + m)) := by
    rw [Nat.div_lt_iff_lt_mul (by positivity), ← pow_add, Nat.sub_add_cancel hm]
    exact hN
  have hz : N % 2 ^ m < 2 ^ m := Nat.mod_lt _ (by positivity)
  have hin : N % 2 ^ (b + m) = N / 2 ^ m % 2 ^ b * 2 ^ m + N % 2 ^ m := by
    rw [Nat.add_comm b, pow_add, Nat.mod_mul]
    ring
  have htaken : N / 2 ^ (b + m) * 2 ^ b + N / 2 ^ m % 2 ^ b = N / 2 ^ m := by
    rw [Nat.add_comm b, pow_add, ← Nat.div_div_eq_div_mul, Nat.div_add_mod']
  have hwidth : 32 - (b + m) + b = 32 - m := by omega
  rw [longDivided, hin, longDivisionStep_digits _ hd hx hz (by omega), htaken, hwidth, longDivided]

/-! ### The divider's cycles as long division (R310 to R314) -/

/-- The bits a WORKING cycle takes: the logarithm of the variant's radix (R313, R314). -/
def digitBits : DivImpl → Nat
  | .restoring => 1
  | .srt16 => 4

theorem digitBits_mul_iterations (impl : DivImpl) : digitBits impl * impl.iterations = 32 := by
  cases impl <;> rfl

/-- A WORKING cycle of either variant is one step of long division. -/
theorem Divider.iterate_remQuot (e : Divider) (impl : DivImpl) (h : e.rem.toNat < e.divisor.toNat) :
    ((e.iterate impl).rem.toNat, (e.iterate impl).quot.toNat) =
      longDivisionStep (digitBits impl) e.divisor.toNat (e.rem.toNat, e.quot.toNat) := by
  cases impl with
  | srt16 => exact radix16Step_eq e.divisor e.rem e.quot h
  | restoring =>
    have hd := e.divisor.isLt
    have hrem : (e.rem.setWidth 33).toNat = e.rem.toNat := by
      rw [BitVec.toNat_setWidth, Nat.mod_eq_of_lt (by omega)]
    rw [digitBits, ← hrem, ← restoringStep_eq _ _ _ (by rw [hrem]; exact h)]
    exact congrArg (·, _) (BitVec.toNat_setWidth_of_le (by omega))

/-- The sign bit PRE takes of an operand (R310). -/
def DivRequest.sign (q : DivRequest) (v : Word) : Bool := q.isSigned && v.msb

/-- The magnitude PRE takes of an operand (R310). -/
def DivRequest.magnitude (q : DivRequest) (v : Word) : Word := negateIf (q.sign v) v

theorem DivRequest.magnitude_ne_zero (q : DivRequest) {v : Word} (h : v ≠ 0) : q.magnitude v ≠ 0 := by
  rw [DivRequest.magnitude, negateIf]
  split
  · exact sub_ne_zero.mpr h.symm
  · exact h

/-- A divider that was asked to divide `n` by `dv` and has `c` iterations left. -/
structure Divider.Dividing (impl : DivImpl) (q : DivRequest) (n dv : Word) (c : Nat) (e : Divider) : Prop where
  state : e.state = if c = 0 then .ended else .working
  count : e.count = c
  wantRem : e.wantRem = q.wantRem
  signN : e.signN = q.sign n
  signD : e.signD = q.sign dv
  divisor : e.divisor = q.magnitude dv
  error : e.error = divOverflow q.isSigned n dv
  remQuot : (e.rem.toNat, e.quot.toNat) =
    longDivided (q.magnitude dv).toNat (q.magnitude n).toNat (digitBits impl * c)

section Engine

variable {impl : DivImpl} {q : DivRequest} {n dv : Word}

/-- The cycle after the acceptance (R310). -/
theorem Divider.accept_tick_dividing (e : Divider) (h0 : dv ≠ 0) (h1 : dv ≠ 1) :
    Divider.Dividing impl q n dv impl.iterations ((e.accept q n dv).tick impl) := by
  rw [Divider.accept_ordinary e q n h0 h1]
  have hwork : impl.iterations ≠ 0 := Nat.ne_of_gt (one_le_iterations impl)
  exact {
    state := (if_neg hwork).symm
    count := rfl
    wantRem := rfl
    signN := rfl
    signD := rfl
    divisor := rfl
    error := rfl
    remQuot := by rw [digitBits_mul_iterations, longDivided_start _ (q.magnitude n).isLt]; rfl }

/-- A WORKING cycle (R311). -/
theorem Divider.Dividing.tick {c : Nat} {e : Divider} (h : Divider.Dividing impl q n dv (c + 1) e)
    (hc : c + 1 ≤ impl.iterations) (h0 : dv ≠ 0) : Divider.Dividing impl q n dv c (e.tick impl) := by
  have hwork : e.tick impl = e.iterate impl := by rw [Divider.tick, h.state]; rfl
  have hd : 0 < (q.magnitude dv).toNat := Nat.pos_of_ne_zero (BitVec.toNat_ne.mp (q.magnitude_ne_zero h0))
  have hrem : e.rem.toNat < e.divisor.toNat := by
    obtain ⟨hmod, -⟩ := Prod.mk.inj h.remQuot
    rw [hmod, h.divisor]
    exact Nat.mod_lt _ hd
  have hbits : digitBits impl + digitBits impl * c ≤ 32 := by
    rw [← digitBits_mul_iterations impl, Nat.add_comm, ← Nat.mul_succ]
    exact Nat.mul_le_mul_left _ hc
  rw [hwork]
  exact {
    state := by simp [Divider.iterate, h.count]
    count := by simp [Divider.iterate, h.count]
    wantRem := h.wantRem
    signN := h.signN
    signD := h.signD
    divisor := h.divisor
    error := h.error
    remQuot := by
      rw [e.iterate_remQuot impl hrem, h.remQuot, h.divisor, Nat.mul_succ, Nat.add_comm,
        longDivisionStep_longDivided hd (q.magnitude n).isLt hbits] }

/-- After PRE every cycle takes one iteration off (R311, R318). -/
theorem Divider.accept_after_dividing (e : Divider) (h0 : dv ≠ 0) (h1 : dv ≠ 1) :
    ∀ k c, k + c = impl.iterations → Divider.Dividing impl q n dv c ((e.accept q n dv).after impl (k + 1)) := by
  intro k
  induction k with
  | zero =>
    intro c hc
    rw [Nat.zero_add] at hc
    subst hc
    exact e.accept_tick_dividing h0 h1
  | succ k ih =>
    intro c hc
    exact (ih (c + 1) (by omega)).tick (by omega) h0

/-! ### The end of a division (R315) -/

theorem Divider.Dividing.ready {c : Nat} {e : Divider} (h : Divider.Dividing impl q n dv (c + 1) e) : e.ready = false := by
  rw [Divider.ready, h.state]; rfl

theorem Divider.Dividing.rem_quot_end {e : Divider} (h : Divider.Dividing impl q n dv 0 e) :
    e.rem.setWidth 32 = q.magnitude n % q.magnitude dv ∧ e.quot = q.magnitude n / q.magnitude dv := by
  have hend := h.remQuot
  rw [Nat.mul_zero, longDivided_end, Prod.mk.injEq] at hend
  obtain ⟨hrem, hquot⟩ := hend
  constructor
  · apply BitVec.eq_of_toNat_eq
    rw [BitVec.toNat_setWidth, hrem, ← BitVec.toNat_umod, Nat.mod_eq_of_lt (BitVec.isLt _)]
  · exact BitVec.eq_of_toNat_eq (hquot.trans BitVec.toNat_udiv.symm)

end Engine

/-- The sign correction of the magnitudes' quotient or remainder gives the entry of the result table, overflow included
(R312, R315). -/
theorem divResult_of_magnitudes (q : DivRequest) (n : Word) {dv : Word} (h0 : dv ≠ 0) :
    divResult q n dv =
      if q.wantRem then negateIf (q.sign n) (q.magnitude n % q.magnitude dv)
      else negateIf (q.sign n ^^ q.sign dv) (q.magnitude n / q.magnitude dv) := by
  obtain ⟨isSigned, wantRem⟩ := q
  cases isSigned <;> cases wantRem
  · exact quotUnsigned_eq_udiv n h0
  · exact remUnsigned_eq_umod n h0
  · refine (quotSigned_eq_sdiv n h0).trans ?_
    rw [BitVec.sdiv_eq]
    cases hn : n.msb <;> cases hd : dv.msb <;> simp [DivRequest.magnitude, DivRequest.sign, negateIf, hn, hd]
  · refine (remSigned_eq_srem n h0).trans ?_
    rw [BitVec.srem_eq]
    cases hn : n.msb <;> cases hd : dv.msb <;> simp [DivRequest.magnitude, DivRequest.sign, negateIf, hn, hd]

/-- The overflow case of the result table (R300). -/
theorem divResult_of_divOverflow {q : DivRequest} {n dv : Word} (h : divOverflow q.isSigned n dv = true) :
    divResult q n dv = if q.wantRem then 0 else intMin := by
  obtain ⟨isSigned, wantRem⟩ := q
  cases isSigned with
  | false => cases h
  | true =>
    obtain ⟨rfl, rfl⟩ := (divOverflow_signed n dv).mp h
    cases wantRem <;> decide

/-- END presents the entry of the result table (R315). -/
theorem Divider.Dividing.output {impl : DivImpl} {q : DivRequest} {n dv : Word} {e : Divider}
    (h : Divider.Dividing impl q n dv 0 e) (h0 : dv ≠ 0) : e.output = divResult q n dv := by
  obtain ⟨hrem, hquot⟩ := h.rem_quot_end
  have hout : e.output = e.corrected := by rw [Divider.output, h.state]; rfl
  rw [hout, Divider.corrected, h.error, h.wantRem, h.signN, h.signD, hrem, hquot]
  cases ho : divOverflow q.isSigned n dv with
  | true => exact (divResult_of_divOverflow ho).symm
  | false => exact (divResult_of_magnitudes q n h0).symm

/-- Settles O24: PRE starts a long division on the magnitudes, every WORKING cycle is a step of it, and END corrects the
signs. -/
theorem dividerEngineComputesTheResultTable : Obligations.DividerEngineComputesTheResultTable := by
  intro impl e q n dv h0 h1
  have hwork := Divider.accept_after_dividing (impl := impl) (q := q) (n := n) e h0 h1
  have hend := hwork impl.iterations 0 rfl
  refine ⟨?_, hend.state, hend.output h0, ?_⟩
  · rintro (_ | k) hk
    · show (e.accept q n dv).ready = false
      rw [Divider.accept_ordinary e q n h0 h1]; rfl
    · obtain ⟨c, hc⟩ := Nat.exists_eq_add_of_lt hk
      exact (hwork k (c + 1) hc.symm).ready
  · rw [hend.error, divError, beq_eq_false_iff_ne.mpr h0, Bool.false_or]

end Sys2Proof.Machine

namespace Sys2Proof.Machine

/-! ### The instructions that only advance (R334, R335) -/

/-- NOP has no effect beyond the next PC (R334). -/
theorem exec_nop (s : State) : exec .nop s = .next s.advance := rfl

/-- The zero word is replaced by NOP (R335). -/
theorem exec_zeroWord (s : State) : exec .zeroWord s = .next s.advance := rfl

/-- Settles O35: both arms answer `State.advance`, which moves the PC alone. -/
theorem nopAndZeroWordOnlyAdvance : Obligations.NopAndZeroWordOnlyAdvance := by
  intro s i hi
  obtain rfl | rfl := List.mem_pair.mp hi
  · exact exec_nop s
  · exact exec_zeroWord s

end Sys2Proof.Machine

namespace Sys2Proof.Machine

/-! ### What IF and ID write (R393 to R401) -/

section FetchAndDecode

variable {s : State} {p : FetchPacket}

/-- The effective PC, with the flush signal as what it says of `bt_reg` (R384, R399). -/
theorem State.fetchAddress_eq (s : State) :
    s.fetchAddress =
      if s.pipe.btReg ≠ 0 then s.pipe.btReg else if s.pipe.stallQ then s.pipe.prevPc else s.pc := by
  simp only [State.fetchAddress, flush_eq_true]

/-- The word ID decodes, with the flush signal as what it says of `bt_reg` (R384, R393). -/
theorem State.decodeSource_eq (s : State) :
    s.decodeSource = if s.pipe.btReg = 0 ∧ s.pipe.stallQ = true then s.pipe.saved else s.pipe.ifid := by
  simp only [State.decodeSource, Bool.and_eq_true, Bool.not_eq_true', flush_eq_false]

/-- A fetch within the instruction memory delivers its word, unmarked (R400). -/
theorem State.fetched_inRange (h : s.fetchAddress.toNat / 4 < s.cfg.imemDepth) :
    s.fetched.inst = s.imem.word (s.fetchAddress.toNat / 4) ∧ s.fetched.fault = none :=
  ⟨if_pos (decide_eq_true h), (fetchFault_eq_none ..).mpr h⟩

/-- A fetch beyond the instruction memory is marked (R354, R400). -/
theorem State.fetched_outOfRange (h : s.cfg.imemDepth ≤ s.fetchAddress.toNat / 4) :
    s.fetched.fault = some (.fetchOutOfRange s.fetchAddress) :=
  if_neg (by simpa [inDepth] using h)

/-- The packet of an unmarked word (R394). -/
theorem State.packetOf_of_unmarked (h : s.decodeFault p = none) :
    s.packetOf p =
      { ctrl := { (decodeControl p.inst).ctrl with predictedNextPc := p.pred }
        pc := p.pc
        imm := (decodeControl p.inst).imm
        rs1Val := s.reg (decodeControl p.inst).rs1
        rs2Val := s.reg (decodeControl p.inst).rs2
        fwd1 := s.fwdSel (decodeControl p.inst).rs1 (decodeControl p.inst).used1
        fwd2 := s.fwdSel (decodeControl p.inst).rs2 (decodeControl p.inst).used2
        fault := none } := by
  simp only [State.packetOf, h]

/-- The packet of a word that ID marks is inert (R354). -/
theorem State.packetOf_of_marked {f : Fault} (h : s.decodeFault p = some f) : s.packetOf p = IdEx.marked f p.pc := by
  simp only [State.packetOf, h]

/-- With no flush and no stall ID sends the packet of the word it decodes (R396, R412). -/
theorem State.nextDe_of_no_stall {hold : Bool} (hflush : s.flush = false) (hstall : s.stall hold = false) :
    s.nextDe hold = s.packetOf s.decodeSource := by
  obtain ⟨hload, hhold⟩ : s.loadUse = false ∧ hold = false := by
    simpa only [State.stall, hflush, Bool.not_false, Bool.true_and, Bool.or_eq_false_iff] using hstall
  simp only [State.nextDe, hflush, hhold, hload, Bool.false_eq_true, if_false]

end FetchAndDecode

/-- Settles O48: the cycle is `clock`, whose IF/ID latch is the fetched packet and whose ID/EX latch, with no flush and no
stall, is the packet of the word decoded. -/
theorem fetchAndDecodeWrite : Obligations.FetchAndDecodeWrite := by
  intro s t hhalt hcycle eff p d
  have heff : s.fetchAddress = eff := s.fetchAddress_eq
  have hp : s.decodeSource = p := s.decodeSource_eq
  obtain ⟨-, -, ⟨hh, -⟩ | ⟨-, rfl⟩⟩ := cycle_next hcycle
  · exact nomatch hhalt.symm.trans hh
  · rw [← heff]
    refine ⟨State.fetched_inRange, State.fetched_outOfRange, rfl, rfl, rfl, rfl, hp, fun hbt hstall => ?_⟩
    have hde : s.clock.pipe.de = s.packetOf p := by
      rw [← hp]
      exact State.nextDe_of_no_stall ((flush_eq_false s).mpr hbt) hstall
    rw [hde]
    constructor
    · intro hnone
      rw [State.packetOf_of_unmarked hnone]
      exact ⟨rfl, rfl, rfl, rfl, rfl, rfl⟩
    · intro f hf
      rw [State.packetOf_of_marked hf]
      exact ⟨rfl, rfl, rfl⟩

end Sys2Proof.Machine

namespace Sys2Proof.Machine

/-! ### Forwarding (R405 to R409) -/

/-- The operand EX resolves behind the clock edge for a used source is its youngest writer's value, branch by branch of the
selector (R406 to R408). -/
theorem forwarded_clock_pending {s : State} (hhold : s.execute.hold = false) (r : Reg) :
    forwarded s.clock.pipe (s.fwdSel r true) (s.reg r) = s.pending r := by
  have hbyp : s.clock.pipe.bypEx = s.execute.em.result := (execute_effect s).bypass hhold
  simp only [State.fwdSel, State.pending, Bool.not_true, Bool.false_or, decide_eq_true_eq]
  split
  · next h0 => rw [h0]; exact s.reg_zero
  · split
    · exact hbyp
    · split
      · rfl
      · split <;> rfl

/-- Settles O50: the packet ID sends carries the selectors of its sources, and each resolves to the pending value. -/
theorem forwardingDeliversTheYoungest : Obligations.ForwardingDeliversTheYoungest := by
  intro s hflush hhold hload _ hfault d t
  have hstall : s.stall s.execute.hold = false := by rw [State.stall, hload, hhold, Bool.or_false, Bool.and_false]
  have hde : t.pipe.de = s.packetOf s.decodeSource := State.nextDe_of_no_stall hflush hstall
  rw [hde, State.packetOf_of_unmarked hfault]
  constructor
  · intro hused
    show forwarded t.pipe (s.fwdSel d.rs1 d.used1) (s.reg d.rs1) = s.pending d.rs1
    rw [hused]
    exact forwarded_clock_pending hhold d.rs1
  · intro hused
    show forwarded t.pipe (s.fwdSel d.rs2 d.used2) (s.reg d.rs2) = s.pending d.rs2
    rw [hused]
    exact forwarded_clock_pending hhold d.rs2

/-! ### The load-use stall (R402, R410 to R412) -/

/-- EX passes on the memory access of its instruction, or none where it holds or marks it (R287, R354, R390). -/
theorem ExEffect.em_memOp {s : State} {x : IdEx} {a b : Word} {o : ExOut} (h : ExEffect s x a b o) :
    o.em.memOp = x.ctrl.memOp ∨ o.em.memOp = .none := by
  cases h with
  | mulDone | divDone | transfer | memory | other => exact .inl rfl
  | _ => exact .inr rfl

section LoadUse

variable {s : State}

/-- A load-use hazard is one with a load in EX (R410). -/
theorem load_of_loadUse (hload : s.loadUse = true) : s.pipe.de.ctrl.memOp = .load := by
  simp only [State.loadUse, Bool.and_eq_true, decide_eq_true_eq] at hload
  exact hload.1

/-- A bubble in EX is no hazard (R410). -/
theorem loadUse_of_bubble (hde : s.pipe.de = IdEx.bubble) : s.loadUse = false := by
  rw [State.loadUse, hde]; rfl

/-- The two stall causes never coincide: what a unit holds is no load (R412). -/
theorem PipeInv.hold_of_load (h : PipeInv s) (hload : s.pipe.de.ctrl.memOp = .load) : s.execute.hold = false := by
  refine Bool.eq_false_iff.mpr fun hhold => ?_
  obtain ⟨-, -, hunit⟩ := (execute_effect s).of_hold hhold
  obtain ⟨-, hx, -⟩ := execute_held hhold
  rw [hx] at hunit
  exact nomatch hload.symm.trans (h.deControl.memOp_of_unit hunit)

/-- After a stall without a redirect ID decodes the same word and IF fetches the same address again (R393, R399, R402). -/
theorem clock_repeats_of_stall (hbt : s.execute.btReg = 0) (hstall : s.stall s.execute.hold = true) :
    s.clock.decodeSource = s.decodeSource ∧ s.clock.fetchAddress = s.fetchAddress := by
  have hbt' : s.clock.pipe.btReg = 0 := hbt
  have hstall' : s.clock.pipe.stallQ = true := hstall
  rw [State.decodeSource_eq s.clock, State.fetchAddress_eq s.clock, if_pos ⟨hbt', hstall'⟩,
    if_neg (not_not_intro hbt'), if_pos hstall']
  exact ⟨rfl, rfl⟩

end LoadUse

/-- Settles O49: the hazard stalls with no unit holding EX, so a bubble follows the load, which is in MEM in the next
cycle. -/
theorem loadUseStallsOneCycle : Obligations.LoadUseStallsOneCycle := by
  intro s hinv hflush hload
  have hmem := load_of_loadUse hload
  have hhold := hinv.hold_of_load hmem
  have hstall : s.stall s.execute.hold = true := by rw [State.stall, hflush, hload]; rfl
  have hde : s.clock.pipe.de = IdEx.bubble := by
    show s.nextDe s.execute.hold = IdEx.bubble
    rw [State.nextDe, hflush, hhold, hload]; rfl
  obtain ⟨hsource, haddress⟩ := clock_repeats_of_stall (hinv.btReg_of_stall hstall) hstall
  refine ⟨hde, hstall, hsource, haddress, loadUse_of_bubble hde, ?_⟩
  show s.execute.em.memOp ≠ .store
  have hx : s.exInstr = s.pipe.de := by rw [State.exInstr, hflush]; rfl
  obtain hop | hop := (execute_effect s).em_memOp
  · rw [hop, hx, hmem]; nofun
  · rw [hop]; nofun

/-! ### The flush (R384, R416 to R422) -/

section Flush

variable {s : State} (h : s.flush = true)

include h

/-- Under flush IF fetches from the corrected PC (R399, R416). -/
theorem fetchAddress_of_flush : s.fetchAddress = s.pipe.btReg := if_pos h

/-- Under flush ID discards its word (R396, R417). -/
theorem nextDe_of_flush (hold : Bool) : s.nextDe hold = IdEx.bubble := if_pos h

/-- Under flush ID asserts no stall, hazard or not (R412, R417). -/
theorem stall_of_flush (hold : Bool) : s.stall hold = false := by rw [State.stall, h]; rfl

end Flush

/-- Settles O46: EX runs a bubble, which writes nothing of its own, and ID and IF follow the flush signal. -/
theorem flushSquashesTwo : Obligations.FlushSquashesTwo := by
  intro s t _ _ hhalt hbt hcycle
  have hflush := (flush_eq_true s).mpr hbt
  have hex := execute_flush s hflush
  obtain ⟨-, -, ⟨hh, -⟩ | ⟨-, rfl⟩⟩ := cycle_next hcycle
  · exact nomatch hhalt.symm.trans hh
  · have haddress := fetchAddress_of_flush hflush
    exact ⟨congrArg ExOut.em hex, nextDe_of_flush hflush _, stall_of_flush hflush _, congrArg ExOut.btReg hex,
      congrArg ExOut.bypEx hex, congrArg ExOut.dmemOut hex, congrArg ExOut.dmem hex, congrArg ExOut.predictor hex,
      haddress, haddress, congrArg ExOut.mul hex, congrArg ExOut.div hex⟩

end Sys2Proof.Machine
